-- ==== Sys2Proof/Word.lean ====
section
/-! DEFINITION. The word types of the IM8000 (`00_scope.md` R6): 8-bit bytes, 16-bit words, 32-bit dwords. -/

namespace Sys2Proof

/-- A byte: one memory cell, one byte of the instruction stream. -/
abbrev Byte := BitVec 8

/-- A word: a primary register, F, R, an I/O port number. -/
abbrev Word := BitVec 16

/-- A dword: a register pair, IX, IY, SP, PC, a logical address. -/
abbrev Dword := BitVec 32

end Sys2Proof
end

