-- ==== Sys2Proof/Config.lean ====
section
/-! DEFINITION. What an implementation or a platform fixes, and the free values.

The parameters of `00_scope.md` R7 are plain data (`Params`) that the machine's state carries and no step changes,
so a statement over every state is a statement over every choice of them (log 1). The free values are opaque
constants applied to the state's step counter: nothing in Lean can evaluate them or prove a value of them (log 7). -/

namespace Sys2Proof.Config

/-- `MLTDIV_SS` (R123, D7): does the size field of MLT, DIV, SDIV name the half or the target width? -/
inductive MltDivSS where
  | half
  | target
deriving DecidableEq, Repr

/-- `REL_BASE` (R270 (c), D9): a relative displacement counts from the next instruction or from this one. -/
inductive RelBase where
  | next
  | self
deriving DecidableEq, Repr

/-- `TSXR_STOP` (R181, D21): what ends TSIR and TSDR besides BC = 0. -/
inductive TsxrStop where
  | equal
  | andZero
  | andNonzero
deriving DecidableEq, Repr

/-- The two interrupt modes (R37, R305): there is no mode 0. -/
inductive IntMode where
  | im1
  | im2
deriving DecidableEq, Repr

/-- What stands at a physical address (R71, U18). -/
inductive RegionKind where
  | ram
  | rom
  | device
  | empty
deriving DecidableEq, Repr

/-- One region of the platform's memory map: `size` physical addresses from `base` on. -/
structure Region where
  base : Nat
  size : Nat
  kind : RegionKind
deriving DecidableEq, Repr

/-- The implementation parameters of R7 and the platform's memory map of R71. The first region that holds an
address decides what it is; an address no region holds is RAM. -/
structure Params where
  mltDivSS : MltDivSS
  relBase : RelBase
  retEnableDelay : Bool
  tsxrStop : TsxrStop
  imReset : IntMode
  regions : List Region
deriving DecidableEq, Repr

/-- The defaults that `92_eei_decisions.md` recommends. It recommends none for IM_RESET and leaves the memory map to
the platform: mode 1 and all RAM are this model's (DESIGN CHOICE, log 3, log 6; unsafe). -/
def Params.recommended : Params :=
  { mltDivSS := .half, relBase := .next, retEnableDelay := true, tsxrStop := .equal, imReset := .im1, regions := [] }

/-- What an access is for. One step makes at most one access of each kind, so a free value that depends on the step
and the kind is fresh at every access (log 13). -/
inductive Access where
  | fetch
  | data
  | stack
  | vector
  | intVector
  | resetVector
deriving DecidableEq, Repr

/-- The undefined flags after MLT, DIV, SDIV and the TS family (R14 `UNDEF`, U1, U2, U12), laid out as in F. -/
opaque undefF : Nat → Word

/-- The target of a division with no stated result (R215, R216 `ANY_T`, U3, U4). -/
opaque undefTarget : Nat → Dword

/-- The value `LD A, R` reads, whatever R holds (R36, R308 `ANY_16`, U5). -/
opaque refreshRead : Nat → Word → Word

/-- What a device answers to an I/O read that `ioIn` gives no answer for (R70, U19). -/
opaque ioValue : Nat → Word

/-- The inhibit bit after an enabling instruction that found IFF1 already 1 (R38, R323, U11). -/
opaque inhibitChoice : Nat → Bool

/-- The byte a memory-mapped peripheral answers at a physical address (R71). -/
opaque deviceByte : Nat → Access → Nat → Byte

/-- The byte read at a physical address where nothing stands (U18). -/
opaque openBus : Nat → Access → Nat → Byte

/-- What a reset during a run leaves in the registers the reset table does not list (R361), by number:
0 to 6 A to L, 7 to 14 A' to L' and F', 15 and 16 IX and IY, 17 to 19 IX', IY' and SP'. -/
opaque unresetReg : Nat → Nat → Dword

/-- What a reset during a run leaves in memory other than ROM (R361). -/
opaque unresetMem : Nat → List Host.Cell

end Sys2Proof.Config
end

