-- ==== Sys2Proof/Syntax.lean ====
section
/-! DEFINITION. The instructions of the IM8000: one constructor of `Instr` per row of `opcode_table.json`, its
operands typed so that most forms R131 calls ILLEGAL cannot be written down. What typing leaves open is checked in
`WellFormed.lean`. -/

namespace Sys2Proof

/-- The size field `ss` (R98): byte 00, word 01, dword 10. -/
inductive Size where
  | byte
  | word
  | dword
deriving DecidableEq, Repr

/-- The sizes of IN, OUT and the block instructions (R122, R170). -/
inductive NSize where
  | byte
  | word
deriving DecidableEq, Repr

/-- The sizes of EX r,r' and EXT (R122). -/
inductive WSize where
  | word
  | dword
deriving DecidableEq, Repr

/-- `W` of R10: the operand width in bits. -/
@[reducible] def Size.bits : Size → Nat
  | .byte => 8
  | .word => 16
  | .dword => 32

/-- The operand size of a byte or word instruction. -/
@[reducible] def NSize.size : NSize → Size
  | .byte => .byte
  | .word => .word

/-- The operand size of a word or dword instruction. -/
@[reducible] def WSize.size : WSize → Size
  | .word => .word
  | .dword => .dword

/-- The 16-bit register table (R94). -/
inductive Reg16 where
  | a | b | c | d | e | h | l
deriving DecidableEq, Repr

/-- The 32-bit address-register table (R95). -/
inductive Reg32 where
  | af | bc | de | hl | ix | iy | sp
deriving DecidableEq, Repr

/-- A register field `SSS`, `DDD` or `RRR` other than 111. Which register it names depends on the operand size
(R96): A or AF, B or BC, C or DE, D or HL, E or IX, H or IY, L or SP. -/
inductive RegField where
  | r0 | r1 | r2 | r3 | r4 | r5 | r6
deriving DecidableEq, Repr

/-- The register a field names for a byte or word operand (R94). -/
@[reducible] def RegField.reg16 : RegField → Reg16
  | .r0 => .a | .r1 => .b | .r2 => .c | .r3 => .d | .r4 => .e | .r5 => .h | .r6 => .l

/-- The register a field names for a dword operand (R95). -/
@[reducible] def RegField.reg32 : RegField → Reg32
  | .r0 => .af | .r1 => .bc | .r2 => .de | .r3 => .hl | .r4 => .ix | .r5 => .iy | .r6 => .sp

/-- The pairs of indirect addressing, which take no displacement (R108). -/
inductive Pair where
  | af | bc | de | hl
deriving DecidableEq, Repr

/-- The registers of indexed addressing, which always take a displacement (R108). -/
inductive IdxReg where
  | ix | iy | sp
deriving DecidableEq, Repr

/-- A memory operand (R108): indirect, indexed or direct. -/
inductive Addr where
  | ind (p : Pair)
  | idx (x : IdxReg) (dd : Word)
  | direct (nnnn : Dword)
deriving DecidableEq, Repr

/-- A memory operand of the instructions that list no direct form (R107, R112). -/
inductive IndAddr where
  | ind (p : Pair)
  | idx (x : IdxReg) (dd : Word)
deriving DecidableEq, Repr

/-- Such an operand among all memory operands. -/
@[reducible] def IndAddr.addr : IndAddr → Addr
  | .ind p => .ind p
  | .idx x dd => .idx x dd

/-- A source operand: a register, or an immediate of the operand's width (R104, R120), held in 32 bits. -/
inductive Src where
  | reg (r : RegField)
  | imm (v : Dword)
deriving DecidableEq, Repr

/-- The bit number or count of the bit, shift and rotate instructions: a register, or one byte (R120). -/
inductive Count where
  | reg (r : RegField)
  | imm (n : Byte)
deriving DecidableEq, Repr

/-- The port of IN and OUT: a 16-bit register, or an 8-bit port number (R104). -/
inductive Port where
  | reg (r : Reg16)
  | imm (n : Byte)
deriving DecidableEq, Repr

/-- The register side and the direction of a format RM instruction (R101, R107): with d = 0 memory is the
destination and the source a register or an immediate; with d = 1 the register is the destination. -/
inductive MemForm where
  | toMem (src : Src)
  | toReg (dst : RegField)
deriving DecidableEq, Repr

/-- The same for the bit, shift and rotate instructions (R236): with d = 0 the memory cell is the operand; with d = 1
the register is the operand and the memory cell supplies the bit number or count. -/
inductive CountForm where
  | onMem (n : Count)
  | onReg (dst : RegField)
deriving DecidableEq, Repr

/-- The target of JP and CALL (R115). -/
inductive Target where
  | reg (r : Reg32)
  | direct (nnnn : Dword)
deriving DecidableEq, Repr

/-- The displacement of JR s8 and CALLR s8 (R115). -/
inductive Disp8 where
  | reg (r : Reg16)
  | imm (e : Byte)
deriving DecidableEq, Repr

/-- The displacement of JR s16 and CALLR s16 (R115). -/
inductive Disp16 where
  | reg (r : Reg16)
  | imm (e : Word)
deriving DecidableEq, Repr

/-- The condition field (R99). -/
inductive Cond where
  | nz | z | nc | c | po | pe | p | m | always
deriving DecidableEq, Repr

/-- Why bytes spell no instruction (R131); `truncated` says that there were too few bytes to tell. -/
inductive Illegal where
  /-- Group 11 with sub-group 00, 01 or 10, or a single-byte opcode 0011 to 1111 (R131 (1)). -/
  | unassignedSingleByte
  /-- An unassigned opcode or function (R131 (2)). -/
  | unassignedOpcode
  /-- `ss` = 11, or a size the instruction does not list (R131 (3)). -/
  | size
  /-- A condition code 1000 to 1110 (R131 (4)). -/
  | condition
  /-- Register field 111 where no immediate is allowed (R131 (5), (6)). -/
  | immediateOperand
  /-- Direct addressing with an instruction that does not list it (R131 (7)). -/
  | directOperand
  /-- `AAA` other than 000 in RET, RETI, RETN (R131 (8)). -/
  | returnField
  /-- The byte list ends inside the instruction; a fetch never meets this. -/
  | truncated
deriving DecidableEq, Repr

/-- The instructions: the rows of `opcode_table.json` in its order. -/
inductive Instr where
  -- format R, register-register (R102, R103)
  | ldR (ss : Size) (d : RegField) (src : Src)
  | exR (ss : Size) (d : RegField) (r : RegField)
  | inR (ss : NSize) (d : RegField) (port : Port)
  | outR (ss : NSize) (port : Port) (r : RegField)
  | addR (ss : Size) (d : RegField) (src : Src)
  | adcR (ss : Size) (d : RegField) (src : Src)
  | subR (ss : Size) (d : RegField) (src : Src)
  | sbcR (ss : Size) (d : RegField) (src : Src)
  | cpR (ss : Size) (d : RegField) (src : Src)
  | andR (ss : Size) (d : RegField) (src : Src)
  | orR (ss : Size) (d : RegField) (src : Src)
  | xorR (ss : Size) (d : RegField) (src : Src)
  | tstR (ss : Size) (d : RegField) (src : Src)
  | bitR (ss : Size) (d : RegField) (n : Count)
  | setR (ss : Size) (d : RegField) (n : Count)
  | resR (ss : Size) (d : RegField) (n : Count)
  | rlcR (ss : Size) (d : RegField) (n : Count)
  | rrcR (ss : Size) (d : RegField) (n : Count)
  | rlR (ss : Size) (d : RegField) (n : Count)
  | rrR (ss : Size) (d : RegField) (n : Count)
  | slaR (ss : Size) (d : RegField) (n : Count)
  | sraR (ss : Size) (d : RegField) (n : Count)
  | srlR (ss : Size) (d : RegField) (n : Count)
  -- format RM, register-memory (R105, R106)
  | ldM (ss : Size) (ea : Addr) (f : MemForm)
  | exM (ss : Size) (ea : IndAddr) (r : RegField) (d : Bool)
  | addM (ss : Size) (ea : Addr) (f : MemForm)
  | adcM (ss : Size) (ea : Addr) (f : MemForm)
  | subM (ss : Size) (ea : Addr) (f : MemForm)
  | sbcM (ss : Size) (ea : Addr) (f : MemForm)
  | cpM (ss : Size) (ea : Addr) (f : MemForm)
  | andM (ss : Size) (ea : Addr) (f : MemForm)
  | orM (ss : Size) (ea : Addr) (f : MemForm)
  | xorM (ss : Size) (ea : Addr) (f : MemForm)
  | tstM (ss : Size) (ea : Addr) (f : MemForm)
  | bitM (ss : Size) (ea : Addr) (f : CountForm)
  | setM (ss : Size) (ea : Addr) (f : CountForm)
  | resM (ss : Size) (ea : Addr) (f : CountForm)
  | rlcM (ss : Size) (ea : Addr) (f : CountForm)
  | rrcM (ss : Size) (ea : Addr) (f : CountForm)
  | rlM (ss : Size) (ea : Addr) (f : CountForm)
  | rrM (ss : Size) (ea : Addr) (f : CountForm)
  | slaM (ss : Size) (ea : Addr) (f : CountForm)
  | sraM (ss : Size) (ea : Addr) (f : CountForm)
  | srlM (ss : Size) (ea : Addr) (f : CountForm)
  -- format UR, unary register (R109, R110)
  | exAlt (ss : WSize) (r : RegField)
  | exhR (ss : Size) (r : RegField)
  | push (ss : Size) (src : Src)
  | pop (r : Reg32)
  | incR (ss : Size) (r : RegField)
  | decR (ss : Size) (r : RegField)
  | negR (ss : Size) (r : RegField)
  | extR (ss : WSize) (r : RegField)
  | mltR (ss : Size) (r : RegField)
  | divR (ss : Size) (r : RegField)
  | sdivR (ss : Size) (r : RegField)
  | cplR (ss : Size) (r : RegField)
  -- format UM, unary memory (R111, R112)
  | exhM (ss : Size) (ea : IndAddr)
  | incM (ss : Size) (ea : Addr)
  | decM (ss : Size) (ea : Addr)
  | negM (ss : Size) (ea : Addr)
  | extM (ss : WSize) (ea : IndAddr)
  | mltM (ss : Size) (ea : IndAddr)
  | divM (ss : Size) (ea : IndAddr)
  | sdivM (ss : Size) (ea : IndAddr)
  | cplM (ss : Size) (ea : Addr)
  -- format B, branch (R113, R114)
  | jp (cc : Cond) (t : Target)
  | jrS8 (cc : Cond) (e : Disp8)
  | jrS16 (cc : Cond) (e : Disp16)
  | call (cc : Cond) (t : Target)
  | callrS8 (cc : Cond) (e : Disp8)
  | callrS16 (cc : Cond) (e : Disp16)
  | ret (cc : Cond)
  | reti (cc : Cond)
  | retn (cc : Cond)
  -- format N, block instructions, byte form (R116, R117, R170)
  | ldiB | ldirB | lddB | lddrB | cpiB | cpirB | cpdB | cpdrB | tsiB | tsirB | tsdB | tsdrB
  | iniB | inirB | indB | indrB | outiB | otirB | outdB | otdrB
  -- format N, block instructions, word form
  | ldiW | ldirW | lddW | lddrW | cpiW | cpirW | cpdW | cpdrW | tsiW | tsirW | tsdW | tsdrW
  | iniW | inirW | indW | indrW | outiW | otirW | outdW | otdrW
  -- format N, the rest
  | exx | exi
  | rst (n : Byte)
  | scf | ccf
  | daa | rld | rrd
  | halt | ei | di | im1 | im2
  | ldI (nn : Word)
  | ldRA | ldAR
  -- single byte (R119)
  | nop
  | djnz (e : Byte)
  | janz (e : Byte)
deriving DecidableEq, Repr

end Sys2Proof
end

