-- ==== Sys2Proof/WellFormed.lean ====
section
/-! DEFINITION. What the typing of `Instr` leaves open: an immediate has the operand's width (R120), and MLT, DIV,
SDIV take the two sizes that the parameter `MLTDIV_SS` lists (R122, R123). -/

namespace Sys2Proof

/-- An immediate of operand size `ss` uses only the operand's bits (R120). -/
def Size.immFits (ss : Size) (v : Dword) : Bool := v.toNat < 2 ^ ss.bits

/-- A source operand fits its size. -/
def Src.fits (ss : Size) : Src → Bool
  | .reg _ => true
  | .imm v => ss.immFits v

/-- The source of a memory form fits its size. -/
def MemForm.fits (ss : Size) : MemForm → Bool
  | .toMem src => src.fits ss
  | .toReg _ => true

/-- The sizes MLT, DIV and SDIV list: byte and word under `half`, word and dword under `target` (R122). -/
def Size.mltDivLegal : Config.MltDivSS → Size → Bool
  | .half, .byte => true
  | .half, .word => true
  | .half, .dword => false
  | .target, .byte => false
  | .target, .word => true
  | .target, .dword => true

/-- An instruction the encoding can hold, under the parameter `MLTDIV_SS`. -/
def Instr.wf (m : Config.MltDivSS) : Instr → Bool
  | .ldR ss _ src | .addR ss _ src | .adcR ss _ src | .subR ss _ src | .sbcR ss _ src | .cpR ss _ src
  | .andR ss _ src | .orR ss _ src | .xorR ss _ src | .tstR ss _ src | .push ss src => src.fits ss
  | .ldM ss _ f | .addM ss _ f | .adcM ss _ f | .subM ss _ f | .sbcM ss _ f | .cpM ss _ f
  | .andM ss _ f | .orM ss _ f | .xorM ss _ f | .tstM ss _ f => f.fits ss
  | .mltR ss _ | .divR ss _ | .sdivR ss _ | .mltM ss _ | .divM ss _ | .sdivM ss _ => ss.mltDivLegal m
  | .exR .. | .inR .. | .outR .. | .bitR .. | .setR .. | .resR .. | .rlcR .. | .rrcR .. | .rlR .. | .rrR ..
  | .slaR .. | .sraR .. | .srlR .. | .exM .. | .bitM .. | .setM .. | .resM .. | .rlcM .. | .rrcM .. | .rlM ..
  | .rrM .. | .slaM .. | .sraM .. | .srlM .. | .exAlt .. | .exhR .. | .pop .. | .incR .. | .decR .. | .negR ..
  | .extR .. | .cplR .. | .exhM .. | .incM .. | .decM .. | .negM .. | .extM .. | .cplM .. | .jp .. | .jrS8 ..
  | .jrS16 .. | .call .. | .callrS8 .. | .callrS16 .. | .ret .. | .reti .. | .retn .. => true
  | .ldiB | .ldirB | .lddB | .lddrB | .cpiB | .cpirB | .cpdB | .cpdrB | .tsiB | .tsirB | .tsdB | .tsdrB
  | .iniB | .inirB | .indB | .indrB | .outiB | .otirB | .outdB | .otdrB
  | .ldiW | .ldirW | .lddW | .lddrW | .cpiW | .cpirW | .cpdW | .cpdrW | .tsiW | .tsirW | .tsdW | .tsdrW
  | .iniW | .inirW | .indW | .indrW | .outiW | .otirW | .outdW | .otdrW => true
  | .exx | .exi | .rst _ | .scf | .ccf | .daa | .rld | .rrd | .halt | .ei | .di | .im1 | .im2 | .ldI _ | .ldRA
  | .ldAR | .nop | .djnz _ | .janz _ => true

end Sys2Proof
end

