-- ==== Sys2Proof/Decode.lean ====
section
/-! DEFINITION. The decoder, total on any bytes and rejecting by name (`Illegal`), and after it the encoder; both
written from the encoding tables of `30_encoding.md` (R90 to R123). Bytes stand in memory order, byte0 first (R65). -/

namespace Sys2Proof

/-! ## Decoding -/

/-- Bits `lo + len - 1` to `lo` of a byte, as a number. -/
def bitField (b : Byte) (lo len : Nat) : Nat := (b.toNat >>> lo) % 2 ^ len

/-- The size field (R98). -/
def decodeSize : Nat → Except Illegal Size
  | 0 => .ok .byte
  | 1 => .ok .word
  | 2 => .ok .dword
  | _ => .error .size

/-- A size field that must name byte or word (R122). -/
def decodeNSize : Nat → Except Illegal NSize
  | 0 => .ok .byte
  | 1 => .ok .word
  | _ => .error .size

/-- A size field that must name word or dword (R122). -/
def decodeWSize : Nat → Except Illegal WSize
  | 1 => .ok .word
  | 2 => .ok .dword
  | _ => .error .size

/-- A size field of MLT, DIV, SDIV under the parameter `MLTDIV_SS` (R123). -/
def decodeMltDivSize (m : Config.MltDivSS) (n : Nat) : Except Illegal Size :=
  match decodeSize n with
  | .ok ss => if ss.mltDivLegal m then .ok ss else .error .size
  | .error e => .error e

/-- A register field; 111 is no register (R94, R97). -/
def decodeField : Nat → Option RegField
  | 0 => some .r0
  | 1 => some .r1
  | 2 => some .r2
  | 3 => some .r3
  | 4 => some .r4
  | 5 => some .r5
  | 6 => some .r6
  | _ => none

/-- A register field that must name a register (R131 (5), (6)). -/
def decodeReg (n : Nat) : Except Illegal RegField :=
  match decodeField n with
  | some r => .ok r
  | none => .error .immediateOperand

/-- The condition field (R99). -/
def decodeCond : Nat → Except Illegal Cond
  | 0 => .ok .nz
  | 1 => .ok .z
  | 2 => .ok .nc
  | 3 => .ok .c
  | 4 => .ok .po
  | 5 => .ok .pe
  | 6 => .ok .p
  | 7 => .ok .m
  | 15 => .ok .always
  | _ => .error .condition

/-- One trailing byte (R100, R120). -/
def take8 : List Byte → Except Illegal (Byte × List Byte)
  | b0 :: tl => .ok (b0, tl)
  | _ => .error .truncated

/-- Two trailing bytes, the low one first (R64, R100). -/
def take16 : List Byte → Except Illegal (Word × List Byte)
  | b0 :: b1 :: tl => .ok (b1 ++ b0, tl)
  | _ => .error .truncated

/-- Four trailing bytes, the low one first (R64, R100). -/
def take32 : List Byte → Except Illegal (Dword × List Byte)
  | b0 :: b1 :: b2 :: b3 :: tl => .ok (b3 ++ b2 ++ b1 ++ b0, tl)
  | _ => .error .truncated

/-- A trailing immediate of the operand's width (R120). -/
def takeImm : Size → List Byte → Except Illegal (Dword × List Byte)
  | .byte, tl => do
    let (v, tl) ← take8 tl
    return (v.setWidth 32, tl)
  | .word, tl => do
    let (v, tl) ← take16 tl
    return (v.setWidth 32, tl)
  | .dword, tl => take32 tl

/-- The memory operand of an `AAA` field, with its displacement or direct address (R108). -/
def decodeAddr (aaa : Nat) (tl : List Byte) : Except Illegal (Addr × List Byte) :=
  match aaa with
  | 0 => .ok (.ind .af, tl)
  | 1 => .ok (.ind .bc, tl)
  | 2 => .ok (.ind .de, tl)
  | 3 => .ok (.ind .hl, tl)
  | 4 => do
    let (dd, tl) ← take16 tl
    return (.idx .ix dd, tl)
  | 5 => do
    let (dd, tl) ← take16 tl
    return (.idx .iy dd, tl)
  | 6 => do
    let (dd, tl) ← take16 tl
    return (.idx .sp dd, tl)
  | _ => do
    let (nnnn, tl) ← take32 tl
    return (.direct nnnn, tl)

/-- The memory operand of an instruction that lists no direct form (R131 (7)). -/
def decodeIndAddr (aaa : Nat) (tl : List Byte) : Except Illegal (IndAddr × List Byte) := do
  match ← decodeAddr aaa tl with
  | (.ind p, tl) => return (.ind p, tl)
  | (.idx x dd, tl) => return (.idx x dd, tl)
  | (.direct _, _) => .error .directOperand

/-- A source register or an immediate of the operand's width (R104). -/
def decodeSrc (ss : Size) (n : Nat) (tl : List Byte) : Except Illegal (Src × List Byte) :=
  match decodeField n with
  | some r => .ok (.reg r, tl)
  | none => do
    let (v, tl) ← takeImm ss tl
    return (.imm v, tl)

/-- A bit number or count: a register or one byte (R120). -/
def decodeCount (n : Nat) (tl : List Byte) : Except Illegal (Count × List Byte) :=
  match decodeField n with
  | some r => .ok (.reg r, tl)
  | none => do
    let (v, tl) ← take8 tl
    return (.imm v, tl)

/-- A port: a 16-bit register or one byte (R104). -/
def decodePort (n : Nat) (tl : List Byte) : Except Illegal (Port × List Byte) :=
  match decodeField n with
  | some r => .ok (.reg r.reg16, tl)
  | none => do
    let (v, tl) ← take8 tl
    return (.imm v, tl)

/-- The register side of a format RM instruction (R107): 111 with d = 1 is illegal (R131 (6)). -/
def decodeMemForm (ss : Size) (d : Bool) (rrr : Nat) (tl : List Byte) : Except Illegal (MemForm × List Byte) :=
  match d with
  | false => do
    let (src, tl) ← decodeSrc ss rrr tl
    return (.toMem src, tl)
  | true => do
    let r ← decodeReg rrr
    return (.toReg r, tl)

/-- The same for the bit, shift and rotate instructions (R236, R240). -/
def decodeCountForm (d : Bool) (rrr : Nat) (tl : List Byte) : Except Illegal (CountForm × List Byte) :=
  match d with
  | false => do
    let (n, tl) ← decodeCount rrr tl
    return (.onMem n, tl)
  | true => do
    let r ← decodeReg rrr
    return (.onReg r, tl)

/-- The target of JP and CALL (R115). -/
def decodeTarget (aaa : Nat) (tl : List Byte) : Except Illegal (Target × List Byte) :=
  match decodeField aaa with
  | some r => .ok (.reg r.reg32, tl)
  | none => do
    let (nnnn, tl) ← take32 tl
    return (.direct nnnn, tl)

/-- The displacement of JR s8 and CALLR s8 (R115). -/
def decodeDisp8 (aaa : Nat) (tl : List Byte) : Except Illegal (Disp8 × List Byte) :=
  match decodeField aaa with
  | some r => .ok (.reg r.reg16, tl)
  | none => do
    let (e, tl) ← take8 tl
    return (.imm e, tl)

/-- The displacement of JR s16 and CALLR s16 (R115). -/
def decodeDisp16 (aaa : Nat) (tl : List Byte) : Except Illegal (Disp16 × List Byte) :=
  match decodeField aaa with
  | some r => .ok (.reg r.reg16, tl)
  | none => do
    let (e, tl) ← take16 tl
    return (.imm e, tl)

/-- `AAA` of RET, RETI, RETN is 000 (R115). -/
def decodeReturn (f : Cond → Instr) (aaa : Nat) (cc : Cond) (tl : List Byte) : Except Illegal (Instr × List Byte) :=
  if aaa = 0 then .ok (f cc, tl) else .error .returnField

/-- Format R, an instruction whose immediate has the operand's width (R104). -/
def decodeRSrc (f : Size → RegField → Src → Instr) (b1 : Byte) (tl : List Byte) :
    Except Illegal (Instr × List Byte) := do
  let ss ← decodeSize (bitField b1 0 2)
  let d ← decodeReg (bitField b1 2 3)
  let (src, tl) ← decodeSrc ss (bitField b1 5 3) tl
  return (f ss d src, tl)

/-- Format R, a bit, shift or rotate instruction (R104, R120). -/
def decodeRCount (f : Size → RegField → Count → Instr) (b1 : Byte) (tl : List Byte) :
    Except Illegal (Instr × List Byte) := do
  let ss ← decodeSize (bitField b1 0 2)
  let d ← decodeReg (bitField b1 2 3)
  let (n, tl) ← decodeCount (bitField b1 5 3) tl
  return (f ss d n, tl)

/-- Format RM, an instruction whose immediate has the operand's width (R107). -/
def decodeMSrc (f : Size → Addr → MemForm → Instr) (d : Bool) (b1 : Byte) (tl : List Byte) :
    Except Illegal (Instr × List Byte) := do
  let ss ← decodeSize (bitField b1 0 2)
  let (ea, tl) ← decodeAddr (bitField b1 5 3) tl
  let (form, tl) ← decodeMemForm ss d (bitField b1 2 3) tl
  return (f ss ea form, tl)

/-- Format RM, a bit, shift or rotate instruction (R107, R120). -/
def decodeMCount (f : Size → Addr → CountForm → Instr) (d : Bool) (b1 : Byte) (tl : List Byte) :
    Except Illegal (Instr × List Byte) := do
  let ss ← decodeSize (bitField b1 0 2)
  let (ea, tl) ← decodeAddr (bitField b1 5 3) tl
  let (form, tl) ← decodeCountForm d (bitField b1 2 3) tl
  return (f ss ea form, tl)

/-- Format R by its opcode, bits 7 to 2 of byte0 (R103). -/
def decodeR (op : Nat) (b1 : Byte) (tl : List Byte) : Except Illegal (Instr × List Byte) :=
  match op with
  | 0 => decodeRSrc .ldR b1 tl
  | 1 => do
    let ss ← decodeSize (bitField b1 0 2)
    let d ← decodeReg (bitField b1 2 3)
    let r ← decodeReg (bitField b1 5 3)
    return (.exR ss d r, tl)
  | 2 => do
    let ss ← decodeNSize (bitField b1 0 2)
    let d ← decodeReg (bitField b1 2 3)
    let (port, tl) ← decodePort (bitField b1 5 3) tl
    return (.inR ss d port, tl)
  | 3 => do
    let ss ← decodeNSize (bitField b1 0 2)
    let r ← decodeReg (bitField b1 5 3)
    let (port, tl) ← decodePort (bitField b1 2 3) tl
    return (.outR ss port r, tl)
  | 4 => decodeRSrc .addR b1 tl
  | 5 => decodeRSrc .adcR b1 tl
  | 6 => decodeRSrc .subR b1 tl
  | 7 => decodeRSrc .sbcR b1 tl
  | 8 => decodeRSrc .cpR b1 tl
  | 9 => decodeRSrc .andR b1 tl
  | 10 => decodeRSrc .orR b1 tl
  | 11 => decodeRSrc .xorR b1 tl
  | 12 => decodeRSrc .tstR b1 tl
  | 13 => decodeRCount .bitR b1 tl
  | 14 => decodeRCount .setR b1 tl
  | 15 => decodeRCount .resR b1 tl
  | 16 => decodeRCount .rlcR b1 tl
  | 17 => decodeRCount .rrcR b1 tl
  | 18 => decodeRCount .rlR b1 tl
  | 19 => decodeRCount .rrR b1 tl
  | 20 => decodeRCount .slaR b1 tl
  | 21 => decodeRCount .sraR b1 tl
  | 22 => decodeRCount .srlR b1 tl
  | _ => .error .unassignedOpcode

/-- Format RM by its opcode, bits 6 to 2 of byte0, and its direction, bit 7 (R106). -/
def decodeRM (op : Nat) (d : Bool) (b1 : Byte) (tl : List Byte) : Except Illegal (Instr × List Byte) :=
  match op with
  | 0 => decodeMSrc .ldM d b1 tl
  | 1 => do
    let ss ← decodeSize (bitField b1 0 2)
    let r ← decodeReg (bitField b1 2 3)
    let (ea, tl) ← decodeIndAddr (bitField b1 5 3) tl
    return (.exM ss ea r d, tl)
  | 4 => decodeMSrc .addM d b1 tl
  | 5 => decodeMSrc .adcM d b1 tl
  | 6 => decodeMSrc .subM d b1 tl
  | 7 => decodeMSrc .sbcM d b1 tl
  | 8 => decodeMSrc .cpM d b1 tl
  | 9 => decodeMSrc .andM d b1 tl
  | 10 => decodeMSrc .orM d b1 tl
  | 11 => decodeMSrc .xorM d b1 tl
  | 12 => decodeMSrc .tstM d b1 tl
  | 13 => decodeMCount .bitM d b1 tl
  | 14 => decodeMCount .setM d b1 tl
  | 15 => decodeMCount .resM d b1 tl
  | 16 => decodeMCount .rlcM d b1 tl
  | 17 => decodeMCount .rrcM d b1 tl
  | 18 => decodeMCount .rlM d b1 tl
  | 19 => decodeMCount .rrM d b1 tl
  | 20 => decodeMCount .slaM d b1 tl
  | 21 => decodeMCount .sraM d b1 tl
  | 22 => decodeMCount .srlM d b1 tl
  | _ => .error .unassignedOpcode

/-- A unary register instruction with one of the three sizes (R110). -/
def decodeURSized (f : Size → RegField → Instr) (b1 : Byte) (tl : List Byte) : Except Illegal (Instr × List Byte) := do
  let ss ← decodeSize (bitField b1 0 2)
  let r ← decodeReg (bitField b1 2 3)
  return (f ss r, tl)

/-- A unary register instruction of word or dword size (R122). -/
def decodeURWide (f : WSize → RegField → Instr) (b1 : Byte) (tl : List Byte) : Except Illegal (Instr × List Byte) := do
  let ss ← decodeWSize (bitField b1 0 2)
  let r ← decodeReg (bitField b1 2 3)
  return (f ss r, tl)

/-- MLT, DIV or SDIV of a register (R123). -/
def decodeURMltDiv (m : Config.MltDivSS) (f : Size → RegField → Instr) (b1 : Byte) (tl : List Byte) :
    Except Illegal (Instr × List Byte) := do
  let ss ← decodeMltDivSize m (bitField b1 0 2)
  let r ← decodeReg (bitField b1 2 3)
  return (f ss r, tl)

/-- Format UR by its opcode, bits 7 to 4 of byte0, and function, bits 7 to 5 of byte1 (R110). -/
def decodeUR (m : Config.MltDivSS) (op : Nat) (b1 : Byte) (tl : List Byte) : Except Illegal (Instr × List Byte) :=
  match op, bitField b1 5 3 with
  | 0, 0 => decodeURWide .exAlt b1 tl
  | 0, 1 => decodeURSized .exhR b1 tl
  | 0, 2 => do
    let ss ← decodeSize (bitField b1 0 2)
    let (src, tl) ← decodeSrc ss (bitField b1 2 3) tl
    return (.push ss src, tl)
  | 0, 3 =>
    if bitField b1 0 2 = 2 then do
      let r ← decodeReg (bitField b1 2 3)
      return (.pop r.reg32, tl)
    else .error .size
  | 0, 4 => decodeURSized .incR b1 tl
  | 0, 5 => decodeURSized .decR b1 tl
  | 0, 6 => decodeURSized .negR b1 tl
  | 0, 7 => decodeURWide .extR b1 tl
  | 1, 0 => decodeURMltDiv m .mltR b1 tl
  | 1, 1 => decodeURMltDiv m .divR b1 tl
  | 1, 2 => decodeURMltDiv m .sdivR b1 tl
  | 1, 3 => decodeURSized .cplR b1 tl
  | _, _ => .error .unassignedOpcode

/-- A unary memory instruction that lists every addressing mode (R112). -/
def decodeUMSized (f : Size → Addr → Instr) (b1 : Byte) (tl : List Byte) : Except Illegal (Instr × List Byte) := do
  let ss ← decodeSize (bitField b1 0 2)
  let (ea, tl) ← decodeAddr (bitField b1 5 3) tl
  return (f ss ea, tl)

/-- MLT, DIV or SDIV of a memory cell (R112, R123). -/
def decodeUMMltDiv (m : Config.MltDivSS) (f : Size → IndAddr → Instr) (b1 : Byte) (tl : List Byte) :
    Except Illegal (Instr × List Byte) := do
  let ss ← decodeMltDivSize m (bitField b1 0 2)
  let (ea, tl) ← decodeIndAddr (bitField b1 5 3) tl
  return (f ss ea, tl)

/-- Format UM by its opcode, bits 7 to 4 of byte0, and function, bits 4 to 2 of byte1 (R112). -/
def decodeUM (m : Config.MltDivSS) (op : Nat) (b1 : Byte) (tl : List Byte) : Except Illegal (Instr × List Byte) :=
  match op, bitField b1 2 3 with
  | 0, 1 => do
    let ss ← decodeSize (bitField b1 0 2)
    let (ea, tl) ← decodeIndAddr (bitField b1 5 3) tl
    return (.exhM ss ea, tl)
  | 0, 4 => decodeUMSized .incM b1 tl
  | 0, 5 => decodeUMSized .decM b1 tl
  | 0, 6 => decodeUMSized .negM b1 tl
  | 0, 7 => do
    let ss ← decodeWSize (bitField b1 0 2)
    let (ea, tl) ← decodeIndAddr (bitField b1 5 3) tl
    return (.extM ss ea, tl)
  | 1, 0 => decodeUMMltDiv m .mltM b1 tl
  | 1, 1 => decodeUMMltDiv m .divM b1 tl
  | 1, 2 => decodeUMMltDiv m .sdivM b1 tl
  | 1, 3 => decodeUMSized .cplM b1 tl
  | _, _ => .error .unassignedOpcode

/-- JP and CALL (R115). -/
def decodeBTarget (f : Cond → Target → Instr) (b1 : Byte) (tl : List Byte) : Except Illegal (Instr × List Byte) := do
  let cc ← decodeCond (bitField b1 1 4)
  let (t, tl) ← decodeTarget (bitField b1 5 3) tl
  return (f cc t, tl)

/-- JR s8 and CALLR s8 (R115). -/
def decodeBDisp8 (f : Cond → Disp8 → Instr) (b1 : Byte) (tl : List Byte) : Except Illegal (Instr × List Byte) := do
  let cc ← decodeCond (bitField b1 1 4)
  let (e, tl) ← decodeDisp8 (bitField b1 5 3) tl
  return (f cc e, tl)

/-- JR s16 and CALLR s16 (R115). -/
def decodeBDisp16 (f : Cond → Disp16 → Instr) (b1 : Byte) (tl : List Byte) : Except Illegal (Instr × List Byte) := do
  let cc ← decodeCond (bitField b1 1 4)
  let (e, tl) ← decodeDisp16 (bitField b1 5 3) tl
  return (f cc e, tl)

/-- RET, RETI and RETN (R115). -/
def decodeBReturn (f : Cond → Instr) (b1 : Byte) (tl : List Byte) : Except Illegal (Instr × List Byte) := do
  let cc ← decodeCond (bitField b1 1 4)
  decodeReturn f (bitField b1 5 3) cc tl

/-- Format B by its opcode: bits 7 to 4 of byte0, and bit 0 of byte1, which is 0 in every assigned one (R113, R114). -/
def decodeB (op : Nat) (b1 : Byte) (tl : List Byte) : Except Illegal (Instr × List Byte) :=
  match bitField b1 0 1, op with
  | 0, 0 => decodeBTarget .jp b1 tl
  | 0, 1 => decodeBDisp8 .jrS8 b1 tl
  | 0, 2 => decodeBDisp16 .jrS16 b1 tl
  | 0, 4 => decodeBTarget .call b1 tl
  | 0, 5 => decodeBDisp8 .callrS8 b1 tl
  | 0, 6 => decodeBDisp16 .callrS16 b1 tl
  | 0, 8 => decodeBReturn .ret b1 tl
  | 0, 9 => decodeBReturn .reti b1 tl
  | 0, 10 => decodeBReturn .retn b1 tl
  | _, _ => .error .unassignedOpcode

/-- The byte block operations in the order of their function codes (R117). -/
def byteBlock : List Instr :=
  [.ldiB, .ldirB, .lddB, .lddrB, .cpiB, .cpirB, .cpdB, .cpdrB, .tsiB, .tsirB, .tsdB, .tsdrB,
   .iniB, .inirB, .indB, .indrB, .outiB, .otirB, .outdB, .otdrB]

/-- The word block operations in the order of their function codes (R117). -/
def wordBlock : List Instr :=
  [.ldiW, .ldirW, .lddW, .lddrW, .cpiW, .cpirW, .cpdW, .cpdrW, .tsiW, .tsirW, .tsdW, .tsdrW,
   .iniW, .inirW, .indW, .indrW, .outiW, .otirW, .outdW, .otdrW]

/-- Format N by its opcode, bits 7 to 4 of byte0, and function, byte1 (R117, R118). -/
def decodeN (op : Nat) (b1 : Byte) (tl : List Byte) : Except Illegal (Instr × List Byte) :=
  match op, b1.toNat with
  | 0, fn =>
    match byteBlock[fn]? with
    | some i => .ok (i, tl)
    | none => .error .unassignedOpcode
  | 1, fn =>
    match wordBlock[fn]? with
    | some i => .ok (i, tl)
    | none => .error .unassignedOpcode
  | 4, 0 => .ok (.exx, tl)
  | 4, 1 => .ok (.exi, tl)
  | 5, 0 => do
    let (n, tl) ← take8 tl
    return (.rst n, tl)
  | 5, 1 => .ok (.scf, tl)
  | 5, 2 => .ok (.ccf, tl)
  | 6, 0 => .ok (.daa, tl)
  | 6, 1 => .ok (.rld, tl)
  | 6, 2 => .ok (.rrd, tl)
  | 8, 0 => .ok (.halt, tl)
  | 8, 1 => .ok (.ei, tl)
  | 8, 2 => .ok (.di, tl)
  | 8, 5 => .ok (.im1, tl)
  | 8, 6 => .ok (.im2, tl)
  | 8, 7 => do
    let (nn, tl) ← take16 tl
    return (.ldI nn, tl)
  | 8, 8 => .ok (.ldRA, tl)
  | 8, 9 => .ok (.ldAR, tl)
  | _, _ => .error .unassignedOpcode

/-- The single-byte format by bits 7 to 2 of the opcode byte: sub-group 11 and the opcode (R119). -/
def decodeSB (op : Nat) (tl : List Byte) : Except Illegal (Instr × List Byte) :=
  match op with
  | 3 => .ok (.nop, tl)
  | 7 => do
    let (e, tl) ← take8 tl
    return (.djnz e, tl)
  | 11 => do
    let (e, tl) ← take8 tl
    return (.janz e, tl)
  | _ => .error .unassignedSingleByte

/-- The formats that have a second byte, by group and sub-group (R92). -/
def decodeWord (m : Config.MltDivSS) (b0 b1 : Byte) (tl : List Byte) : Except Illegal (Instr × List Byte) :=
  match bitField b0 0 2, bitField b0 2 2 with
  | 0, _ => decodeR (bitField b0 2 6) b1 tl
  | 1, _ => decodeRM (bitField b0 2 5) (b0.getLsbD 7) b1 tl
  | _, 0 => decodeUR m (bitField b0 4 4) b1 tl
  | _, 1 => decodeUM m (bitField b0 4 4) b1 tl
  | _, 2 => decodeB (bitField b0 4 4) b1 tl
  | _, _ => decodeN (bitField b0 4 4) b1 tl

/-- The instruction at the front of a byte list, and the bytes after it (R90, R92). -/
def decode (m : Config.MltDivSS) : List Byte → Except Illegal (Instr × List Byte)
  | [] => .error .truncated
  | b0 :: tl =>
    if bitField b0 0 2 = 3 then decodeSB (bitField b0 2 6) tl
    else
      match tl with
      | [] => .error .truncated
      | b1 :: tl => decodeWord m b0 b1 tl

/-- The bytes in memory order of an instruction whose bits are `w` as `opcode_table.json` numbers them, up to the
longest instruction; the bits from `nbits` on are 0. -/
def tableBytes (nbits w : Nat) : List Byte :=
  (List.range 10).map fun k => BitVec.ofNat 8 ((w % 2 ^ nbits) >>> (8 * k))

/-- The instruction the decoder reads from the bits `w`, under the recommended `MLTDIV_SS`. -/
def decodeTableWord (nbits w : Nat) : Option Instr :=
  match decode Config.Params.recommended.mltDivSS (tableBytes nbits w) with
  | .ok (i, _) => some i
  | .error _ => none

/-! ## Encoding -/

/-- The code of a size (R98). -/
def Size.code : Size → Nat
  | .byte => 0
  | .word => 1
  | .dword => 2

/-- The code of a register field (R94, R95). -/
def RegField.code : RegField → Nat
  | .r0 => 0
  | .r1 => 1
  | .r2 => 2
  | .r3 => 3
  | .r4 => 4
  | .r5 => 5
  | .r6 => 6

/-- The code of a 16-bit register (R94). -/
def Reg16.code : Reg16 → Nat
  | .a => 0
  | .b => 1
  | .c => 2
  | .d => 3
  | .e => 4
  | .h => 5
  | .l => 6

/-- The code of an address register (R95). -/
def Reg32.code : Reg32 → Nat
  | .af => 0
  | .bc => 1
  | .de => 2
  | .hl => 3
  | .ix => 4
  | .iy => 5
  | .sp => 6

/-- The code of a condition (R99). -/
def Cond.code : Cond → Nat
  | .nz => 0
  | .z => 1
  | .nc => 2
  | .c => 3
  | .po => 4
  | .pe => 5
  | .p => 6
  | .m => 7
  | .always => 15

/-- The two bytes of a word, low byte first (R64). -/
def bytes16 (v : Word) : List Byte := [v.setWidth 8, v.extractLsb' 8 8]

/-- The four bytes of a dword, low byte first (R64). -/
def bytes32 (v : Dword) : List Byte :=
  [v.setWidth 8, v.extractLsb' 8 8, v.extractLsb' 16 8, v.extractLsb' 24 8]

/-- An immediate of the operand's width (R120). -/
def bytesImm : Size → Dword → List Byte
  | .byte, v => [v.setWidth 8]
  | .word, v => bytes16 (v.setWidth 16)
  | .dword, v => bytes32 v

/-- The `AAA` field of a memory operand (R95, R108). -/
def Addr.code : Addr → Nat
  | .ind .af => 0
  | .ind .bc => 1
  | .ind .de => 2
  | .ind .hl => 3
  | .idx .ix _ => 4
  | .idx .iy _ => 5
  | .idx .sp _ => 6
  | .direct _ => 7

/-- The displacement or direct address of a memory operand (R108). -/
def Addr.bytes : Addr → List Byte
  | .ind _ => []
  | .idx _ dd => bytes16 dd
  | .direct nnnn => bytes32 nnnn

/-- The register field of a source operand (R97). -/
def Src.code : Src → Nat
  | .reg r => r.code
  | .imm _ => 7

/-- The immediate of a source operand. -/
def Src.bytes (ss : Size) : Src → List Byte
  | .reg _ => []
  | .imm v => bytesImm ss v

/-- The register field of a bit number or count. -/
def Count.code : Count → Nat
  | .reg r => r.code
  | .imm _ => 7

/-- The immediate of a bit number or count. -/
def Count.bytes : Count → List Byte
  | .reg _ => []
  | .imm n => [n]

/-- The register field of a port. -/
def Port.code : Port → Nat
  | .reg r => r.code
  | .imm _ => 7

/-- The port number of a port. -/
def Port.bytes : Port → List Byte
  | .reg _ => []
  | .imm n => [n]

/-- The `AAA` field of a jump target. -/
def Target.code : Target → Nat
  | .reg r => r.code
  | .direct _ => 7

/-- The direct address of a jump target. -/
def Target.bytes : Target → List Byte
  | .reg _ => []
  | .direct nnnn => bytes32 nnnn

/-- The `AAA` field of an 8-bit displacement. -/
def Disp8.code : Disp8 → Nat
  | .reg r => r.code
  | .imm _ => 7

/-- The trailing byte of an 8-bit displacement. -/
def Disp8.bytes : Disp8 → List Byte
  | .reg _ => []
  | .imm e => [e]

/-- The `AAA` field of a 16-bit displacement. -/
def Disp16.code : Disp16 → Nat
  | .reg r => r.code
  | .imm _ => 7

/-- The trailing bytes of a 16-bit displacement. -/
def Disp16.bytes : Disp16 → List Byte
  | .reg _ => []
  | .imm e => bytes16 e

/-- Byte1 of formats R, RM, UR and UM: two 3-bit fields and the size (R102, R105, R109, R111). -/
def byte1 (hi lo : Nat) (ss : Size) : Byte := BitVec.ofNat 8 (hi <<< 5 ||| lo <<< 2 ||| ss.code)

/-- Format R (R102). -/
def encodeR (op sss ddd : Nat) (ss : Size) (tl : List Byte) : List Byte :=
  BitVec.ofNat 8 (op <<< 2) :: byte1 sss ddd ss :: tl

/-- Format RM (R105), with its displacement or direct address before the immediate (R100). -/
def encodeRM (op : Nat) (d : Bool) (ea : Addr) (rrr : Nat) (ss : Size) (tl : List Byte) : List Byte :=
  BitVec.ofNat 8 (d.toNat <<< 7 ||| op <<< 2 ||| 1) :: byte1 ea.code rrr ss :: (ea.bytes ++ tl)

/-- Format RM with a source of the operand's width (R107). -/
def encodeMSrc (op : Nat) (ss : Size) (ea : Addr) : MemForm → List Byte
  | .toMem src => encodeRM op false ea src.code ss (src.bytes ss)
  | .toReg r => encodeRM op true ea r.code ss []

/-- Format RM with a bit number or count (R236). -/
def encodeMCount (op : Nat) (ss : Size) (ea : Addr) : CountForm → List Byte
  | .onMem n => encodeRM op false ea n.code ss n.bytes
  | .onReg r => encodeRM op true ea r.code ss []

/-- Format UR (R109). -/
def encodeUR (op fn rrr : Nat) (ss : Size) (tl : List Byte) : List Byte :=
  BitVec.ofNat 8 (op <<< 4 ||| 0x02) :: byte1 fn rrr ss :: tl

/-- Format UM (R111). -/
def encodeUM (op fn : Nat) (ea : Addr) (ss : Size) : List Byte :=
  BitVec.ofNat 8 (op <<< 4 ||| 0x06) :: byte1 ea.code fn ss :: ea.bytes

/-- Format B (R113). -/
def encodeB (op aaa : Nat) (cc : Cond) (tl : List Byte) : List Byte :=
  BitVec.ofNat 8 (op <<< 4 ||| 0x0A) :: BitVec.ofNat 8 (aaa <<< 5 ||| cc.code <<< 1) :: tl

/-- Format N (R116). -/
def encodeN (op fn : Nat) (tl : List Byte) : List Byte :=
  BitVec.ofNat 8 (op <<< 4 ||| 0x0E) :: BitVec.ofNat 8 fn :: tl

/-- Format SB (R119). -/
def encodeSB (op : Nat) (tl : List Byte) : List Byte := BitVec.ofNat 8 (op <<< 4 ||| 0x0F) :: tl

/-- The bytes of an instruction in memory order. -/
def encode : Instr → List Byte
  | .ldR ss d src => encodeR 0 src.code d.code ss (src.bytes ss)
  | .exR ss d r => encodeR 1 r.code d.code ss []
  | .inR ss d port => encodeR 2 port.code d.code ss.size port.bytes
  | .outR ss port r => encodeR 3 r.code port.code ss.size port.bytes
  | .addR ss d src => encodeR 4 src.code d.code ss (src.bytes ss)
  | .adcR ss d src => encodeR 5 src.code d.code ss (src.bytes ss)
  | .subR ss d src => encodeR 6 src.code d.code ss (src.bytes ss)
  | .sbcR ss d src => encodeR 7 src.code d.code ss (src.bytes ss)
  | .cpR ss d src => encodeR 8 src.code d.code ss (src.bytes ss)
  | .andR ss d src => encodeR 9 src.code d.code ss (src.bytes ss)
  | .orR ss d src => encodeR 10 src.code d.code ss (src.bytes ss)
  | .xorR ss d src => encodeR 11 src.code d.code ss (src.bytes ss)
  | .tstR ss d src => encodeR 12 src.code d.code ss (src.bytes ss)
  | .bitR ss d n => encodeR 13 n.code d.code ss n.bytes
  | .setR ss d n => encodeR 14 n.code d.code ss n.bytes
  | .resR ss d n => encodeR 15 n.code d.code ss n.bytes
  | .rlcR ss d n => encodeR 16 n.code d.code ss n.bytes
  | .rrcR ss d n => encodeR 17 n.code d.code ss n.bytes
  | .rlR ss d n => encodeR 18 n.code d.code ss n.bytes
  | .rrR ss d n => encodeR 19 n.code d.code ss n.bytes
  | .slaR ss d n => encodeR 20 n.code d.code ss n.bytes
  | .sraR ss d n => encodeR 21 n.code d.code ss n.bytes
  | .srlR ss d n => encodeR 22 n.code d.code ss n.bytes
  | .ldM ss ea f => encodeMSrc 0 ss ea f
  | .exM ss ea r d => encodeRM 1 d ea.addr r.code ss []
  | .addM ss ea f => encodeMSrc 4 ss ea f
  | .adcM ss ea f => encodeMSrc 5 ss ea f
  | .subM ss ea f => encodeMSrc 6 ss ea f
  | .sbcM ss ea f => encodeMSrc 7 ss ea f
  | .cpM ss ea f => encodeMSrc 8 ss ea f
  | .andM ss ea f => encodeMSrc 9 ss ea f
  | .orM ss ea f => encodeMSrc 10 ss ea f
  | .xorM ss ea f => encodeMSrc 11 ss ea f
  | .tstM ss ea f => encodeMSrc 12 ss ea f
  | .bitM ss ea f => encodeMCount 13 ss ea f
  | .setM ss ea f => encodeMCount 14 ss ea f
  | .resM ss ea f => encodeMCount 15 ss ea f
  | .rlcM ss ea f => encodeMCount 16 ss ea f
  | .rrcM ss ea f => encodeMCount 17 ss ea f
  | .rlM ss ea f => encodeMCount 18 ss ea f
  | .rrM ss ea f => encodeMCount 19 ss ea f
  | .slaM ss ea f => encodeMCount 20 ss ea f
  | .sraM ss ea f => encodeMCount 21 ss ea f
  | .srlM ss ea f => encodeMCount 22 ss ea f
  | .exAlt ss r => encodeUR 0 0 r.code ss.size []
  | .exhR ss r => encodeUR 0 1 r.code ss []
  | .push ss src => encodeUR 0 2 src.code ss (src.bytes ss)
  | .pop r => encodeUR 0 3 r.code .dword []
  | .incR ss r => encodeUR 0 4 r.code ss []
  | .decR ss r => encodeUR 0 5 r.code ss []
  | .negR ss r => encodeUR 0 6 r.code ss []
  | .extR ss r => encodeUR 0 7 r.code ss.size []
  | .mltR ss r => encodeUR 1 0 r.code ss []
  | .divR ss r => encodeUR 1 1 r.code ss []
  | .sdivR ss r => encodeUR 1 2 r.code ss []
  | .cplR ss r => encodeUR 1 3 r.code ss []
  | .exhM ss ea => encodeUM 0 1 ea.addr ss
  | .incM ss ea => encodeUM 0 4 ea ss
  | .decM ss ea => encodeUM 0 5 ea ss
  | .negM ss ea => encodeUM 0 6 ea ss
  | .extM ss ea => encodeUM 0 7 ea.addr ss.size
  | .mltM ss ea => encodeUM 1 0 ea.addr ss
  | .divM ss ea => encodeUM 1 1 ea.addr ss
  | .sdivM ss ea => encodeUM 1 2 ea.addr ss
  | .cplM ss ea => encodeUM 1 3 ea ss
  | .jp cc t => encodeB 0 t.code cc t.bytes
  | .jrS8 cc e => encodeB 1 e.code cc e.bytes
  | .jrS16 cc e => encodeB 2 e.code cc e.bytes
  | .call cc t => encodeB 4 t.code cc t.bytes
  | .callrS8 cc e => encodeB 5 e.code cc e.bytes
  | .callrS16 cc e => encodeB 6 e.code cc e.bytes
  | .ret cc => encodeB 8 0 cc []
  | .reti cc => encodeB 9 0 cc []
  | .retn cc => encodeB 10 0 cc []
  | .ldiB => encodeN 0 0x00 []
  | .ldirB => encodeN 0 0x01 []
  | .lddB => encodeN 0 0x02 []
  | .lddrB => encodeN 0 0x03 []
  | .cpiB => encodeN 0 0x04 []
  | .cpirB => encodeN 0 0x05 []
  | .cpdB => encodeN 0 0x06 []
  | .cpdrB => encodeN 0 0x07 []
  | .tsiB => encodeN 0 0x08 []
  | .tsirB => encodeN 0 0x09 []
  | .tsdB => encodeN 0 0x0A []
  | .tsdrB => encodeN 0 0x0B []
  | .iniB => encodeN 0 0x0C []
  | .inirB => encodeN 0 0x0D []
  | .indB => encodeN 0 0x0E []
  | .indrB => encodeN 0 0x0F []
  | .outiB => encodeN 0 0x10 []
  | .otirB => encodeN 0 0x11 []
  | .outdB => encodeN 0 0x12 []
  | .otdrB => encodeN 0 0x13 []
  | .ldiW => encodeN 1 0x00 []
  | .ldirW => encodeN 1 0x01 []
  | .lddW => encodeN 1 0x02 []
  | .lddrW => encodeN 1 0x03 []
  | .cpiW => encodeN 1 0x04 []
  | .cpirW => encodeN 1 0x05 []
  | .cpdW => encodeN 1 0x06 []
  | .cpdrW => encodeN 1 0x07 []
  | .tsiW => encodeN 1 0x08 []
  | .tsirW => encodeN 1 0x09 []
  | .tsdW => encodeN 1 0x0A []
  | .tsdrW => encodeN 1 0x0B []
  | .iniW => encodeN 1 0x0C []
  | .inirW => encodeN 1 0x0D []
  | .indW => encodeN 1 0x0E []
  | .indrW => encodeN 1 0x0F []
  | .outiW => encodeN 1 0x10 []
  | .otirW => encodeN 1 0x11 []
  | .outdW => encodeN 1 0x12 []
  | .otdrW => encodeN 1 0x13 []
  | .exx => encodeN 4 0 []
  | .exi => encodeN 4 1 []
  | .rst n => encodeN 5 0 [n]
  | .scf => encodeN 5 1 []
  | .ccf => encodeN 5 2 []
  | .daa => encodeN 6 0 []
  | .rld => encodeN 6 1 []
  | .rrd => encodeN 6 2 []
  | .halt => encodeN 8 0 []
  | .ei => encodeN 8 1 []
  | .di => encodeN 8 2 []
  | .im1 => encodeN 8 5 []
  | .im2 => encodeN 8 6 []
  | .ldI nn => encodeN 8 7 (bytes16 nn)
  | .ldRA => encodeN 8 8 []
  | .ldAR => encodeN 8 9 []
  | .nop => encodeSB 0 []
  | .djnz e => encodeSB 1 [e]
  | .janz e => encodeSB 2 [e]

end Sys2Proof
end

