-- ==== Sys2Proof/Machine/Flags.lean ====
section
/-! DEFINITION. The flag register's six arithmetic flags and every flag computation of the spec: the helpers of
`00_scope.md` R15, multiply and divide (R214 to R216), DAA (R208), the shifts and rotates (R240 to R247).
Each is a pure function of the operands, at any width `w`. -/

namespace Sys2Proof.Machine

/-- The flags S, Z, H, P/V, N, C (R30). -/
structure Flags where
  s : Bool
  z : Bool
  h : Bool
  pv : Bool
  n : Bool
  c : Bool
deriving DecidableEq, Repr

/-- The bits of F that are not reserved: C, N, P/V, H, Z, S, IE (R31, D13). -/
def fMask : Word := 0x01D7#16

/-- The bits of F that hold the six flags. -/
def flagMask : Word := 0x00D7#16

/-- IE = IFF1 in F (R30). -/
def ieMask : Word := 0x0100#16

/-- The six flags of an F word (R30). -/
def flagsOf (f : Word) : Flags :=
  { s := f.getLsbD 7, z := f.getLsbD 6, h := f.getLsbD 4, pv := f.getLsbD 2, n := f.getLsbD 1, c := f.getLsbD 0 }

/-- A bit value at its place in F. -/
def flagBit (b : Bool) (mask : Word) : Word := if b then mask else 0#16

/-- An F word with its six flags replaced and every other bit kept (R31). -/
def withFlags (f : Word) (fl : Flags) : Word :=
  (f &&& ~~~flagMask) ||| flagBit fl.s 0x80#16 ||| flagBit fl.z 0x40#16 ||| flagBit fl.h 0x10#16
    ||| flagBit fl.pv 0x04#16 ||| flagBit fl.n 0x02#16 ||| flagBit fl.c 0x01#16

/-- Is the number of 1 bits among the low `k` bits odd? -/
def oddOnes (v : Nat) : Nat → Bool
  | 0 => false
  | k + 1 => v.testBit k != oddOnes v k

/-- `Parity_W` (R15): the number of 1 bits of the whole result is even. -/
def parityEven {w : Nat} (r : BitVec w) : Bool := !oddOnes r.toNat w

/-- An integer outside the range of `w`-bit two's complement (R15). -/
def signedOverflow (w : Nat) (e : Int) : Bool :=
  decide (e < -((2 ^ (w - 1) : Nat) : Int)) || decide (((2 ^ (w - 1) : Nat) : Int) ≤ e)

/-- `AddFlags_W` (R15): the sum and its flags. -/
def addFlags {w : Nat} (a b : BitVec w) (cin : Bool) : BitVec w × Flags :=
  let sum := a.toNat + b.toNat + cin.toNat
  let r := BitVec.ofNat w sum
  (r, { s := r.msb, z := r == 0#w
        h := decide (16 ≤ a.toNat % 16 + b.toNat % 16 + cin.toNat)
        pv := signedOverflow w (a.toInt + b.toInt + (cin.toNat : Int))
        n := false, c := decide (2 ^ w ≤ sum) })

/-- `SubFlags_W` (R15): the difference and its flags. -/
def subFlags {w : Nat} (a b : BitVec w) (bin : Bool) : BitVec w × Flags :=
  let r := a - b - BitVec.ofNat w bin.toNat
  (r, { s := r.msb, z := r == 0#w
        h := decide (a.toNat % 16 < b.toNat % 16 + bin.toNat)
        pv := signedOverflow w (a.toInt - b.toInt - (bin.toNat : Int))
        n := true, c := decide (a.toNat < b.toNat + bin.toNat) })

/-- `LogicFlags_W` (R15). -/
def logicFlags {w : Nat} (r : BitVec w) (h : Bool) : Flags :=
  { s := r.msb, z := r == 0#w, h := h, pv := parityEven r, n := false, c := false }

/-! ## Two-operand instructions: the destination, the source, the flags before; the result and the flags after -/

/-- ADD (R201). -/
def addOp {w : Nat} (_ : Flags) (a b : BitVec w) : BitVec w × Flags := addFlags a b false

/-- ADC (R202). -/
def adcOp {w : Nat} (f : Flags) (a b : BitVec w) : BitVec w × Flags := addFlags a b f.c

/-- SUB and CP (R203, R205). -/
def subOp {w : Nat} (_ : Flags) (a b : BitVec w) : BitVec w × Flags := subFlags a b false

/-- SBC (R204). -/
def sbcOp {w : Nat} (f : Flags) (a b : BitVec w) : BitVec w × Flags := subFlags a b f.c

/-- AND and TST (R231, R234). -/
def andOp {w : Nat} (_ : Flags) (a b : BitVec w) : BitVec w × Flags := (a &&& b, logicFlags (a &&& b) true)

/-- OR (R232). -/
def orOp {w : Nat} (_ : Flags) (a b : BitVec w) : BitVec w × Flags := (a ||| b, logicFlags (a ||| b) false)

/-- XOR (R233). -/
def xorOp {w : Nat} (_ : Flags) (a b : BitVec w) : BitVec w × Flags := (a ^^^ b, logicFlags (a ^^^ b) false)

/-! ## One-operand instructions -/

/-- INC (R206): C unchanged. -/
def incOp {w : Nat} (f : Flags) (v : BitVec w) : BitVec w × Flags :=
  let r := addFlags v 1#w false
  (r.1, { r.2 with c := f.c })

/-- DEC (R207): C unchanged. -/
def decOp {w : Nat} (f : Flags) (v : BitVec w) : BitVec w × Flags :=
  let r := subFlags v 1#w false
  (r.1, { r.2 with c := f.c })

/-- NEG (R209): 0 minus the operand. -/
def negOp {w : Nat} (_ : Flags) (v : BitVec w) : BitVec w × Flags := subFlags 0#w v false

/-- CPL (R235): C unchanged. -/
def cplOp {w : Nat} (f : Flags) (v : BitVec w) : BitVec w × Flags :=
  (~~~v, { s := (~~~v).msb, z := ~~~v == 0#w, h := true, pv := parityEven (~~~v), n := true, c := f.c })

/-- EXH (R146): the halves exchanged. -/
def swapHalves {w : Nat} (v : BitVec w) : BitVec w := v.rotateLeft (w / 2)

/-- EXT (R210): the lower half sign-extended. -/
def extHalf {w : Nat} (v : BitVec w) : BitVec w := (v.setWidth (w / 2)).signExtend w

/-- The lower half of a target (R212). -/
def lowHalf {w : Nat} (v : BitVec w) : BitVec (w / 2) := v.setWidth (w / 2)

/-- The upper half of a target (R212). -/
def highHalf {w : Nat} (v : BitVec w) : BitVec (w / 2) := v.extractLsb' (w / 2) (w / 2)

/-- A target from its halves. -/
def joinHalves (w : Nat) (hi lo : BitVec (w / 2)) : BitVec w := BitVec.ofNat w (hi.toNat <<< (w / 2) + lo.toNat)

/-- MLT (R214): H and N are undefined, so taken from the free flags `u`; S and Z unchanged. -/
def mltOp (w : Nat) (u f : Flags) (_ v : BitVec w) : BitVec w × Flags :=
  let p := (highHalf v).toNat * (lowHalf v).toNat
  let r := BitVec.ofNat w p
  (r, { f with h := u.h, n := u.n, pv := r.msb, c := decide (2 ^ (w / 2) ≤ p) })

/-- DIV (R215): every flag but P/V is undefined; so is the target, `t`, when the divisor is 0. -/
def divOp (w : Nat) (u _ : Flags) (t v : BitVec w) : BitVec w × Flags :=
  if lowHalf v = 0 then (t, { u with pv := true })
  else (joinHalves w (highHalf v % lowHalf v) (highHalf v / lowHalf v), { u with pv := false })

/-- SDIV (R216): truncating, the remainder with the sign of the dividend; the target is undefined when the divisor is
0 and when the quotient does not fit. -/
def sdivOp (w : Nat) (u _ : Flags) (t v : BitVec w) : BitVec w × Flags :=
  let a := (highHalf v).toInt
  let b := (lowHalf v).toInt
  if b = 0 then (t, { u with pv := true })
  else if a = -((2 ^ (w / 2 - 1) : Nat) : Int) ∧ b = -1 then (t, { u with pv := false })
  else (joinHalves w (BitVec.ofInt (w / 2) (a.tmod b)) (BitVec.ofInt (w / 2) (a.tdiv b)), { u with pv := false })

/-! ## BCD -/

/-- DAA on the low byte of A (R208, D40; the algorithm is PRESUMED by the spec from the Z80, log 27). -/
def daaOp (f : Flags) (a : Byte) : Byte × Flags :=
  let lowAdjust := f.h || decide (9 < a.toNat % 16)
  let highAdjust := f.c || decide (0x99 < a.toNat)
  let corr : Byte := (if lowAdjust then 0x06#8 else 0#8) ||| (if highAdjust then 0x60#8 else 0#8)
  let r := if f.n then a - corr else a + corr
  let h := if f.n then f.h && decide (a.toNat % 16 < 6) else decide (9 < a.toNat % 16)
  (r, { s := r.msb, z := r == 0#8, h := h, pv := parityEven r, n := f.n, c := highAdjust })

/-- The flags of RLD and RRD from the new low byte of A (R248, R249): C unchanged. -/
def digitFlags (f : Flags) (a : Byte) : Flags := { logicFlags a false with c := f.c }

/-! ## Shifts and rotates -/

/-- The seven shifts and rotates (R240). -/
inductive ShiftKind where
  | rlc | rrc | rl | rr | sla | sra | srl
deriving DecidableEq, Repr

/-- One position: the value and the carry after it, from the carry and the value before (R241 to R247). -/
def shiftOnce {w : Nat} (k : ShiftKind) (c : Bool) (v : BitVec w) : BitVec w × Bool :=
  match k with
  | .rlc => ((v <<< 1) ||| (BitVec.ofBool v.msb).setWidth w, v.msb)
  | .rrc => ((v >>> 1) ||| ((BitVec.ofBool (v.getLsbD 0)).setWidth w <<< (w - 1)), v.getLsbD 0)
  | .rl => ((v <<< 1) ||| (BitVec.ofBool c).setWidth w, v.msb)
  | .rr => ((v >>> 1) ||| ((BitVec.ofBool c).setWidth w <<< (w - 1)), v.getLsbD 0)
  | .sla => (v <<< 1, v.msb)
  | .sra => (v.sshiftRight 1, v.getLsbD 0)
  | .srl => (v >>> 1, v.getLsbD 0)

/-- R240's definition: `k` repetitions of the one-position step, none leaving the value and the carry. -/
def shiftRepeat {w : Nat} (kind : ShiftKind) : Nat → Bool → BitVec w → BitVec w × Bool
  | 0, c, v => (v, c)
  | k + 1, c, v => shiftRepeat kind k (shiftOnce kind c v).2 (shiftOnce kind c v).1

/-- The closed forms that R241 to R247 give beside the repetition; the machine runs these, so that a count from a
32-bit register can be evaluated (log 24). -/
def shiftMany {w : Nat} (kind : ShiftKind) (k : Nat) (c : Bool) (v : BitVec w) : BitVec w × Bool :=
  if k = 0 then (v, c)
  else
    match kind with
    | .rlc => (v.rotateLeft (k % w), (v.rotateLeft (k % w)).getLsbD 0)
    | .rrc => (v.rotateRight (k % w), (v.rotateRight (k % w)).msb)
    | .rl =>
      let x := (BitVec.cons c v).rotateLeft (k % (w + 1))
      (x.setWidth w, x.msb)
    | .rr =>
      let x := (BitVec.concat v c).rotateRight (k % (w + 1))
      (x.extractLsb' 1 w, x.getLsbD 0)
    | .sla => if k ≤ w then (v <<< k, v.getLsbD (w - k)) else (0#w, false)
    | .sra => if k < w then (v.sshiftRight k, v.getLsbD (k - 1)) else (v.sshiftRight (w - 1), v.msb)
    | .srl => if k ≤ w then (v >>> k, v.getLsbD (k - 1)) else (0#w, false)

/-- The value and the flags after a shift or rotate by `k` (R240). -/
def shiftOp {w : Nat} (kind : ShiftKind) (k : Nat) (f : Flags) (v : BitVec w) : BitVec w × Flags :=
  let r := shiftMany kind k f.c v
  (r.1, { logicFlags r.1 false with c := r.2 })

end Sys2Proof.Machine
end

