-- ==== Sys2Proof/Machine/Memory.lean ====
section
/-! DEFINITION. Memory as plain data: the listed bytes of the 2^24 physical addresses (`20_memory.md` R60, R61), in
one canonical form: addresses strictly rising, no listed byte equal to what an unlisted address reads as. -/

namespace Sys2Proof.Machine

/-- The physical address space: 24 bits (R60). -/
def physSize : Nat := 2 ^ 24

/-- What an unlisted address reads as. The manual gives memory no contents at reset (R42); the model reads 0x00
(DESIGN CHOICE, log 5; unsafe). -/
def unlistedByte : Byte := 0#8

/-- The listed bytes of memory. -/
structure Memory where
  cells : List Host.Cell
deriving DecidableEq, Repr

/-- The byte a list of cells gives an address. -/
def cellsRead : List Host.Cell → Nat → Byte
  | [], _ => unlistedByte
  | (b, v) :: tl, a => if a = b then v else cellsRead tl a

/-- Put a byte at an address, keeping the canonical form. -/
def cellsWrite : List Host.Cell → Nat → Byte → List Host.Cell
  | [], a, v => if v = unlistedByte then [] else [(a, v)]
  | (b, w) :: tl, a, v =>
    if a < b then (if v = unlistedByte then (b, w) :: tl else (a, v) :: (b, w) :: tl)
    else if a = b then (if v = unlistedByte then tl else (a, v) :: tl)
    else (b, w) :: cellsWrite tl a v

/-- The canonical form, from address `lo` on. -/
def cellsWf : Nat → List Host.Cell → Bool
  | _, [] => true
  | lo, (a, v) :: tl => decide (lo ≤ a) && decide (a < physSize) && decide (v ≠ unlistedByte) && cellsWf (a + 1) tl

/-- The byte at a physical address. -/
def Memory.read (m : Memory) (a : Nat) : Byte := cellsRead m.cells a

/-- Write the byte at a physical address. -/
def Memory.write (m : Memory) (a : Nat) (v : Byte) : Memory := ⟨cellsWrite m.cells a v⟩

/-- Memory is in its canonical form. -/
def Memory.wf (m : Memory) : Bool := cellsWf 0 m.cells

/-- The physical address of a logical one: bits 31 to 24 are ignored (R61, D2). -/
def phys (a : Dword) : Nat := a.toNat % physSize

end Sys2Proof.Machine
end

