-- ==== Sys2Proof/Machine/State.lean ====
section
/-! DEFINITION. The state of the machine: the record of `10_state.md` R43, the inputs and outputs of R19 and R70 as
lists, and the model's own counters; why a step stops; and the state after reset (R42, R360). -/

namespace Sys2Proof.Machine

/-- One set of the programmer's registers (R20, R22, R25, R26, R29): the primary set is one, the alternate set the
other. -/
structure Bank where
  a : Word
  b : Word
  c : Word
  d : Word
  e : Word
  h : Word
  l : Word
  f : Word
  ix : Dword
  iy : Dword
  sp : Dword
deriving DecidableEq, Repr

/-- What the pins show at one sampling point (R19, R322, R338): reset asserted, an NMI edge since the last one, the
level of INT, and the byte a device would supply in IM 2. The model's own (log 12). -/
structure Pins where
  reset : Bool
  nmi : Bool
  int : Bool
  vector : Byte
deriving DecidableEq, Repr

/-- No request on any pin. -/
def Pins.quiet : Pins := { reset := false, nmi := false, int := false, vector := 0#8 }

/-- What the machine does to devices, and what they answered (R70, R71). -/
inductive BusEvent where
  /-- An I/O read of one or two bytes from a port, and the value it gave. -/
  | ioRead (size : NSize) (port : Word) (value : Word)
  /-- An I/O write of one or two bytes to a port; a byte transfer has zeros above its byte. -/
  | ioWrite (size : NSize) (port : Word) (value : Word)
  /-- A byte written to a memory-mapped peripheral at a physical address. -/
  | memWrite (addr : Nat) (value : Byte)
deriving DecidableEq, Repr

/-- The machine. -/
@[ext]
structure State where
  /-- A to L, F, IX, IY, SP (R20, R25, R26, R29). -/
  reg : Bank
  /-- A' to L', F', IX', IY', SP' (R22). -/
  alt : Bank
  /-- The program counter (R27); while an instruction executes, `pcn` of R12. -/
  pc : Dword
  /-- The interrupt vector base, also called I (R35). -/
  ivb : BitVec 22
  /-- The refresh counter (R36). -/
  r : Word
  /-- IFF2 (R33); IFF1 is bit 8 of F. -/
  iff2 : Bool
  /-- The interrupt mode (R37). -/
  im : Config.IntMode
  /-- The one-instruction interrupt enable delay (R38, R323). -/
  inhibit : Bool
  /-- HALT has executed and nothing has ended the wait (R39). -/
  halted : Bool
  /-- A latched NMI edge (R40). -/
  nmiPending : Bool
  /-- The memory (R60, R43). -/
  mem : Memory
  /-- The model's own: the address of the current instruction, `pc0` of R12 (log 20). -/
  pc0 : Dword
  /-- The model's own: the parameters of R7 and the memory map of R71; no step changes them (log 1). -/
  cfg : Config.Params
  /-- The model's own: the number of steps begun, which the free values are functions of (log 7). -/
  tick : Nat
  /-- The model's own: what the pins show at the coming sampling points, the next first; none after its end (log 12). -/
  pins : List Pins
  /-- The model's own: the answers of devices to the coming I/O reads, the next first; free values after its end
  (log 11). -/
  ioIn : List Word
  /-- The model's own: the device events so far, in program order (log 13). -/
  trace : List BusEvent
deriving DecidableEq, Repr

/-- Why the machine stops with a fault. -/
inductive Fault where
  /-- The bytes at the program counter spell no instruction the manual defines (R130, R131, D29). Raised by fetch and
  decode, and by MLT, DIV, SDIV on a size their parameter does not list. Safe: the chip does something unknown. -/
  | illegal (why : Illegal)
deriving DecidableEq, Repr

/-- Why the model gives an instruction no meaning. -/
inductive Refusal where
  /-- The instruction has no meaning yet. Raised by no arm of `exec`. Safe. -/
  | notModelled (mnemonic : String)
  /-- AF is the written destination of an arithmetic, logical, shift or rotate instruction of dword size: not defined by
  the manual (R24, D37, U9). Raised by the meanings of those instructions. Safe. -/
  | afDestination
deriving DecidableEq, Repr

/-- A register set that holds zeros. -/
def Bank.zero : Bank :=
  { a := 0#16, b := 0#16, c := 0#16, d := 0#16, e := 0#16, h := 0#16, l := 0#16, f := 0#16,
    ix := 0#32, iy := 0#32, sp := 0#32 }

/-- The machine right after reset (R42, R360): SP, IVB, R, F, IFF2, inhibit, halted, nmi_pending at the values the rules
state, PC the dword at address 0 of a memory with nothing listed. The registers the rules leave unstated hold 0
(DESIGN CHOICE, log 2; unsafe), IM is 1 (DESIGN CHOICE, log 3; unsafe), the parameters are the recommended ones
(DESIGN CHOICE, log 1, log 6; unsafe), and no input is scripted (log 11, log 12). -/
def State.reset : State :=
  { reg := Bank.zero, alt := Bank.zero, pc := 0#32, ivb := 0#22, r := 0#16, iff2 := false,
    im := Config.Params.recommended.imReset, inhibit := false, halted := false, nmiPending := false, mem := ⟨[]⟩,
    pc0 := 0#32, cfg := Config.Params.recommended, tick := 0, pins := [], ioIn := [], trace := [] }

end Sys2Proof.Machine
end

