-- ==== Sys2Proof/Machine/Ops.lean ====
section
/-! DEFINITION. The named operations over registers, memory, I/O, the stack and the interrupt system, each with the
rule it follows. Every access of an instruction goes through one of them. -/

namespace Sys2Proof.Machine

/-- What an instruction's execution answers. -/
abbrev Result := Host.Outcome State Fault Refusal

/-! ## Registers -/

/-- A 16-bit register of one register set. -/
def Bank.get16 (g : Bank) : Reg16 → Word
  | .a => g.a
  | .b => g.b
  | .c => g.c
  | .d => g.d
  | .e => g.e
  | .h => g.h
  | .l => g.l

/-- `x[i]` (R9): a 16-bit primary register. -/
def State.get16 (s : State) (r : Reg16) : Word := s.reg.get16 r

/-- A register set with one 16-bit primary register replaced. -/
def Bank.set16 (g : Bank) (r : Reg16) (v : Word) : Bank :=
  match r with
  | .a => { g with a := v }
  | .b => { g with b := v }
  | .c => { g with c := v }
  | .d => { g with d := v }
  | .e => { g with e := v }
  | .h => { g with h := v }
  | .l => { g with l := v }

/-- Write a 16-bit primary register (R9). -/
def State.set16 (s : State) (r : Reg16) (v : Word) : State := { s with reg := s.reg.set16 r v }

/-- An address register of one register set (R9, R23): a pair is its first register above its second. -/
def Bank.get32 (g : Bank) : Reg32 → Dword
  | .af => g.a ++ g.f
  | .bc => g.b ++ g.c
  | .de => g.d ++ g.e
  | .hl => g.h ++ g.l
  | .ix => g.ix
  | .iy => g.iy
  | .sp => g.sp

/-- `xx[i]` (R9): an address register; AF reads F as it stands (R140 (c)). -/
def State.get32 (s : State) (r : Reg32) : Dword := s.reg.get32 r

/-- The high word of a dword. -/
def hiWord (v : Dword) : Word := v.extractLsb' 16 16

/-- The low word of a dword. -/
def loWord (v : Dword) : Word := v.setWidth 16

/-- A register set with an address register replaced, as plain storage (R23). -/
def Bank.set32 (g : Bank) (r : Reg32) (v : Dword) : Bank :=
  match r with
  | .af => { g with a := hiWord v, f := loWord v }
  | .bc => { g with b := hiWord v, c := loWord v }
  | .de => { g with d := hiWord v, e := loWord v }
  | .hl => { g with h := hiWord v, l := loWord v }
  | .ix => { g with ix := v }
  | .iy => { g with iy := v }
  | .sp => { g with sp := v }

/-- IFF1, which is bit 8 of F (R33). -/
def State.iff1 (s : State) : Bool := s.reg.f.getLsbD 8

/-- Set IFF1, every other bit of F kept. -/
def State.setIff1 (s : State) (b : Bool) : State :=
  { s with reg := { s.reg with f := (s.reg.f &&& ~~~ieMask) ||| flagBit b ieMask } }

/-- The inhibit an enabling instruction starts (R38, R323): definite when IFF1 went from 0 to 1; when IFF1 was already 1
it may start or not, a free value (U11, log 10). -/
def State.startInhibit (s : State) (wasEnabled : Bool) : State :=
  { s with inhibit := if wasEnabled then Config.inhibitChoice s.tick else true }

/-- Write F as data (R34, R140 (b), D13, D14): through the mask, IFF2 with IFF1, and the inhibit if bit 8 is written
as 1. -/
def State.writeF (s : State) (v : Word) : State :=
  let t := { s with reg := { s.reg with f := v &&& fMask }, iff2 := v.getLsbD 8 }
  if v.getLsbD 8 then t.startInhibit s.iff1 else t

/-- Write an address register (R9); the low word of AF goes into F as data (R140 (b)). -/
def State.set32 (s : State) (r : Reg32) (v : Dword) : State :=
  match r with
  | .af => (s.set16 .a (hiWord v)).writeF (loWord v)
  | r => { s with reg := s.reg.set32 r v }

/-- `Reg(ss, i)` (R10). -/
def State.getReg (s : State) (ss : Size) (r : RegField) : BitVec ss.bits :=
  match ss with
  | .byte => (s.get16 r.reg16).setWidth 8
  | .word => s.get16 r.reg16
  | .dword => s.get32 r.reg32

/-- A word with its low byte replaced (R10, R21). -/
def withLowByte (w : Word) (v : Byte) : Word := w.extractLsb' 8 8 ++ v

/-- `SetReg(ss, i, v)` (R10): a byte write keeps the upper byte. -/
def State.setReg (s : State) (ss : Size) (r : RegField) (v : BitVec ss.bits) : State :=
  match ss, v with
  | .byte, v => s.set16 r.reg16 (withLowByte (s.get16 r.reg16) v)
  | .word, v => s.set16 r.reg16 v
  | .dword, v => s.set32 r.reg32 v

/-- The six flags. -/
def State.flags (s : State) : Flags := flagsOf s.reg.f

/-- Set the six flags; IE and the reserved bits keep their values (R31). -/
def State.setFlags (s : State) (fl : Flags) : State := { s with reg := { s.reg with f := withFlags s.reg.f fl } }

/-! ## Memory -/

/-- The platform's memory map at a physical address (R71). -/
def kindIn : List Config.Region → Nat → Config.RegionKind
  | [], _ => .ram
  | g :: tl, p => if g.base ≤ p ∧ p < g.base + g.size then g.kind else kindIn tl p

/-- What stands at a physical address. -/
def State.kindAt (s : State) (p : Nat) : Config.RegionKind := kindIn s.cfg.regions p

/-- One byte of a read (R62): memory gives its content, a peripheral or an empty address a free value (R71, U18). -/
def State.readByte (s : State) (k : Config.Access) (a : Dword) : Byte :=
  match s.kindAt (phys a) with
  | .ram => s.mem.read (phys a)
  | .rom => s.mem.read (phys a)
  | .device => Config.deviceByte s.tick k (phys a)
  | .empty => Config.openBus s.tick k (phys a)

/-- `MemRead` (R62): little-endian, each byte address formed modulo 2^32. -/
def State.load (s : State) (k : Config.Access) (ss : Size) (a : Dword) : BitVec ss.bits :=
  match ss with
  | .byte => s.readByte k a
  | .word => s.readByte k (a + 1) ++ s.readByte k a
  | .dword => s.readByte k (a + 3) ++ s.readByte k (a + 2) ++ s.readByte k (a + 1) ++ s.readByte k a

/-- One byte of a write (R63, R71, U18): RAM holds it, a peripheral receives it as an event, ROM and empty addresses
ignore it. -/
def State.writeByte (s : State) (a : Dword) (v : Byte) : State :=
  match s.kindAt (phys a) with
  | .ram => { s with mem := s.mem.write (phys a) v }
  | .device => { s with trace := s.trace ++ [.memWrite (phys a) v] }
  | .rom => s
  | .empty => s

/-- `MemWrite` (R63): little-endian, in ascending address order. -/
def State.store (s : State) (ss : Size) (a : Dword) (v : BitVec ss.bits) : State :=
  match ss, v with
  | .byte, v => s.writeByte a v
  | .word, v => (s.writeByte a (v.setWidth 8)).writeByte (a + 1) (v.extractLsb' 8 8)
  | .dword, v =>
    (((s.writeByte a (v.setWidth 8)).writeByte (a + 1) (v.extractLsb' 8 8)).writeByte (a + 2)
      (v.extractLsb' 16 8)).writeByte (a + 3) (v.extractLsb' 24 8)

/-! ## I/O -/

/-- The value the devices answer to the next I/O read (R70, U19). -/
def State.ioAnswer (s : State) : Word :=
  match s.ioIn with
  | v :: _ => v
  | [] => Config.ioValue s.tick

/-- The part of a 16-bit bus value that a transfer of a size carries (R70). -/
def ioPart : NSize → Word → Word
  | .byte, v => (v.setWidth 8).setWidth 16
  | .word, v => v

/-- `IoRead` (R70): the value, zero above the bytes transferred. -/
def State.ioRead (s : State) (z : NSize) : Word := ioPart z s.ioAnswer

/-- The state after an `IoRead`: the answer consumed, the event recorded. -/
def State.afterIoRead (s : State) (z : NSize) (port : Word) : State :=
  { s with ioIn := s.ioIn.tail, trace := s.trace ++ [.ioRead z port (s.ioRead z)] }

/-- `IoWrite` (R70): an output event, in program order. -/
def State.ioWrite (s : State) (z : NSize) (port v : Word) : State :=
  { s with trace := s.trace ++ [.ioWrite z port (ioPart z v)] }

/-! ## The stack -/

/-- `Push32` (R13, D4): SP down by 4, then the write at the new SP. -/
def State.push32 (s : State) (v : Dword) : State :=
  let sp := s.reg.sp - 4
  State.store { s with reg := { s.reg with sp := sp } } .dword sp v

/-- The dword at the top of the stack, which `Pop32` returns (R13). -/
def State.stackTop (s : State) : Dword := s.load .stack .dword s.reg.sp

/-- `Pop32`'s update of SP (R13, D4). -/
def State.dropStack (s : State) : State := { s with reg := { s.reg with sp := s.reg.sp + 4 } }

/-! ## Interrupts -/

/-- The events that raise an interrupt (R14, R320). -/
inductive Cause where
  | nmi
  | int
  | soft
deriving DecidableEq, Repr

/-- `VecAddr(n)` (R325). -/
def vecAddr (ivb : BitVec 22) (n : Byte) : Dword := (ivb.setWidth 32 <<< 10) + 4#32 * n.setWidth 32

/-- Taking an interrupt, `raise Interrupt(k, n)` (R330): the flip-flops, the push of PC, the vector read, the load of
PC, in that order. NMI and INT end a HALT and the inhibit (R329, log 19); the software interrupt leaves both flip-flops
alone. -/
def State.interrupt (s : State) (k : Cause) (n : Byte) : State :=
  let s1 : State :=
    match k with
    | .nmi => State.setIff1 { s with nmiPending := false, halted := false, inhibit := false, iff2 := s.iff1 } false
    | .int => State.setIff1 { s with halted := false, inhibit := false, iff2 := false } false
    | .soft => s
  let s2 := s1.push32 s1.pc
  let access : Config.Access :=
    match k with
    | .soft => .vector
    | _ => .intVector
  { s2 with pc := s2.load access .dword (vecAddr s2.ivb n) }

/-- Non-maskable interrupt: vector 2, always (R326). -/
def State.enterNmi (s : State) : State := s.interrupt .nmi 2#8

/-- Maskable interrupt: vector 1 in IM 1, the device's byte in IM 2 (R326). -/
def State.enterInt (s : State) (vector : Byte) : State :=
  s.interrupt .int (match s.im with
    | .im1 => 1#8
    | .im2 => vector)

/-- Returning (R278, R333): PC popped from the stack. RETI and RETN add their effect on IFF1 and IFF2. -/
def State.popReturn (s : State) : State := { s.dropStack with pc := s.stackTop }

/-! ## Reset -/

/-- The register set that the rules leave unstated by a reset, from the free values (R361, log 15). -/
def unresetBank (tick : Nat) (word : Nat) (f : Word) (index : Nat) (sp : Dword) : Bank :=
  { a := loWord (Config.unresetReg tick word), b := loWord (Config.unresetReg tick (word + 1)),
    c := loWord (Config.unresetReg tick (word + 2)), d := loWord (Config.unresetReg tick (word + 3)),
    e := loWord (Config.unresetReg tick (word + 4)), h := loWord (Config.unresetReg tick (word + 5)),
    l := loWord (Config.unresetReg tick (word + 6)), f := f,
    ix := Config.unresetReg tick index, iy := Config.unresetReg tick (index + 1), sp := sp }

/-- Write the cells of a list into memory, ROM excepted. -/
def overwriteMem (regions : List Config.Region) : List Host.Cell → Memory → Memory
  | [], m => m
  | (a, v) :: tl, m =>
    overwriteMem regions tl
      (if kindIn regions (a % physSize) = .rom then m else m.write (a % physSize) v)

/-- Memory after a reset: ROM keeps its contents (R71), the rest is not stated (R361). -/
def unresetMemory (regions : List Config.Region) (tick : Nat) (m : Memory) : Memory :=
  overwriteMem regions (Config.unresetMem tick) ⟨m.cells.filter fun c => kindIn regions c.1 = .rom⟩

/-- The reset sequence (R360, R362) during a run: the listed registers take their values, what the rules leave unstated
takes free values, PC is read at logical address 0. -/
def State.resetSequence (s : State) : State :=
  let s1 : State :=
    { s with
      reg := unresetBank s.tick 0 0#16 15 0#32
      alt := unresetBank s.tick 7 (loWord (Config.unresetReg s.tick 14)) 17 (Config.unresetReg s.tick 19)
      ivb := 0#22, r := 0#16, iff2 := false, inhibit := false, halted := false, nmiPending := false
      im := s.cfg.imReset
      mem := unresetMemory s.cfg.regions s.tick s.mem }
  { s1 with pc := s1.load .resetVector .dword 0#32 }

end Sys2Proof.Machine
end

