-- ==== Sys2Proof/Machine/Cycle.lean ====
section
/-! DEFINITION. What stands around an instruction's execution: fetching its bytes (R12, R77), starting it (R323), and
the sampling point at its end (R322). `Step.lean` only puts them together. -/

namespace Sys2Proof.Machine

/-- The bytes at PC, as many as the longest instruction has (R90); each byte address is formed modulo 2^32 (R28). -/
def State.fetchBytes (s : State) : List Byte :=
  (List.range 10).map fun k => s.readByte .fetch (s.pc + BitVec.ofNat 32 k)

/-- An instruction of `len` bytes starts: `pc0` is its address, PC is `pcn` (R12), the inhibit ends (R323). -/
def State.enter (s : State) (len : Nat) : State :=
  { s with pc0 := s.pc, pc := s.pc + BitVec.ofNat 32 len, inhibit := false, tick := s.tick + 1 }

/-- One wait step of HALT (R300). -/
def State.wait (s : State) : State := { s with tick := s.tick + 1 }

/-- What the pins show now (log 12). -/
def State.pinsNow (s : State) : Pins := s.pins.headD Pins.quiet

/-- The pins are read, and an NMI edge is latched (R338). -/
def State.latch (s : State) : State := { s with pins := s.pins.tail, nmiPending := s.nmiPending || s.pinsNow.nmi }

/-- The sampling point (R322, R335): reset over NMI over INT, at most one taken. -/
def State.sample (s : State) : State :=
  let t := s.latch
  if s.pinsNow.reset then t.resetSequence
  else if t.nmiPending then t.enterNmi
  else if s.pinsNow.int && t.iff1 && !t.inhibit then t.enterInt s.pinsNow.vector
  else t

/-- An instruction's outcome with the sampling point after it; a stop has none. -/
def sampled : Result → Result
  | .next t => .next t.sample
  | .fault r => .fault r
  | .refused r => .refused r

/-- Memory with a list of bytes put at PC, for `State.withFetchWord` alone: no instruction writes this way. -/
def State.place (s : State) : List Byte → Nat → State
  | [], _ => s
  | v :: tl, k => State.place { s with mem := s.mem.write (phys (s.pc + BitVec.ofNat 32 k)) v } tl (k + 1)

end Sys2Proof.Machine
end

