-- ==== Sys2Proof/Machine/Operands.lean ====
section
/-! DEFINITION. Every operand form of `30_encoding.md`: effective addresses (R108), sources (R104, R107), bit numbers
and counts (R236, R240), ports (R104), conditions (R16), branch targets (R115, R270); and the shapes of instruction
that the families share: read the operands, compute, write the result and the flags. -/

namespace Sys2Proof.Machine

/-! ## Operand values -/

/-- The effective address (R108), from the registers as they are before the instruction changes any (R140 (d)). -/
def State.ea (s : State) : Addr → Dword
  | .ind .af => s.get32 .af
  | .ind .bc => s.get32 .bc
  | .ind .de => s.get32 .de
  | .ind .hl => s.get32 .hl
  | .idx .ix dd => s.get32 .ix + dd.signExtend 32
  | .idx .iy dd => s.get32 .iy + dd.signExtend 32
  | .idx .sp dd => s.get32 .sp + dd.signExtend 32
  | .direct nnnn => nnnn

/-- The value of a source operand (R104, R121). -/
def State.srcVal (s : State) (ss : Size) : Src → BitVec ss.bits
  | .reg r => s.getReg ss r
  | .imm v => v.setWidth ss.bits

/-- A bit number or count as an unsigned number, not reduced (R121, R240). -/
def State.countVal (s : State) (ss : Size) : Count → Nat
  | .reg r => (s.getReg ss r).toNat
  | .imm n => n.toNat

/-- A port number (R104, D32): all 16 bits of a register, or the byte zero-extended. -/
def State.portVal (s : State) : Port → Word
  | .reg r => s.get16 r
  | .imm n => n.setWidth 16

/-- `Cond(cccc)` (R16). -/
def State.cond (s : State) : Cond → Bool
  | .nz => !s.flags.z
  | .z => s.flags.z
  | .nc => !s.flags.c
  | .c => s.flags.c
  | .po => !s.flags.pv
  | .pe => s.flags.pv
  | .p => !s.flags.s
  | .m => s.flags.s
  | .always => true

/-- The target of JP and CALL (R115): a register's value or the direct address; no memory is read. -/
def State.target (s : State) : Target → Dword
  | .reg r => s.get32 r
  | .direct nnnn => nnnn

/-- The displacement of an s8 branch (R115, D10). -/
def State.disp8 (s : State) : Disp8 → Dword
  | .reg r => ((s.get16 r).setWidth 8).signExtend 32
  | .imm e => e.signExtend 32

/-- The displacement of an s16 branch (R115, D10). -/
def State.disp16 (s : State) : Disp16 → Dword
  | .reg r => (s.get16 r).signExtend 32
  | .imm e => e.signExtend 32

/-- `RelTarget` (R270 (c)): from the next instruction or from this one, by `REL_BASE`. -/
def State.relTarget (s : State) (disp : Dword) : Dword :=
  match s.cfg.relBase with
  | .next => s.pc + disp
  | .self => s.pc0 + disp

/-! ## Shapes of instruction -/

/-- AF as the written destination of a dword form (R24, U9). -/
def isAF (ss : Size) (r : RegField) : Bool := decide (ss = .dword ∧ r = .r0)

/-- Write a register and the flags; AF as destination is refused (R200 (e), R230). -/
def writeBack (ss : Size) (d : RegField) (r : BitVec ss.bits × Flags) (s : State) : Result :=
  if isAF ss d then .refused .afDestination else .next ((s.setReg ss d r.1).setFlags r.2)

/-- A two-operand instruction of format R (R104, R200). -/
def binR {ss : Size} (op : Flags → BitVec ss.bits → BitVec ss.bits → BitVec ss.bits × Flags)
    (d : RegField) (src : Src) (s : State) : Result :=
  writeBack ss d (op s.flags (s.getReg ss d) (s.srcVal ss src)) s

/-- A two-operand instruction of format RM (R107, R200): with memory as the destination, a read-modify-write. -/
def binM {ss : Size} (op : Flags → BitVec ss.bits → BitVec ss.bits → BitVec ss.bits × Flags)
    (ea : Addr) (f : MemForm) (s : State) : Result :=
  let m := s.load .data ss (s.ea ea)
  match f with
  | .toMem src =>
    let r := op s.flags m (s.srcVal ss src)
    .next ((s.store ss (s.ea ea) r.1).setFlags r.2)
  | .toReg d => writeBack ss d (op s.flags (s.getReg ss d) m) s

/-- A two-operand instruction of format R that only sets flags (CP, TST: R205, R234). -/
def testR {ss : Size} (op : Flags → BitVec ss.bits → BitVec ss.bits → BitVec ss.bits × Flags)
    (d : RegField) (src : Src) (s : State) : Result :=
  .next (s.setFlags (op s.flags (s.getReg ss d) (s.srcVal ss src)).2)

/-- The same of format RM: nothing is written. -/
def testM {ss : Size} (op : Flags → BitVec ss.bits → BitVec ss.bits → BitVec ss.bits × Flags)
    (ea : Addr) (f : MemForm) (s : State) : Result :=
  let m := s.load .data ss (s.ea ea)
  match f with
  | .toMem src => .next (s.setFlags (op s.flags m (s.srcVal ss src)).2)
  | .toReg d => .next (s.setFlags (op s.flags (s.getReg ss d) m).2)

/-- A one-operand instruction of format UR (R110). -/
def unR {ss : Size} (op : Flags → BitVec ss.bits → BitVec ss.bits × Flags) (r : RegField) (s : State) : Result :=
  writeBack ss r (op s.flags (s.getReg ss r)) s

/-- A one-operand instruction of format UM (R112): a read-modify-write. -/
def unM {ss : Size} (op : Flags → BitVec ss.bits → BitVec ss.bits × Flags) (ea : Addr) (s : State) : Result :=
  let r := op s.flags (s.load .data ss (s.ea ea))
  .next ((s.store ss (s.ea ea) r.1).setFlags r.2)

/-- A shift or rotate of format R (R240). -/
def shiftR (kind : ShiftKind) (ss : Size) (d : RegField) (n : Count) (s : State) : Result :=
  writeBack ss d (shiftOp kind (s.countVal ss n) s.flags (s.getReg ss d)) s

/-- A shift or rotate of format RM (R236, R240): with d = 1 the count is the memory cell. -/
def shiftM (kind : ShiftKind) (ss : Size) (ea : Addr) (f : CountForm) (s : State) : Result :=
  let m := s.load .data ss (s.ea ea)
  match f with
  | .onMem n =>
    let r := shiftOp kind (s.countVal ss n) s.flags m
    .next ((s.store ss (s.ea ea) r.1).setFlags r.2)
  | .onReg d => writeBack ss d (shiftOp kind m.toNat s.flags (s.getReg ss d)) s

/-- The flags of BIT (R237): Z from the bit, H set, N reset. -/
def bitFlags {w : Nat} (f : Flags) (v : BitVec w) (n : Nat) : Flags :=
  { f with z := !v.getLsbD (n % w), h := true, n := false }

/-- SET (R238): bit `n mod W` set. -/
def setBitOp {w : Nat} (v : BitVec w) (n : Nat) : BitVec w := v ||| (1#w <<< (n % w))

/-- RES (R239): bit `n mod W` cleared. -/
def resBitOp {w : Nat} (v : BitVec w) (n : Nat) : BitVec w := v &&& ~~~(1#w <<< (n % w))

/-- SET or RES of format R: no flag is set; AF is written as data (R238, R239). -/
def changeBitR {ss : Size} (op : BitVec ss.bits → Nat → BitVec ss.bits) (d : RegField) (n : Count)
    (s : State) : Result :=
  .next (s.setReg ss d (op (s.getReg ss d) (s.countVal ss n)))

/-- SET or RES of format RM (R236). -/
def changeBitM {ss : Size} (op : BitVec ss.bits → Nat → BitVec ss.bits) (ea : Addr) (f : CountForm)
    (s : State) : Result :=
  let m := s.load .data ss (s.ea ea)
  match f with
  | .onMem n => .next (s.store ss (s.ea ea) (op m (s.countVal ss n)))
  | .onReg d => .next (s.setReg ss d (op (s.getReg ss d) m.toNat))

/-- The target size of MLT, DIV and SDIV (R123, R212): 16 or 32 bits, by `MLTDIV_SS`. -/
def mltDivTarget : Config.MltDivSS → Size → Option WSize
  | .half, .byte => some .word
  | .half, .word => some .dword
  | .half, .dword => none
  | .target, .byte => none
  | .target, .word => some .word
  | .target, .dword => some .dword

/-- The undefined flags of this step (R14 `UNDEF`, R213, log 7). -/
def State.freeFlags (s : State) : Flags := flagsOf (Config.undefF s.tick)

/-- MLT, DIV and SDIV of format UR (R212): `op` takes the free flags, the flags, the free target and the target. A size
that `MLTDIV_SS` does not list is ILLEGAL (R122); the decoder answers none such (log 25). -/
def mltDivR (op : (w : Nat) → Flags → Flags → BitVec w → BitVec w → BitVec w × Flags) (ss : Size) (r : RegField)
    (s : State) : Result :=
  match mltDivTarget s.cfg.mltDivSS ss with
  | none => .fault (.illegal .size)
  | some t =>
    writeBack t.size r
      (op t.size.bits s.freeFlags s.flags ((Config.undefTarget s.tick).setWidth t.size.bits) (s.getReg t.size r)) s

/-- MLT, DIV and SDIV of format UM (R212): a read-modify-write of the whole target. -/
def mltDivM (op : (w : Nat) → Flags → Flags → BitVec w → BitVec w → BitVec w × Flags) (ss : Size) (ea : Addr)
    (s : State) : Result :=
  match mltDivTarget s.cfg.mltDivSS ss with
  | none => .fault (.illegal .size)
  | some t =>
    let r := op t.size.bits s.freeFlags s.flags ((Config.undefTarget s.tick).setWidth t.size.bits)
      (s.load .data t.size (s.ea ea))
    .next ((s.store t.size (s.ea ea) r.1).setFlags r.2)

end Sys2Proof.Machine
end

