-- ==== Sys2Proof/Machine/Arithmetic.lean ====
section
/-! DEFINITION. The arithmetic instructions of `42_arithmetic.md` (R200 to R216). -/

namespace Sys2Proof.Machine

/-- ADD, format R (R201). -/
def execAddR (ss : Size) (d : RegField) (src : Src) (s : State) : Result := binR (ss := ss) addOp d src s

/-- ADD, format RM (R201). -/
def execAddM (ss : Size) (ea : Addr) (f : MemForm) (s : State) : Result := binM (ss := ss) addOp ea f s

/-- ADC, format R (R202). -/
def execAdcR (ss : Size) (d : RegField) (src : Src) (s : State) : Result := binR (ss := ss) adcOp d src s

/-- ADC, format RM (R202). -/
def execAdcM (ss : Size) (ea : Addr) (f : MemForm) (s : State) : Result := binM (ss := ss) adcOp ea f s

/-- SUB, format R (R203). -/
def execSubR (ss : Size) (d : RegField) (src : Src) (s : State) : Result := binR (ss := ss) subOp d src s

/-- SUB, format RM (R203). -/
def execSubM (ss : Size) (ea : Addr) (f : MemForm) (s : State) : Result := binM (ss := ss) subOp ea f s

/-- SBC, format R (R204). -/
def execSbcR (ss : Size) (d : RegField) (src : Src) (s : State) : Result := binR (ss := ss) sbcOp d src s

/-- SBC, format RM (R204). -/
def execSbcM (ss : Size) (ea : Addr) (f : MemForm) (s : State) : Result := binM (ss := ss) sbcOp ea f s

/-- CP, format R (R205). -/
def execCpR (ss : Size) (d : RegField) (src : Src) (s : State) : Result := testR (ss := ss) subOp d src s

/-- CP, format RM (R205). -/
def execCpM (ss : Size) (ea : Addr) (f : MemForm) (s : State) : Result := testM (ss := ss) subOp ea f s

/-- INC, format UR (R206). -/
def execIncR (ss : Size) (r : RegField) (s : State) : Result := unR (ss := ss) incOp r s

/-- INC, format UM (R206). -/
def execIncM (ss : Size) (ea : Addr) (s : State) : Result := unM (ss := ss) incOp ea s

/-- DEC, format UR (R207). -/
def execDecR (ss : Size) (r : RegField) (s : State) : Result := unR (ss := ss) decOp r s

/-- DEC, format UM (R207). -/
def execDecM (ss : Size) (ea : Addr) (s : State) : Result := unM (ss := ss) decOp ea s

/-- NEG, format UR (R209). -/
def execNegR (ss : Size) (r : RegField) (s : State) : Result := unR (ss := ss) negOp r s

/-- NEG, format UM (R209). -/
def execNegM (ss : Size) (ea : Addr) (s : State) : Result := unM (ss := ss) negOp ea s

/-- DAA (R208): the upper byte of A is kept. -/
def execDaa (s : State) : Result :=
  let r := daaOp s.flags (s.getReg .byte .r0)
  .next ((s.setReg .byte .r0 r.1).setFlags r.2)

/-- EXT, format UR (R210): AF is refused (U9). -/
def execExtR (ss : WSize) (r : RegField) (s : State) : Result :=
  if isAF ss.size r then .refused .afDestination else .next (s.setReg ss.size r (extHalf (s.getReg ss.size r)))

/-- EXT, format UM (R210): the whole cell is rewritten. -/
def execExtM (ss : WSize) (ea : IndAddr) (s : State) : Result :=
  let a := s.ea ea.addr
  .next (s.store ss.size a (extHalf (s.load .data ss.size a)))

/-- MLT, format UR (R214). -/
def execMltR (ss : Size) (r : RegField) (s : State) : Result := mltDivR mltOp ss r s

/-- MLT, format UM (R214). -/
def execMltM (ss : Size) (ea : IndAddr) (s : State) : Result := mltDivM mltOp ss ea.addr s

/-- DIV, format UR (R215). -/
def execDivR (ss : Size) (r : RegField) (s : State) : Result := mltDivR divOp ss r s

/-- DIV, format UM (R215). -/
def execDivM (ss : Size) (ea : IndAddr) (s : State) : Result := mltDivM divOp ss ea.addr s

/-- SDIV, format UR (R216). -/
def execSdivR (ss : Size) (r : RegField) (s : State) : Result := mltDivR sdivOp ss r s

/-- SDIV, format UM (R216). -/
def execSdivM (ss : Size) (ea : IndAddr) (s : State) : Result := mltDivM sdivOp ss ea.addr s

end Sys2Proof.Machine
end

