-- ==== Sys2Proof/Machine/Block.lean ====
section
/-! DEFINITION. The block instructions of `41_block.md` (R170 to R191): one iteration of each family, the repetition, and the
forty instructions. A pointer moves by `stepUp` or `stepDown`;
the byte and word forms differ in their size. -/

namespace Sys2Proof.Machine

/-- A pointer's step upwards: the operand size in bytes (R170). -/
def stepUp : NSize → Dword
  | .byte => 1#32
  | .word => 2#32

/-- A pointer's step downwards. -/
def stepDown (z : NSize) : Dword := -stepUp z

/-- `A_W` (R170). -/
def State.accu (s : State) (z : NSize) : BitVec z.size.bits := s.getReg z.size .r0

/-- `BC` after the decrement is not 0: P/V of the LD, CP and TS families. -/
def State.moreBC (s : State) : Bool := decide (s.get32 .bc - 1 ≠ 0)

/-- HL moved by a step. -/
def State.moveHL (s : State) (step : Dword) : State := s.set32 .hl (s.get32 .hl + step)

/-- DE moved by a step. -/
def State.moveDE (s : State) (step : Dword) : State := s.set32 .de (s.get32 .de + step)

/-- BC decremented. -/
def State.countBC (s : State) : State := s.set32 .bc (s.get32 .bc - 1)

/-- B decremented (R170). -/
def State.countB (s : State) : State := s.set16 .b (s.get16 .b - 1)

/-- The element at (HL). -/
def State.element (s : State) (z : NSize) : BitVec z.size.bits := s.load .data z.size (s.get32 .hl)

/-- One iteration of the LD family (R172, R174). -/
def ldStep (z : NSize) (step : Dword) (s : State) : State :=
  ((((s.store z.size (s.get32 .de) (s.element z)).moveHL step).moveDE step).countBC).setFlags
    { s.flags with h := false, n := false, pv := s.moreBC }

/-- One iteration of the CP family (R176, R178): C kept. -/
def cpStep (z : NSize) (step : Dword) (s : State) : State :=
  ((s.moveHL step).countBC).setFlags
    { (subFlags (s.accu z) (s.element z) false).2 with c := s.flags.c, pv := s.moreBC }

/-- One iteration of the TS family (R180, R182): H undefined, C kept. -/
def tsStep (z : NSize) (step : Dword) (s : State) : State :=
  let r := s.accu z &&& s.element z
  ((s.moveHL step).countBC).setFlags
    { s.flags with s := r.msb, z := r == 0, h := s.freeFlags.h, n := true, pv := s.moreBC }

/-- Z and N of the input and output families (R184, R188). -/
def State.ioFlags (s : State) : Flags := { s.flags with z := decide (s.get16 .b - 1 = 0), n := true }

/-- One iteration of the input family (R184, R186). -/
def inStep (z : NSize) (step : Dword) (s : State) : State :=
  (((((s.afterIoRead z (s.get16 .c)).store z.size (s.get32 .hl) ((s.ioRead z).setWidth z.size.bits)).moveHL
    step).countB)).setFlags s.ioFlags

/-- One iteration of the output family (R188, R190). -/
def outStep (z : NSize) (step : Dword) (s : State) : State :=
  ((((s.ioWrite z (s.get16 .c) ((s.element z).setWidth 16)).moveHL step).countB)).setFlags s.ioFlags

/-- `RepeatStep` (R171): after the iteration, stop with the final flags, or stay at this instruction. -/
def repeatStep (stop : Bool) (final : Flags → Flags) (t : State) : Result :=
  if stop then .next (t.setFlags (final t.flags)) else .next { t with pc := t.pc0 }

/-- The counter BC has run out. -/
def State.doneBC (s : State) : Bool := decide (s.get32 .bc = 0)

/-- The counter B has run out. -/
def State.doneB (s : State) : Bool := decide (s.get16 .b = 0)

/-- The final P/V of the repeating CP and TS families: reset by a match (R177, D20). -/
def endByMatch (isMatch : Bool) (f : Flags) : Flags := { f with pv := !isMatch }

/-- LDIR, LDDR (R173, R175): no final-flag rule. -/
def ldRepeat (z : NSize) (step : Dword) (s : State) : Result :=
  let t := ldStep z step s
  repeatStep t.doneBC id t

/-- CPIR, CPDR (R177, R179). -/
def cpRepeat (z : NSize) (step : Dword) (s : State) : Result :=
  let t := cpStep z step s
  repeatStep (t.doneBC || t.flags.z) (endByMatch t.flags.z) t

/-- What ends TSIR and TSDR besides the counter (R181): by `TSXR_STOP`, the element tested equals A, or the Z of the
test, which is computed here from the operands and not read back from F. -/
def tsMatch (z : NSize) (s : State) : Bool :=
  match s.cfg.tsxrStop with
  | .equal => s.element z == s.accu z
  | .andZero => s.accu z &&& s.element z == 0
  | .andNonzero => !(s.accu z &&& s.element z == 0)

/-- TSIR, TSDR (R181, R183). -/
def tsRepeat (z : NSize) (step : Dword) (s : State) : Result :=
  let t := tsStep z step s
  repeatStep (t.doneBC || tsMatch z s) (endByMatch (tsMatch z s)) t

/-- INIR, INDR (R185, R187). -/
def inRepeat (z : NSize) (step : Dword) (s : State) : Result :=
  let t := inStep z step s
  repeatStep t.doneB id t

/-- OTIR, OTDR (R189, R191). -/
def outRepeat (z : NSize) (step : Dword) (s : State) : Result :=
  let t := outStep z step s
  repeatStep t.doneB id t

/-- LDI, byte form (R172). -/
def execLdiB (s : State) : Result := .next (ldStep .byte (stepUp .byte) s)

/-- LDIR, byte form (R173). -/
def execLdirB (s : State) : Result := ldRepeat .byte (stepUp .byte) s

/-- LDI, word form (R172). -/
def execLdiW (s : State) : Result := .next (ldStep .word (stepUp .word) s)

/-- LDIR, word form (R173). -/
def execLdirW (s : State) : Result := ldRepeat .word (stepUp .word) s

/-- LDD, byte form (R174). -/
def execLddB (s : State) : Result := .next (ldStep .byte (stepDown .byte) s)

/-- LDDR, byte form (R175). -/
def execLddrB (s : State) : Result := ldRepeat .byte (stepDown .byte) s

/-- LDD, word form (R174). -/
def execLddW (s : State) : Result := .next (ldStep .word (stepDown .word) s)

/-- LDDR, word form (R175). -/
def execLddrW (s : State) : Result := ldRepeat .word (stepDown .word) s

/-- CPI, byte form (R176). -/
def execCpiB (s : State) : Result := .next (cpStep .byte (stepUp .byte) s)

/-- CPIR, byte form (R177). -/
def execCpirB (s : State) : Result := cpRepeat .byte (stepUp .byte) s

/-- CPI, word form (R176). -/
def execCpiW (s : State) : Result := .next (cpStep .word (stepUp .word) s)

/-- CPIR, word form (R177). -/
def execCpirW (s : State) : Result := cpRepeat .word (stepUp .word) s

/-- CPD, byte form (R178). -/
def execCpdB (s : State) : Result := .next (cpStep .byte (stepDown .byte) s)

/-- CPDR, byte form (R179). -/
def execCpdrB (s : State) : Result := cpRepeat .byte (stepDown .byte) s

/-- CPD, word form (R178). -/
def execCpdW (s : State) : Result := .next (cpStep .word (stepDown .word) s)

/-- CPDR, word form (R179). -/
def execCpdrW (s : State) : Result := cpRepeat .word (stepDown .word) s

/-- TSI, byte form (R180). -/
def execTsiB (s : State) : Result := .next (tsStep .byte (stepUp .byte) s)

/-- TSIR, byte form (R181). -/
def execTsirB (s : State) : Result := tsRepeat .byte (stepUp .byte) s

/-- TSI, word form (R180). -/
def execTsiW (s : State) : Result := .next (tsStep .word (stepUp .word) s)

/-- TSIR, word form (R181). -/
def execTsirW (s : State) : Result := tsRepeat .word (stepUp .word) s

/-- TSD, byte form (R182). -/
def execTsdB (s : State) : Result := .next (tsStep .byte (stepDown .byte) s)

/-- TSDR, byte form (R183). -/
def execTsdrB (s : State) : Result := tsRepeat .byte (stepDown .byte) s

/-- TSD, word form (R182). -/
def execTsdW (s : State) : Result := .next (tsStep .word (stepDown .word) s)

/-- TSDR, word form (R183). -/
def execTsdrW (s : State) : Result := tsRepeat .word (stepDown .word) s

/-- INI, byte form (R184). -/
def execIniB (s : State) : Result := .next (inStep .byte (stepUp .byte) s)

/-- INIR, byte form (R185). -/
def execInirB (s : State) : Result := inRepeat .byte (stepUp .byte) s

/-- INI, word form (R184). -/
def execIniW (s : State) : Result := .next (inStep .word (stepUp .word) s)

/-- INIR, word form (R185). -/
def execInirW (s : State) : Result := inRepeat .word (stepUp .word) s

/-- IND, byte form (R186). -/
def execIndB (s : State) : Result := .next (inStep .byte (stepDown .byte) s)

/-- INDR, byte form (R187). -/
def execIndrB (s : State) : Result := inRepeat .byte (stepDown .byte) s

/-- IND, word form (R186). -/
def execIndW (s : State) : Result := .next (inStep .word (stepDown .word) s)

/-- INDR, word form (R187). -/
def execIndrW (s : State) : Result := inRepeat .word (stepDown .word) s

/-- OUTI, byte form (R188). -/
def execOutiB (s : State) : Result := .next (outStep .byte (stepUp .byte) s)

/-- OTIR, byte form (R189). -/
def execOtirB (s : State) : Result := outRepeat .byte (stepUp .byte) s

/-- OUTI, word form (R188). -/
def execOutiW (s : State) : Result := .next (outStep .word (stepUp .word) s)

/-- OTIR, word form (R189). -/
def execOtirW (s : State) : Result := outRepeat .word (stepUp .word) s

/-- OUTD, byte form (R190). -/
def execOutdB (s : State) : Result := .next (outStep .byte (stepDown .byte) s)

/-- OTDR, byte form (R191). -/
def execOtdrB (s : State) : Result := outRepeat .byte (stepDown .byte) s

/-- OUTD, word form (R190). -/
def execOutdW (s : State) : Result := .next (outStep .word (stepDown .word) s)

/-- OTDR, word form (R191). -/
def execOtdrW (s : State) : Result := outRepeat .word (stepDown .word) s

end Sys2Proof.Machine
end

