-- ==== Sys2Proof/Machine/DataTransfer.lean ====
section
/-! DEFINITION. The data transfer instructions of `40_data_transfer.md` (R140 to R150). -/

namespace Sys2Proof.Machine

/-- LD, format R (R141). -/
def execLdR (ss : Size) (d : RegField) (src : Src) (s : State) : Result := .next (s.setReg ss d (s.srcVal ss src))

/-- LD, format RM (R141). -/
def execLdM (ss : Size) (ea : Addr) (f : MemForm) (s : State) : Result :=
  match f with
  | .toMem src => .next (s.store ss (s.ea ea) (s.srcVal ss src))
  | .toReg d => .next (s.setReg ss d (s.load .data ss (s.ea ea)))

/-- EX, format R (R142). -/
def execExR (ss : Size) (d r : RegField) (s : State) : Result :=
  .next ((s.setReg ss d (s.getReg ss r)).setReg ss r (s.getReg ss d))

/-- EX, format RM (R142): the direction bit has no effect. -/
def execExM (ss : Size) (ea : IndAddr) (r : RegField) (_ : Bool) (s : State) : Result :=
  let a := s.ea ea.addr
  .next ((s.store ss a (s.getReg ss r)).setReg ss r (s.load .data ss a))

/-- EX r,r' (R143): F' is plain storage, F takes it as data (R31). -/
def execExAlt (ss : WSize) (r : RegField) (s : State) : Result :=
  match ss with
  | .word => .next ({ s with alt := s.alt.set16 r.reg16 (s.get16 r.reg16) }.set16 r.reg16 (s.alt.get16 r.reg16))
  | .dword => .next ({ s with alt := s.alt.set32 r.reg32 (s.get32 r.reg32) }.set32 r.reg32 (s.alt.get32 r.reg32))

/-- EXX (R144). -/
def execExx (s : State) : Result :=
  .next { s with
    reg := { s.reg with b := s.alt.b, c := s.alt.c, d := s.alt.d, e := s.alt.e, h := s.alt.h, l := s.alt.l }
    alt := { s.alt with b := s.reg.b, c := s.reg.c, d := s.reg.d, e := s.reg.e, h := s.reg.h, l := s.reg.l } }

/-- EXI (R145). -/
def execExi (s : State) : Result :=
  .next { s with
    reg := { s.reg with ix := s.alt.ix, iy := s.alt.iy, sp := s.alt.sp }
    alt := { s.alt with ix := s.reg.ix, iy := s.reg.iy, sp := s.reg.sp } }

/-- EXH, format UR (R146). -/
def execExhR (ss : Size) (r : RegField) (s : State) : Result := .next (s.setReg ss r (swapHalves (s.getReg ss r)))

/-- EXH, format UM (R146). -/
def execExhM (ss : Size) (ea : IndAddr) (s : State) : Result :=
  let a := s.ea ea.addr
  .next (s.store ss a (swapHalves (s.load .data ss a)))

/-- PUSH (R147): the value SP had before the decrement, for PUSH SP (D36). -/
def execPush (ss : Size) (src : Src) (s : State) : Result := .next (s.push32 ((s.srcVal ss src).signExtend 32))

/-- POP (R148): the register is written after SP is (D36). -/
def execPop (r : Reg32) (s : State) : Result := .next (s.dropStack.set32 r s.stackTop)

/-- IN (R149): the port is read before the register is written. -/
def execInR (ss : NSize) (d : RegField) (port : Port) (s : State) : Result :=
  .next ((s.afterIoRead ss (s.portVal port)).setReg ss.size d ((s.ioRead ss).setWidth ss.size.bits))

/-- OUT (R150). -/
def execOutR (ss : NSize) (port : Port) (r : RegField) (s : State) : Result :=
  .next (s.ioWrite ss (s.portVal port) ((s.getReg ss.size r).setWidth 16))

end Sys2Proof.Machine
end

