-- ==== Sys2Proof/Machine/FlowControl.lean ====
section
/-! DEFINITION. The flow control instructions of `44_flow_control.md` (R270 to R283). While one executes, `pc` is `pcn`. -/

namespace Sys2Proof.Machine

/-- Go to a target, or on to the next instruction (R270 (b)). -/
def branch (taken : Bool) (target : Dword) (s : State) : Result := .next (if taken then { s with pc := target } else s)

/-- The same with `pcn` pushed (R276, R277); an untaken call pushes nothing. -/
def callTo (taken : Bool) (target : Dword) (s : State) : Result :=
  .next (if taken then { s.push32 s.pc with pc := target } else s)

/-- NOP (R271). -/
def execNop (s : State) : Result := .next s

/-- JP (R272). -/
def execJp (cc : Cond) (t : Target) (s : State) : Result := branch (s.cond cc) (s.target t) s

/-- JR s8 (R273). -/
def execJrS8 (cc : Cond) (e : Disp8) (s : State) : Result := branch (s.cond cc) (s.relTarget (s.disp8 e)) s

/-- JR s16 (R273). -/
def execJrS16 (cc : Cond) (e : Disp16) (s : State) : Result := branch (s.cond cc) (s.relTarget (s.disp16 e)) s

/-- DJNZ (R274): the whole of B, no flag. -/
def execDjnz (e : Byte) (s : State) : Result :=
  let b := s.get16 .b - 1
  branch (decide (b ≠ 0)) (s.relTarget (e.signExtend 32)) (s.set16 .b b)

/-- JANZ (R275): the whole of A, no flag. -/
def execJanz (e : Byte) (s : State) : Result := branch (decide (s.get16 .a ≠ 0)) (s.relTarget (e.signExtend 32)) s

/-- CALL (R276): the target is read before SP changes. -/
def execCall (cc : Cond) (t : Target) (s : State) : Result := callTo (s.cond cc) (s.target t) s

/-- CALLR s8 (R277). -/
def execCallrS8 (cc : Cond) (e : Disp8) (s : State) : Result := callTo (s.cond cc) (s.relTarget (s.disp8 e)) s

/-- CALLR s16 (R277). -/
def execCallrS16 (cc : Cond) (e : Disp16) (s : State) : Result := callTo (s.cond cc) (s.relTarget (s.disp16 e)) s

/-- The inhibit that RETI and RETN start, by `RET_ENABLE_DELAY` (R279, R280, D15). -/
def State.returnInhibit (s : State) (wasEnabled : Bool) : State :=
  if s.cfg.retEnableDelay then s.startInhibit wasEnabled else s

/-- RET (R278). -/
def execRet (cc : Cond) (s : State) : Result := .next (if s.cond cc then s.popReturn else s)

/-- RETI (R279): both flip-flops set. -/
def execReti (cc : Cond) (s : State) : Result :=
  .next (if s.cond cc then ({ s.popReturn with iff2 := true }.setIff1 true).returnInhibit s.iff1 else s)

/-- RETN (R280): IFF2 copied to IFF1; that the inhibit is free when IFF1 was already 1 is R323 (U11, log 10). -/
def execRetn (cc : Cond) (s : State) : Result :=
  .next (if s.cond cc then
      let t := s.popReturn.setIff1 s.iff2
      if s.iff2 then t.returnInhibit s.iff1 else t
    else s)

/-- RST (R281): the software interrupt. -/
def execRst (n : Byte) (s : State) : Result := .next (s.interrupt .soft n)

/-- SCF (R282). -/
def execScf (s : State) : Result := .next (s.setFlags { s.flags with c := true, h := false, n := false })

/-- CCF (R283): H receives the old carry. -/
def execCcf (s : State) : Result :=
  .next (s.setFlags { s.flags with c := !s.flags.c, h := s.flags.c, n := false })

end Sys2Proof.Machine
end

