-- ==== Sys2Proof/Machine/Logical.lean ====
section
/-! DEFINITION. The logical, bit, shift, rotate and BCD digit instructions of `43_logical.md` (R230 to R249). -/

namespace Sys2Proof.Machine

/-- AND, format R (R231). -/
def execAndR (ss : Size) (d : RegField) (src : Src) (s : State) : Result := binR (ss := ss) andOp d src s

/-- AND, format RM (R231). -/
def execAndM (ss : Size) (ea : Addr) (f : MemForm) (s : State) : Result := binM (ss := ss) andOp ea f s

/-- OR, format R (R232). -/
def execOrR (ss : Size) (d : RegField) (src : Src) (s : State) : Result := binR (ss := ss) orOp d src s

/-- OR, format RM (R232). -/
def execOrM (ss : Size) (ea : Addr) (f : MemForm) (s : State) : Result := binM (ss := ss) orOp ea f s

/-- XOR, format R (R233). -/
def execXorR (ss : Size) (d : RegField) (src : Src) (s : State) : Result := binR (ss := ss) xorOp d src s

/-- XOR, format RM (R233). -/
def execXorM (ss : Size) (ea : Addr) (f : MemForm) (s : State) : Result := binM (ss := ss) xorOp ea f s

/-- TST, format R (R234). -/
def execTstR (ss : Size) (d : RegField) (src : Src) (s : State) : Result := testR (ss := ss) andOp d src s

/-- TST, format RM (R234). -/
def execTstM (ss : Size) (ea : Addr) (f : MemForm) (s : State) : Result := testM (ss := ss) andOp ea f s

/-- CPL, format UR (R235). -/
def execCplR (ss : Size) (r : RegField) (s : State) : Result := unR (ss := ss) cplOp r s

/-- CPL, format UM (R235). -/
def execCplM (ss : Size) (ea : Addr) (s : State) : Result := unM (ss := ss) cplOp ea s

/-- BIT, format R (R237). -/
def execBitR (ss : Size) (d : RegField) (n : Count) (s : State) : Result :=
  .next (s.setFlags (bitFlags s.flags (s.getReg ss d) (s.countVal ss n)))

/-- BIT, format RM (R236, R237). -/
def execBitM (ss : Size) (ea : Addr) (f : CountForm) (s : State) : Result :=
  let m := s.load .data ss (s.ea ea)
  match f with
  | .onMem n => .next (s.setFlags (bitFlags s.flags m (s.countVal ss n)))
  | .onReg d => .next (s.setFlags (bitFlags s.flags (s.getReg ss d) m.toNat))

/-- SET, format R (R238). -/
def execSetR (ss : Size) (d : RegField) (n : Count) (s : State) : Result := changeBitR (ss := ss) setBitOp d n s

/-- SET, format RM (R236, R238). -/
def execSetM (ss : Size) (ea : Addr) (f : CountForm) (s : State) : Result := changeBitM (ss := ss) setBitOp ea f s

/-- RES, format R (R239). -/
def execResR (ss : Size) (d : RegField) (n : Count) (s : State) : Result := changeBitR (ss := ss) resBitOp d n s

/-- RES, format RM (R236, R239). -/
def execResM (ss : Size) (ea : Addr) (f : CountForm) (s : State) : Result := changeBitM (ss := ss) resBitOp ea f s

/-- RLC, format R (R241). -/
def execRlcR (ss : Size) (d : RegField) (n : Count) (s : State) : Result := shiftR .rlc ss d n s

/-- RLC, format RM (R241). -/
def execRlcM (ss : Size) (ea : Addr) (f : CountForm) (s : State) : Result := shiftM .rlc ss ea f s

/-- RRC, format R (R242). -/
def execRrcR (ss : Size) (d : RegField) (n : Count) (s : State) : Result := shiftR .rrc ss d n s

/-- RRC, format RM (R242). -/
def execRrcM (ss : Size) (ea : Addr) (f : CountForm) (s : State) : Result := shiftM .rrc ss ea f s

/-- RL, format R (R243). -/
def execRlR (ss : Size) (d : RegField) (n : Count) (s : State) : Result := shiftR .rl ss d n s

/-- RL, format RM (R243). -/
def execRlM (ss : Size) (ea : Addr) (f : CountForm) (s : State) : Result := shiftM .rl ss ea f s

/-- RR, format R (R244). -/
def execRrR (ss : Size) (d : RegField) (n : Count) (s : State) : Result := shiftR .rr ss d n s

/-- RR, format RM (R244). -/
def execRrM (ss : Size) (ea : Addr) (f : CountForm) (s : State) : Result := shiftM .rr ss ea f s

/-- SLA, format R (R245). -/
def execSlaR (ss : Size) (d : RegField) (n : Count) (s : State) : Result := shiftR .sla ss d n s

/-- SLA, format RM (R245). -/
def execSlaM (ss : Size) (ea : Addr) (f : CountForm) (s : State) : Result := shiftM .sla ss ea f s

/-- SRA, format R (R246). -/
def execSraR (ss : Size) (d : RegField) (n : Count) (s : State) : Result := shiftR .sra ss d n s

/-- SRA, format RM (R246). -/
def execSraM (ss : Size) (ea : Addr) (f : CountForm) (s : State) : Result := shiftM .sra ss ea f s

/-- SRL, format R (R247). -/
def execSrlR (ss : Size) (d : RegField) (n : Count) (s : State) : Result := shiftR .srl ss d n s

/-- SRL, format RM (R247). -/
def execSrlM (ss : Size) (ea : Addr) (f : CountForm) (s : State) : Result := shiftM .srl ss ea f s

/-- A byte of two digits, the high one first. -/
def digits (hi lo : BitVec 4) : Byte := hi ++ lo

/-- The low digit of a byte. -/
def lowDigit (v : Byte) : BitVec 4 := v.setWidth 4

/-- The high digit of a byte. -/
def highDigit (v : Byte) : BitVec 4 := v.extractLsb' 4 4

/-- RLD (R248): (HL)'s high digit goes to A, its low digit up, A's low digit into (HL) (D40; PRESUMED by the spec from
the Z80, log 27). -/
def execRld (s : State) : Result :=
  let a := s.getReg .byte .r0
  let m := s.load .data .byte (s.get32 .hl)
  let a' := digits (highDigit a) (highDigit m)
  .next (((s.store .byte (s.get32 .hl) (digits (lowDigit m) (lowDigit a))).setReg .byte .r0 a').setFlags
    (digitFlags s.flags a'))

/-- RRD (R249): (HL)'s low digit goes to A, its high digit down, A's low digit into (HL) (as RLD). -/
def execRrd (s : State) : Result :=
  let a := s.getReg .byte .r0
  let m := s.load .data .byte (s.get32 .hl)
  let a' := digits (highDigit a) (lowDigit m)
  .next (((s.store .byte (s.get32 .hl) (digits (lowDigit a) (highDigit m))).setReg .byte .r0 a').setFlags
    (digitFlags s.flags a'))

end Sys2Proof.Machine
end

