-- ==== Sys2Proof/Machine/System.lean ====
section
/-! DEFINITION. The system instructions of `45_system.md` (R300 to R308). -/

namespace Sys2Proof.Machine

/-- HALT (R300): from now on no instruction is fetched; `pc` is the address after it. -/
def execHalt (s : State) : Result := .next { s with halted := true }

/-- EI (R301). -/
def execEi (s : State) : Result := .next (({ s with iff2 := true }.setIff1 true).startInhibit s.iff1)

/-- DI (R302). -/
def execDi (s : State) : Result := .next ({ s with iff2 := false, inhibit := false }.setIff1 false)

/-- IM 1 (R303). -/
def execIm1 (s : State) : Result := .next { s with im := .im1 }

/-- IM 2 (R304). -/
def execIm2 (s : State) : Result := .next { s with im := .im2 }

/-- LD I, nn (R306): zero-extended to the 22 bits of IVB (D27). -/
def execLdI (nn : Word) (s : State) : Result := .next { s with ivb := nn.setWidth 22 }

/-- LD R, A (R307). -/
def execLdRA (s : State) : Result := .next { s with r := s.reg.a }

/-- LD A, R (R308): a free value (U5, log 9). -/
def execLdAR (s : State) : Result := .next (s.set16 .a (Config.refreshRead s.tick s.r))

end Sys2Proof.Machine
end

