-- ==== Sys2Proof/Machine/Dispatch.lean ====
section
/-! DEFINITION. Which meaning an instruction has. -/

namespace Sys2Proof.Machine

def exec (i : Instr) (s : State) : Host.Outcome State Fault Refusal :=
  match i with
  | .ldR ss d src => Sys2Proof.Machine.execLdR ss d src s
  | .exR ss d r => Sys2Proof.Machine.execExR ss d r s
  | .inR ss d port => Sys2Proof.Machine.execInR ss d port s
  | .outR ss port r => Sys2Proof.Machine.execOutR ss port r s
  | .addR ss d src => Sys2Proof.Machine.execAddR ss d src s
  | .adcR ss d src => Sys2Proof.Machine.execAdcR ss d src s
  | .subR ss d src => Sys2Proof.Machine.execSubR ss d src s
  | .sbcR ss d src => Sys2Proof.Machine.execSbcR ss d src s
  | .cpR ss d src => Sys2Proof.Machine.execCpR ss d src s
  | .andR ss d src => Sys2Proof.Machine.execAndR ss d src s
  | .orR ss d src => Sys2Proof.Machine.execOrR ss d src s
  | .xorR ss d src => Sys2Proof.Machine.execXorR ss d src s
  | .tstR ss d src => Sys2Proof.Machine.execTstR ss d src s
  | .bitR ss d n => Sys2Proof.Machine.execBitR ss d n s
  | .setR ss d n => Sys2Proof.Machine.execSetR ss d n s
  | .resR ss d n => Sys2Proof.Machine.execResR ss d n s
  | .rlcR ss d n => Sys2Proof.Machine.execRlcR ss d n s
  | .rrcR ss d n => Sys2Proof.Machine.execRrcR ss d n s
  | .rlR ss d n => Sys2Proof.Machine.execRlR ss d n s
  | .rrR ss d n => Sys2Proof.Machine.execRrR ss d n s
  | .slaR ss d n => Sys2Proof.Machine.execSlaR ss d n s
  | .sraR ss d n => Sys2Proof.Machine.execSraR ss d n s
  | .srlR ss d n => Sys2Proof.Machine.execSrlR ss d n s
  | .ldM ss ea f => Sys2Proof.Machine.execLdM ss ea f s
  | .exM ss ea r d => Sys2Proof.Machine.execExM ss ea r d s
  | .addM ss ea f => Sys2Proof.Machine.execAddM ss ea f s
  | .adcM ss ea f => Sys2Proof.Machine.execAdcM ss ea f s
  | .subM ss ea f => Sys2Proof.Machine.execSubM ss ea f s
  | .sbcM ss ea f => Sys2Proof.Machine.execSbcM ss ea f s
  | .cpM ss ea f => Sys2Proof.Machine.execCpM ss ea f s
  | .andM ss ea f => Sys2Proof.Machine.execAndM ss ea f s
  | .orM ss ea f => Sys2Proof.Machine.execOrM ss ea f s
  | .xorM ss ea f => Sys2Proof.Machine.execXorM ss ea f s
  | .tstM ss ea f => Sys2Proof.Machine.execTstM ss ea f s
  | .bitM ss ea f => Sys2Proof.Machine.execBitM ss ea f s
  | .setM ss ea f => Sys2Proof.Machine.execSetM ss ea f s
  | .resM ss ea f => Sys2Proof.Machine.execResM ss ea f s
  | .rlcM ss ea f => Sys2Proof.Machine.execRlcM ss ea f s
  | .rrcM ss ea f => Sys2Proof.Machine.execRrcM ss ea f s
  | .rlM ss ea f => Sys2Proof.Machine.execRlM ss ea f s
  | .rrM ss ea f => Sys2Proof.Machine.execRrM ss ea f s
  | .slaM ss ea f => Sys2Proof.Machine.execSlaM ss ea f s
  | .sraM ss ea f => Sys2Proof.Machine.execSraM ss ea f s
  | .srlM ss ea f => Sys2Proof.Machine.execSrlM ss ea f s
  | .exAlt ss r => Sys2Proof.Machine.execExAlt ss r s
  | .exhR ss r => Sys2Proof.Machine.execExhR ss r s
  | .push ss src => Sys2Proof.Machine.execPush ss src s
  | .pop r => Sys2Proof.Machine.execPop r s
  | .incR ss r => Sys2Proof.Machine.execIncR ss r s
  | .decR ss r => Sys2Proof.Machine.execDecR ss r s
  | .negR ss r => Sys2Proof.Machine.execNegR ss r s
  | .extR ss r => Sys2Proof.Machine.execExtR ss r s
  | .mltR ss r => Sys2Proof.Machine.execMltR ss r s
  | .divR ss r => Sys2Proof.Machine.execDivR ss r s
  | .sdivR ss r => Sys2Proof.Machine.execSdivR ss r s
  | .cplR ss r => Sys2Proof.Machine.execCplR ss r s
  | .exhM ss ea => Sys2Proof.Machine.execExhM ss ea s
  | .incM ss ea => Sys2Proof.Machine.execIncM ss ea s
  | .decM ss ea => Sys2Proof.Machine.execDecM ss ea s
  | .negM ss ea => Sys2Proof.Machine.execNegM ss ea s
  | .extM ss ea => Sys2Proof.Machine.execExtM ss ea s
  | .mltM ss ea => Sys2Proof.Machine.execMltM ss ea s
  | .divM ss ea => Sys2Proof.Machine.execDivM ss ea s
  | .sdivM ss ea => Sys2Proof.Machine.execSdivM ss ea s
  | .cplM ss ea => Sys2Proof.Machine.execCplM ss ea s
  | .jp cc t => Sys2Proof.Machine.execJp cc t s
  | .jrS8 cc e => Sys2Proof.Machine.execJrS8 cc e s
  | .jrS16 cc e => Sys2Proof.Machine.execJrS16 cc e s
  | .call cc t => Sys2Proof.Machine.execCall cc t s
  | .callrS8 cc e => Sys2Proof.Machine.execCallrS8 cc e s
  | .callrS16 cc e => Sys2Proof.Machine.execCallrS16 cc e s
  | .ret cc => Sys2Proof.Machine.execRet cc s
  | .reti cc => Sys2Proof.Machine.execReti cc s
  | .retn cc => Sys2Proof.Machine.execRetn cc s
  | .ldiB => Sys2Proof.Machine.execLdiB s
  | .ldirB => Sys2Proof.Machine.execLdirB s
  | .lddB => Sys2Proof.Machine.execLddB s
  | .lddrB => Sys2Proof.Machine.execLddrB s
  | .cpiB => Sys2Proof.Machine.execCpiB s
  | .cpirB => Sys2Proof.Machine.execCpirB s
  | .cpdB => Sys2Proof.Machine.execCpdB s
  | .cpdrB => Sys2Proof.Machine.execCpdrB s
  | .tsiB => Sys2Proof.Machine.execTsiB s
  | .tsirB => Sys2Proof.Machine.execTsirB s
  | .tsdB => Sys2Proof.Machine.execTsdB s
  | .tsdrB => Sys2Proof.Machine.execTsdrB s
  | .iniB => Sys2Proof.Machine.execIniB s
  | .inirB => Sys2Proof.Machine.execInirB s
  | .indB => Sys2Proof.Machine.execIndB s
  | .indrB => Sys2Proof.Machine.execIndrB s
  | .outiB => Sys2Proof.Machine.execOutiB s
  | .otirB => Sys2Proof.Machine.execOtirB s
  | .outdB => Sys2Proof.Machine.execOutdB s
  | .otdrB => Sys2Proof.Machine.execOtdrB s
  | .ldiW => Sys2Proof.Machine.execLdiW s
  | .ldirW => Sys2Proof.Machine.execLdirW s
  | .lddW => Sys2Proof.Machine.execLddW s
  | .lddrW => Sys2Proof.Machine.execLddrW s
  | .cpiW => Sys2Proof.Machine.execCpiW s
  | .cpirW => Sys2Proof.Machine.execCpirW s
  | .cpdW => Sys2Proof.Machine.execCpdW s
  | .cpdrW => Sys2Proof.Machine.execCpdrW s
  | .tsiW => Sys2Proof.Machine.execTsiW s
  | .tsirW => Sys2Proof.Machine.execTsirW s
  | .tsdW => Sys2Proof.Machine.execTsdW s
  | .tsdrW => Sys2Proof.Machine.execTsdrW s
  | .iniW => Sys2Proof.Machine.execIniW s
  | .inirW => Sys2Proof.Machine.execInirW s
  | .indW => Sys2Proof.Machine.execIndW s
  | .indrW => Sys2Proof.Machine.execIndrW s
  | .outiW => Sys2Proof.Machine.execOutiW s
  | .otirW => Sys2Proof.Machine.execOtirW s
  | .outdW => Sys2Proof.Machine.execOutdW s
  | .otdrW => Sys2Proof.Machine.execOtdrW s
  | .exx => Sys2Proof.Machine.execExx s
  | .exi => Sys2Proof.Machine.execExi s
  | .rst n => Sys2Proof.Machine.execRst n s
  | .scf => Sys2Proof.Machine.execScf s
  | .ccf => Sys2Proof.Machine.execCcf s
  | .daa => Sys2Proof.Machine.execDaa s
  | .rld => Sys2Proof.Machine.execRld s
  | .rrd => Sys2Proof.Machine.execRrd s
  | .halt => Sys2Proof.Machine.execHalt s
  | .ei => Sys2Proof.Machine.execEi s
  | .di => Sys2Proof.Machine.execDi s
  | .im1 => Sys2Proof.Machine.execIm1 s
  | .im2 => Sys2Proof.Machine.execIm2 s
  | .ldI nn => Sys2Proof.Machine.execLdI nn s
  | .ldRA => Sys2Proof.Machine.execLdRA s
  | .ldAR => Sys2Proof.Machine.execLdAR s
  | .nop => Sys2Proof.Machine.execNop s
  | .djnz e => Sys2Proof.Machine.execDjnz e s
  | .janz e => Sys2Proof.Machine.execJanz e s

end Sys2Proof.Machine
end

