-- ==== Sys2Proof/Machine/Step.lean ====
section
/-! DEFINITION. One step of the machine: one instruction, or one iteration of a repeating block instruction (R171), or
one wait step of HALT (R300), and the sampling point at its end (R322). -/

namespace Sys2Proof.Machine

/-- One step. Bytes that spell no instruction are a fault (R130, log 18). -/
def step (s : State) : Host.Outcome State Fault Refusal :=
  if s.halted then .next s.wait.sample
  else
    match decode s.cfg.mltDivSS s.fetchBytes with
    | .error why => .fault (.illegal why)
    | .ok (i, rest) => sampled (exec i (s.enter (s.fetchBytes.length - rest.length)))

/-- `s` with the instruction whose bits are `w` (as `opcode_table.json` numbers them) stored where the next step fetches,
and not halted: the load of a program from outside the machine (log 21). The addresses are RAM or ROM in every state
this is meant for. -/
def State.withFetchWord (s : State) (nbits w : Nat) : State :=
  { s.place (tableBytes nbits w) 0 with halted := false }

end Sys2Proof.Machine
end

