-- ==== Sys2Proof/Safety.lean ====
section
/-! DEFINITION. The terms that statements about the machine use: the invariant every step keeps, which forms the manual
leaves undefined, what an instruction leaves unchanged, and the flags of a result said by arithmetic on integers and by
bits, not by the machine's own functions. -/

namespace Sys2Proof.Machine

/-! ## The invariant -/

/-- What holds of every state that the machine reaches: memory in its canonical form; the reserved bits of F are 0
(R31); IFF1 implies IFF2, and the inhibit implies IFF1 (R33, R38, R324); a waiting machine has no inhibit (R300);
bits 21:16 of IVB are 0 (R35). -/
structure State.Inv (s : State) : Prop where
  memory : s.mem.wf = true
  reserved : s.reg.f &&& ~~~0x01D7#16 = 0#16
  enabled : s.iff1 = true → s.iff2 = true
  inhibited : s.inhibit = true → s.iff1 = true
  waiting : s.halted = true → s.inhibit = false
  base : s.ivb.toNat < 2 ^ 16

/-! ## The forms that have no meaning -/

/-- The forms that write AF as the destination of an arithmetic, logical, shift or rotate instruction (R24, U9). -/
def writesAFByArithmetic (m : Config.MltDivSS) : Instr → Bool
  | .addR ss d _ | .adcR ss d _ | .subR ss d _ | .sbcR ss d _ | .andR ss d _ | .orR ss d _ | .xorR ss d _
  | .rlcR ss d _ | .rrcR ss d _ | .rlR ss d _ | .rrR ss d _ | .slaR ss d _ | .sraR ss d _ | .srlR ss d _
  | .incR ss d | .decR ss d | .negR ss d | .cplR ss d => decide (ss = .dword ∧ d = .r0)
  | .addM ss _ (.toReg d) | .adcM ss _ (.toReg d) | .subM ss _ (.toReg d) | .sbcM ss _ (.toReg d)
  | .andM ss _ (.toReg d) | .orM ss _ (.toReg d) | .xorM ss _ (.toReg d) => decide (ss = .dword ∧ d = .r0)
  | .rlcM ss _ (.onReg d) | .rrcM ss _ (.onReg d) | .rlM ss _ (.onReg d) | .rrM ss _ (.onReg d)
  | .slaM ss _ (.onReg d) | .sraM ss _ (.onReg d) | .srlM ss _ (.onReg d) => decide (ss = .dword ∧ d = .r0)
  | .extR ss d => decide (ss = .dword ∧ d = .r0)
  | .mltR ss d | .divR ss d | .sdivR ss d => decide (mltDivTarget m ss = some .dword ∧ d = .r0)
  | _ => false

/-- The forms that write F as data (R34): what they write may set or clear IFF1 and IFF2. -/
def writesFAsData : Instr → Bool
  | .ldR ss d _ | .setR ss d _ | .resR ss d _ | .exhR ss d => decide (ss = .dword ∧ d = .r0)
  | .ldM ss _ (.toReg d) => decide (ss = .dword ∧ d = .r0)
  | .setM ss _ (.onReg d) | .resM ss _ (.onReg d) => decide (ss = .dword ∧ d = .r0)
  | .exR ss d r => decide (ss = .dword ∧ (d = .r0 ∨ r = .r0))
  | .exM ss _ r _ => decide (ss = .dword ∧ r = .r0)
  | .exAlt ss r => decide (ss = .dword ∧ r = .r0)
  | .pop r => decide (r = .af)
  | _ => false

/-! ## What an instruction leaves unchanged -/

/-- The 16-bit registers that a register field names, or whose pair it names (R20, R23, R96). -/
def fieldWords : Size → RegField → List Reg16
  | .byte, d => [d.reg16]
  | .word, d => [d.reg16]
  | .dword, .r0 => [.a]
  | .dword, .r1 => [.b, .c]
  | .dword, .r2 => [.d, .e]
  | .dword, .r3 => [.h, .l]
  | .dword, _ => []

/-- The index register or stack pointer that a register field names (R25, R26). -/
def fieldIndex : Size → RegField → List Reg32
  | .dword, .r4 => [.ix]
  | .dword, .r5 => [.iy]
  | .dword, .r6 => [.sp]
  | _, _ => []

/-- Every register outside the two lists is unchanged; F is spoken of separately. -/
structure BankFrame (words : List Reg16) (index : List Reg32) (g h : Bank) : Prop where
  words : ∀ r, r ∉ words → h.get16 r = g.get16 r
  index : ∀ x, x ∈ [Reg32.ix, .iy, .sp] → x ∉ index → h.get32 x = g.get32 x

/-- Every bit of F that is no arithmetic flag is unchanged: IE and the reserved bits (R31). -/
def SameStatus (s t : State) : Prop := t.reg.f &&& ~~~0x00D7#16 = s.reg.f &&& ~~~0x00D7#16

/-- The upper byte of a register, which a byte operation keeps (R21). -/
def State.upperByte (s : State) (d : RegField) : Byte := (s.get16 d.reg16).extractLsb' 8 8

/-- Nothing changes but the register `d` of size `ss`, the lower byte of it at byte size, and arithmetic flags. -/
structure RegFrame (ss : Size) (d : RegField) (s t : State) : Prop where
  bank : BankFrame (fieldWords ss d) (fieldIndex ss d) s.reg t.reg
  status : SameStatus s t
  upper : ss = .byte → t.upperByte d = s.upperByte d
  rest : t = { s with reg := t.reg }

/-- Nothing changes but arithmetic flags. -/
structure FlagFrame (s t : State) : Prop where
  status : SameStatus s t
  rest : t = { s with reg := { s.reg with f := t.reg.f } }

/-- The number of bytes of an operand (R8). -/
def sizeBytes : Size → Nat
  | .byte => 1
  | .word => 2
  | .dword => 4

/-- Byte `k` of a value (R64). -/
def byteOf {w : Nat} (v : BitVec w) (k : Nat) : Byte := v.extractLsb' (8 * k) 8

/-- The physical address of byte `k` of an access at `a`: formed modulo 2^32, then cut to 24 bits (R61, R62). -/
def cellAt (a : Dword) (k : Nat) : Nat := ((a.toNat + k) % 2 ^ 32) % 2 ^ 24

/-- A write of `v` at `a` and nothing else of memory (R63): where memory was in its canonical form, a byte in RAM holds
its part of `v`; every byte outside the written RAM bytes is unchanged, ROM and empty addresses among them; a
peripheral receives its part as an event, in ascending order (R71). -/
structure Stored (ss : Size) (a : Dword) (v : BitVec ss.bits) (s t : State) : Prop where
  written : s.mem.wf = true → ∀ k, k < sizeBytes ss → s.kindAt (cellAt a k) = .ram → t.mem.read (cellAt a k) = byteOf v k
  kept : ∀ p, (∀ k, k < sizeBytes ss → s.kindAt p = .ram → p ≠ cellAt a k) → t.mem.read p = s.mem.read p
  events : t.trace = s.trace ++ (List.range (sizeBytes ss)).filterMap fun k =>
    if s.kindAt (cellAt a k) = .device then some (.memWrite (cellAt a k) (byteOf v k)) else none

/-- A read-modify-write of memory changes nothing but the written bytes and arithmetic flags. -/
structure MemFrame (ss : Size) (a : Dword) (v : BitVec ss.bits) (s t : State) : Prop where
  stored : Stored ss a v s t
  status : SameStatus s t
  rest : t = { s with reg := { s.reg with f := t.reg.f }, mem := t.mem, trace := t.trace }

/-- F takes `v` as data (R34, D13, D14): the mask, IFF2 with IE, and the inhibit; when IFF1 was already 1 the inhibit may
start or not (U11), and then nothing is said of it. -/
structure FWritten (v : Word) (s t : State) : Prop where
  value : t.reg.f = v &&& 0x01D7#16
  iff2 : t.iff2 = v.getLsbD 8
  started : v.getLsbD 8 = true → s.iff1 = false → t.inhibit = true
  kept : v.getLsbD 8 = false → t.inhibit = s.inhibit

/-- A register takes `v`, no arithmetic flag is set, and nothing else changes (R10, R140): AF takes its low word as
data. -/
structure RegWritten (ss : Size) (d : RegField) (v : BitVec ss.bits) (s t : State) : Prop where
  plain : (ss = .dword → d ≠ .r0) → t.getReg ss d = v ∧ t.reg.f = s.reg.f ∧ RegFrame ss d s t
  af : ss = .dword → d = .r0 →
    t.reg.a = (v.setWidth 32).extractLsb' 16 16 ∧ FWritten (v.setWidth 16) s t ∧
      t = { s with reg := { s.reg with a := t.reg.a, f := t.reg.f }, iff2 := t.iff2, inhibit := t.inhibit }

/-- A dword on the stack (R13): SP is 4 lower, the dword stands there, nothing else changes. -/
structure Pushed (v : Dword) (s t : State) : Prop where
  stored : Stored .dword (s.reg.sp - 4) v s t
  rest : t = { s with reg := { s.reg with sp := s.reg.sp - 4 }, mem := t.mem, trace := t.trace }

/-! ## Flags, by integers and by bits -/

/-- The number of 1 bits of a value (R15). -/
def ones {w : Nat} (v : BitVec w) : Nat := ((List.range w).filter fun i => v.getLsbD i).length

/-- The flags of `a + b + c` (R15 `AddFlags`, R30, R32): C is the carry out of the top bit, H the carry into bit 4,
P/V says that the two's complement sum does not fit. -/
structure SumFlags {w : Nat} (a b : BitVec w) (c : Bool) (f : Flags) : Prop where
  s : f.s = (a + b + BitVec.ofNat w c.toNat).msb
  z : f.z = true ↔ a + b + BitVec.ofNat w c.toNat = 0#w
  h : f.h = (a ^^^ b ^^^ (a + b + BitVec.ofNat w c.toNat)).getLsbD 4
  pv : f.pv = true ↔ (a + b + BitVec.ofNat w c.toNat).toInt ≠ a.toInt + b.toInt + c.toNat
  n : f.n = false
  c : f.c = true ↔ (a + b + BitVec.ofNat w c.toNat).toNat ≠ a.toNat + b.toNat + c.toNat

/-- The flags of `a - b - c` (R15 `SubFlags`): C is the borrow, H the borrow from bit 4. -/
structure DifferenceFlags {w : Nat} (a b : BitVec w) (c : Bool) (f : Flags) : Prop where
  s : f.s = (a - b - BitVec.ofNat w c.toNat).msb
  z : f.z = true ↔ a - b - BitVec.ofNat w c.toNat = 0#w
  h : f.h = (a ^^^ b ^^^ (a - b - BitVec.ofNat w c.toNat)).getLsbD 4
  pv : f.pv = true ↔ (a - b - BitVec.ofNat w c.toNat).toInt ≠ a.toInt - b.toInt - c.toNat
  n : f.n = true
  c : f.c = true ↔ (a.toNat : Int) - b.toNat - c.toNat < 0

/-- The flags of a logical result (R15 `LogicFlags`): P/V is even parity. -/
structure LogicalFlags {w : Nat} (r : BitVec w) (h : Bool) (f : Flags) : Prop where
  s : f.s = r.msb
  z : f.z = true ↔ r = 0#w
  h : f.h = h
  pv : f.pv = true ↔ ones r % 2 = 0
  n : f.n = false
  c : f.c = false

/-- The flags of a shift or rotate (R240): as a logical result, C the bit moved out last. -/
structure ShiftFlags {w : Nat} (r : BitVec w) (c : Bool) (f : Flags) : Prop where
  s : f.s = r.msb
  z : f.z = true ↔ r = 0#w
  h : f.h = false
  pv : f.pv = true ↔ ones r % 2 = 0
  n : f.n = false
  c : f.c = c

/-! ## Shifts and digits -/

/-- The instructions of one kind shift or rotate (R240): by the immediate, register or memory count, not reduced, the
one-position step repeated from the value and C before. -/
def ShiftsBy (kind : ShiftKind) (onReg : Size → RegField → Count → Instr) (onMem : Size → Addr → CountForm → Instr) :
    Prop :=
  (∀ ss d n s, (ss = .dword → d ≠ .r0) → ∃ t, exec (onReg ss d n) s = .next t ∧ RegFrame ss d s t ∧
    (let r := shiftRepeat kind (s.countVal ss n) s.flags.c (s.getReg ss d)
     t.getReg ss d = r.1 ∧ ShiftFlags r.1 r.2 t.flags)) ∧
  (∀ ss ea n s, ∃ t, exec (onMem ss ea (.onMem n)) s = .next t ∧
    (let r := shiftRepeat kind (s.countVal ss n) s.flags.c (s.load .data ss (s.ea ea))
     MemFrame ss (s.ea ea) r.1 s t ∧ ShiftFlags r.1 r.2 t.flags)) ∧
  ∀ ss ea d s, (ss = .dword → d ≠ .r0) → ∃ t, exec (onMem ss ea (.onReg d)) s = .next t ∧ RegFrame ss d s t ∧
    (let r := shiftRepeat kind (s.load .data ss (s.ea ea)).toNat s.flags.c (s.getReg ss d)
     t.getReg ss d = r.1 ∧ ShiftFlags r.1 r.2 t.flags)

/-- The byte at (HL) becomes `m`, the low byte of A becomes `a`, the flags are those of `a` with C kept, and nothing else
changes (R248, R249). -/
structure DigitsRotated (m a : Nat) (s t : State) : Prop where
  stored : Stored .byte (s.reg.h ++ s.reg.l) (BitVec.ofNat 8 m) s t
  low : t.reg.a.setWidth 8 = BitVec.ofNat 8 a
  high : t.reg.a.extractLsb' 8 8 = s.reg.a.extractLsb' 8 8
  flags : ∃ g, LogicalFlags (BitVec.ofNat 8 a) false g ∧ t.flags = { g with c := s.flags.c }
  status : SameStatus s t
  rest : t = { s with reg := { s.reg with a := t.reg.a, f := t.reg.f }, mem := t.mem, trace := t.trace }

/-! ## Branches -/

/-- The address a displacement is added to (R270 (c)): `pcn` or `pc0`, by `REL_BASE`. -/
def State.relativeBase (s : State) : Dword :=
  match s.cfg.relBase with
  | .next => s.pc
  | .self => s.pc0

/-- A branch target, by integer arithmetic modulo 2^32. -/
def State.branchTarget (s : State) (displacement : Int) : Dword :=
  BitVec.ofInt 32 ((s.relativeBase.toNat : Int) + displacement)

/-- What a return does (R278): the dword at SP becomes PC, and SP is 4 higher; the flip-flops are left to RETI and
RETN. -/
structure Returned (s t : State) : Prop where
  pc : t.pc = s.load .stack .dword s.reg.sp
  rest : t = { s with reg := { s.reg with sp := s.reg.sp + 4, f := t.reg.f }, pc := t.pc, iff2 := t.iff2
                      inhibit := t.inhibit }

/-! ## Block instructions: one iteration, the counter and PC apart -/

/-- The BC pair after the decrement is not 0 (R170). -/
def State.countLeft (s : State) : Bool := decide (s.reg.b ++ s.reg.c ≠ 1#32)

/-- B after the decrement is not 0 (R170). -/
def State.transfersLeft (s : State) : Bool := decide (s.reg.b ≠ 1#16)

/-- One element copied from (HL) to (DE), both pointers moved by `step` (R172, R174). -/
structure CopiedOne (z : NSize) (step : Dword) (s t : State) : Prop where
  stored : Stored z.size (s.reg.d ++ s.reg.e) (s.load .data z.size (s.reg.h ++ s.reg.l)) s t
  hl : t.reg.h ++ t.reg.l = (s.reg.h ++ s.reg.l : Dword) + step
  de : t.reg.d ++ t.reg.e = (s.reg.d ++ s.reg.e : Dword) + step
  bc : t.reg.b ++ t.reg.c = (s.reg.b ++ s.reg.c : Dword) - 1
  flags : t.flags = { s.flags with h := false, pv := s.countLeft, n := false }
  bank : BankFrame [.b, .c, .d, .e, .h, .l] [] s.reg t.reg
  status : SameStatus s t
  rest : t = { s with reg := t.reg, mem := t.mem, trace := t.trace, pc := t.pc }

/-- The pointer HL moved by `step` and BC counted down; flags, status and PC apart, nothing else changes (R176, R180). -/
structure ScannedOne (step : Dword) (s t : State) : Prop where
  hl : t.reg.h ++ t.reg.l = (s.reg.h ++ s.reg.l : Dword) + step
  bc : t.reg.b ++ t.reg.c = (s.reg.b ++ s.reg.c : Dword) - 1
  bank : BankFrame [.b, .c, .h, .l] [] s.reg t.reg
  status : SameStatus s t
  rest : t = { s with reg := t.reg, pc := t.pc }

/-- The pointer HL moved by `step` and B counted down, Z and N set, no other register changed (R184, R188). -/
structure TransferredOne (step : Dword) (s t : State) : Prop where
  hl : t.reg.h ++ t.reg.l = (s.reg.h ++ s.reg.l : Dword) + step
  b : t.reg.b = s.reg.b - 1
  flags : t.flags = { s.flags with z := !s.transfersLeft, n := true }
  bank : BankFrame [.b, .h, .l] [] s.reg t.reg
  status : SameStatus s t

/-- The instruction copies one element, and goes on to the next instruction or, if it repeats and its counter has not
run out, stays (R171, R173). -/
def Copies (i : Instr) (z : NSize) (step : Dword) (repeats : Bool) : Prop :=
  ∀ s, ∃ t, exec i s = .next t ∧ CopiedOne z step s t ∧ t.pc = if repeats && s.countLeft then s.pc0 else s.pc

/-- The instruction compares A with the element at (HL) (R176 to R179): S, Z, H, N of the difference, C kept; P/V says
that the counter has not run out, or, in the repeating forms, that there was no match. -/
def Compares (i : Instr) (z : NSize) (step : Dword) (repeats : Bool) : Prop :=
  ∀ s, ∃ t g, exec i s = .next t ∧ ScannedOne step s t ∧
    DifferenceFlags (s.getReg z.size .r0) (s.load .data z.size (s.reg.h ++ s.reg.l)) false g ∧
    (let isMatch := decide (s.getReg z.size .r0 = s.load .data z.size (s.reg.h ++ s.reg.l))
     t.flags = { g with c := s.flags.c, pv := if repeats then !isMatch else s.countLeft } ∧
     t.pc = if repeats && s.countLeft && !isMatch then s.pc0 else s.pc)

/-- What ends TSIR and TSDR besides the counter (R181 `match`). -/
def State.testMatches (s : State) (z : NSize) (v : BitVec z.size.bits) : Bool :=
  match s.cfg.tsxrStop with
  | .equal => decide (v = s.getReg z.size .r0)
  | .andZero => decide (s.getReg z.size .r0 &&& v = 0)
  | .andNonzero => decide (s.getReg z.size .r0 &&& v ≠ 0)

/-- The instruction tests A with the element at (HL) (R180 to R183): S and Z of the AND, N set, C kept, nothing said of H
(U12); P/V as in the CP family, the repeating forms ending by `TSXR_STOP`. -/
def Tests (i : Instr) (z : NSize) (step : Dword) (repeats : Bool) : Prop :=
  ∀ s, ∃ t, exec i s = .next t ∧ ScannedOne step s t ∧
    (let v := s.load .data z.size (s.reg.h ++ s.reg.l)
     let r := s.getReg z.size .r0 &&& v
     t.flags = { s := r.msb, z := decide (r = 0), h := t.flags.h, n := true, c := s.flags.c,
                 pv := if repeats then !s.testMatches z v else s.countLeft } ∧
     t.pc = if repeats && s.countLeft && !s.testMatches z v then s.pc0 else s.pc)

/-- The value a device answers to the next I/O read: the script's next value, a free value after its end (R70, U19). -/
def State.nextInput (s : State) : Word := s.ioIn.headD (Config.ioValue s.tick)

/-- The instruction reads port (C) into memory at (HL) (R184 to R187): the state `u` after the read, then the store. -/
def Inputs (i : Instr) (z : NSize) (step : Dword) (repeats : Bool) : Prop :=
  ∀ s, ∃ u t, exec i s = .next t ∧
    u = { s with ioIn := s.ioIn.tail,
                 trace := s.trace ++ [.ioRead z s.reg.c ((s.nextInput.setWidth z.size.bits).setWidth 16)] } ∧
    Stored z.size (s.reg.h ++ s.reg.l) (s.nextInput.setWidth z.size.bits) u t ∧ TransferredOne step s t ∧
    t = { u with reg := t.reg, mem := t.mem, trace := t.trace, pc := t.pc } ∧
    t.pc = if repeats && s.transfersLeft then s.pc0 else s.pc

/-- The instruction writes the element at (HL) to port (C) (R188 to R191). -/
def Outputs (i : Instr) (z : NSize) (step : Dword) (repeats : Bool) : Prop :=
  ∀ s, ∃ t, exec i s = .next t ∧ TransferredOne step s t ∧
    t = { s with
      reg := t.reg, pc := t.pc
      trace := s.trace ++ [.ioWrite z s.reg.c ((s.load .data z.size (s.reg.h ++ s.reg.l)).setWidth 16)] } ∧
    t.pc = if repeats && s.transfersLeft then s.pc0 else s.pc

end Sys2Proof.Machine
end

