-- ==== Sys2Proof/Certificates/Slice0/Obligations.lean ====
section
/-! DEFINITION. The statements about the machine: what each instruction does and leaves alone, the encoding, the step,
the interrupts, and the invariant. Each docstring says what is the spec's own choice or the model's. -/

open Sys2Proof Sys2Proof.Machine

/-- State.reset satisfies State.Inv: memory in canonical form, reserved bits of F zero, IFF1 implies IFF2, the inhibit
implies IFF1, a waiting machine has no inhibit, bits 21:16 of IVB are zero. The values the rules leave unstated are
the model's choice (log 2, log 3). That IFF2, the inhibit and halted are 0 is the spec's own choice (D25, log 4). -/
def Obligations.ResetMeetsInvariant : Prop :=
    State.reset.Inv

/-- In State.reset SP, IVB, R and F are 0, IM is the parameter IM_RESET, and PC is the little-endian dword its memory
gives at logical address 0. That IFF2, the inhibit, halted and nmi_pending are 0 is the spec's own choice (D25);
what unlisted memory reads as, and every register the rules leave unstated, is the model's (log 2, log 3, log 5). -/
def Obligations.ResetStateHoldsStatedValues : Prop :=
    let t := State.reset
    t.reg.sp = 0#32 ∧ t.ivb = 0#22 ∧ t.r = 0#16 ∧ t.reg.f = 0#16 ∧ t.iff2 = false ∧ t.inhibit = false ∧
    t.halted = false ∧ t.nmiPending = false ∧ t.im = t.cfg.imReset ∧
    ∀ k, k < 4 → byteOf t.pc k = t.readByte .resetVector (BitVec.ofNat 32 k)

/-- For every state s that satisfies State.Inv, if step s answers next t then t satisfies State.Inv. That IFF2 is
cleared with IFF1 on a maskable interrupt is the spec's own choice (R330, D16); that an interrupt ends the inhibit
is the model's (log 19). That the reserved bits of F read 0 (D13), that a write of F as data writes IFF2 too (D14),
and that LD I clears bits 21:16 of IVB (D27) are the spec's own choices as well (log 4). -/
def Obligations.StepKeepsInvariant : Prop :=
    ∀ s t : State, s.Inv → step s = .next t → t.Inv

/-- After State.resetSequence SP, IVB, R and F are 0, IM is the parameter IM_RESET, PC is the little-endian dword read
at logical address 0, ROM keeps its bytes, and the parameters are unchanged. That IFF2, the inhibit, halted and
nmi_pending are 0 is the spec's own choice (D25); that ROM is kept is the model's (log 15). -/
def Obligations.ResetSequenceLoadsVector : Prop :=
    ∀ s : State, let t := s.resetSequence
    t.reg.sp = 0#32 ∧ t.ivb = 0#22 ∧ t.r = 0#16 ∧ t.reg.f = 0#16 ∧ t.iff2 = false ∧ t.inhibit = false ∧
    t.halted = false ∧ t.nmiPending = false ∧ t.im = s.cfg.imReset ∧ t.cfg = s.cfg ∧
    (∀ k, k < 4 → byteOf t.pc k = t.readByte .resetVector (BitVec.ofNat 32 k)) ∧
    ∀ p, s.kindAt p = .rom → t.mem.read p = s.mem.read p

/-- The bytes fetched are ten: byte k is the memory byte at the physical address of PC + k where that is RAM or ROM, a
free value of a peripheral where it is a device (log 13), a free value where nothing stands (log 14). That PC + k is
taken modulo 2^32 and then cut to 24 bits is the spec's own choice (D2, D3, log 4); that they are the bytes of
memory as it stands when the step begins, with no prefetch, is its own choice too (D30, R77, log 26; unsafe on a
machine that prefetches); that always ten bytes are looked at is the model's (log 18). When the machine is not
halted and these bytes decode to i with a rest, step s is exec i at the state whose pc0 is the old PC, whose PC is
past the instruction, whose inhibit is clear and whose step counter is one higher, followed by the sampling point; a
fault or refusal of exec is the step's. -/
def Obligations.StepRunsDecodedInstruction : Prop :=
    (∀ s : State, s.fetchBytes.length = 10 ∧ ∀ k, k < 10 → s.fetchBytes[k]? = some (match s.kindAt (cellAt s.pc k) with
      | .ram => s.mem.read (cellAt s.pc k)
      | .rom => s.mem.read (cellAt s.pc k)
      | .device => Config.deviceByte s.tick .fetch (cellAt s.pc k)
      | .empty => Config.openBus s.tick .fetch (cellAt s.pc k))) ∧
    ∀ (s : State) (i : Instr) (rest : List Byte), s.halted = false →
    decode s.cfg.mltDivSS s.fetchBytes = .ok (i, rest) →
    let e := { s with pc0 := s.pc, pc := s.pc + BitVec.ofNat 32 (10 - rest.length), inhibit := false,
                      tick := s.tick + 1 }
    step s = match exec i e with
      | .next t => .next t.sample
      | .fault r => .fault r
      | .refused r => .refused r

/-- When the machine is not halted and the bytes at PC begin with encode i for a well-formed i, step s is exec i at the
entered state (PC moved past exactly the encoding's bytes), followed by the sampling point. -/
def Obligations.StepRunsEncodedInstruction : Prop :=
    ∀ (s : State) (i : Instr), s.halted = false → i.wf s.cfg.mltDivSS = true → encode i <+: s.fetchBytes →
    step s = sampled (exec i (s.enter (encode i).length))

/-- When not halted and the bytes at PC decode to an error, step faults with that reason and changes nothing. When
halted, step answers the sampling point of the same state with its step counter one higher: no instruction is
fetched. That such bytes are a fault, never a trap or a NOP, is the spec's own choice (D29, log 18); that one wait
is one step is the model's (log 30). -/
def Obligations.StepWithoutInstruction : Prop :=
    (∀ (s : State) (why : Illegal), s.halted = false → decode s.cfg.mltDivSS s.fetchBytes = .error why →
      step s = .fault (.illegal why)) ∧
    ∀ s : State, s.halted = true → step s = .next (State.sample { s with tick := s.tick + 1 })

/-- With the pins' next sample p, or no request when the list of samples is empty: the list is consumed and an NMI edge
is latched; then a reset is taken if asserted; otherwise an NMI if latched, now or before; otherwise INT if asserted
with IFF1 = 1 and no inhibit; otherwise nothing. The list of pin samples, and that its end means no request, is the
model's (log 12); INT as a level and NMI as a latched edge, and the priority, are the spec's own choices (D38, D39,
log 4, log 27). -/
def Obligations.SamplingTakesHighestPriority : Prop :=
    ∀ s : State, let p := s.pins.headD { reset := false, nmi := false, int := false, vector := 0#8 }
    let t := { s with pins := s.pins.tail, nmiPending := s.nmiPending || p.nmi }
    s.sample = if p.reset then t.resetSequence else if s.nmiPending || p.nmi then t.enterNmi
      else if p.int && s.iff1 && !s.inhibit then t.enterInt p.vector else t

/-- NMI: IFF2 takes IFF1, IFF1 and nmi_pending are cleared, PC is pushed, PC is loaded from vector 2. INT: IFF1 and IFF2
are cleared, PC is pushed, PC is loaded from vector 1 in IM 1 and from the device's byte in IM 2. Both end a HALT,
keep the six flags, and change nothing else. That entry clears the inhibit is the model's reading of R329 (log 19);
that INT clears IFF2, that exactly the 32-bit PC is pushed, and the push below SP and the device's byte used in full
are the spec's own choices (D16, D17, D4, D48, log 4; D16 and D4 PRESUMED from the Z80, log 27). -/
def Obligations.HardwareInterruptEntry : Prop :=
    (∀ s : State, let t := s.enterNmi
      t.iff1 = false ∧ t.iff2 = s.iff1 ∧ t.nmiPending = false ∧
      t.flags = s.flags ∧ t.reg.f &&& ~~~0x0100#16 = s.reg.f &&& ~~~0x0100#16 ∧
      Stored .dword (s.reg.sp - 4) s.pc s t ∧ t.pc = t.load .intVector .dword (BitVec.ofNat 32 (s.ivb.toNat * 1024 + 8)) ∧
      t = { s with reg := { s.reg with f := t.reg.f, sp := s.reg.sp - 4 }, pc := t.pc, iff2 := t.iff2, inhibit := false,
                   halted := false, nmiPending := t.nmiPending, mem := t.mem, trace := t.trace }) ∧
    ∀ (s : State) (v : Byte), let t := s.enterInt v
      t.iff1 = false ∧ t.iff2 = false ∧ t.nmiPending = s.nmiPending ∧
      t.flags = s.flags ∧ t.reg.f &&& ~~~0x0100#16 = s.reg.f &&& ~~~0x0100#16 ∧
      Stored .dword (s.reg.sp - 4) s.pc s t ∧ t.pc = t.load .intVector .dword (BitVec.ofNat 32 (s.ivb.toNat * 1024 + 4 * (if s.im = .im1 then 1 else v.toNat))) ∧
      t = { s with reg := { s.reg with f := t.reg.f, sp := s.reg.sp - 4 }, pc := t.pc, iff2 := t.iff2, inhibit := false,
                   halted := false, nmiPending := t.nmiPending, mem := t.mem, trace := t.trace }

/-- If step s answers next t, then t has the same parameters and memory map as s, its step counter is one higher, and
its list of pin samples is the tail of that of s. The fields are the model's own (log 1, log 7, log 12). -/
def Obligations.StepKeepsParametersAndCounts : Prop :=
    ∀ s t : State, step s = .next t → t.cfg = s.cfg ∧ t.tick = s.tick + 1 ∧ t.pins = s.pins.tail

/-- If exec i s answers next t: the alternate set differs only if i is EX r,r', EXX or EXI; IVB only if i is LD I; R
only if i is LD R,A; IM only if i is IM 1 or IM 2; halted only if i is HALT; nmi_pending never. That no other
instruction changes R rests on the spec's own choice that the counting of the refresh counter is not modelled (R36,
D28, log 9): it says nothing of a chip whose R counts. -/
def Obligations.AlternatesAndSystemRegistersHaveListedWriters : Prop :=
    ∀ (i : Instr) (s t : State), exec i s = .next t →
    (t.alt ≠ s.alt → (∃ ss r, i = .exAlt ss r) ∨ i = .exx ∨ i = .exi) ∧ (t.ivb ≠ s.ivb → ∃ nn, i = .ldI nn) ∧
    (t.r ≠ s.r → i = .ldRA) ∧ (t.im ≠ s.im → i = .im1 ∨ i = .im2) ∧ (t.halted ≠ s.halted → i = .halt) ∧
    t.nmiPending = s.nmiPending

/-- If exec i s answers next t and IFF1, IFF2 or the inhibit of t differs from that of s, then i is EI, DI, RETI, RETN
or one of the forms that write F as data (LD, EX, EX AF,AF', EXH, POP, SET, RES with AF). That a write of F as data
writes IFF2 and can start the inhibit (D14), and that RETI sets both flip-flops (D15), are the spec's own choices
(log 4). -/
def Obligations.InterruptEnableHasListedWriters : Prop :=
    ∀ (i : Instr) (s t : State), exec i s = .next t → (t.iff1 ≠ s.iff1 ∨ t.iff2 ≠ s.iff2 ∨ t.inhibit ≠ s.inhibit) →
    i = .ei ∨ i = .di ∨ (∃ cc, i = .reti cc) ∨ (∃ cc, i = .retn cc) ∨ writesFAsData i = true

/-- For every instruction i that is well-formed under the state's MLTDIV_SS and does not write AF as an arithmetic
destination, exec i s answers a next state, in every state s: no memory access, division or flag stops the machine.
That no address faults (D2) and a division by 0 goes on (D34) are the spec's own choices (log 4), and so is the
refusal of AF (D37, log 17). -/
def Obligations.EveryInstructionCompletes : Prop :=
    ∀ (i : Instr) (s : State), i.wf s.cfg.mltDivSS = true → writesAFByArithmetic s.cfg.mltDivSS i = false →
    ∃ t, exec i s = .next t

/-- Every form that writes AF as the destination of an arithmetic, logical, shift or rotate instruction is refused by
name, in every state. MLT, DIV and SDIV with a size that MLTDIV_SS does not list fault as illegal. The refusal (D37,
log 17) and the illegal size (D47, log 4) are the spec's own choices. -/
def Obligations.UndefinedFormsStop : Prop :=
    (∀ (i : Instr) (s : State), writesAFByArithmetic s.cfg.mltDivSS i = true → exec i s = .refused .afDestination) ∧
    ∀ (ss : Size) (r : RegField) (ea : IndAddr) (s : State), ss.mltDivLegal s.cfg.mltDivSS = false →
      exec (.mltR ss r) s = .fault (.illegal .size) ∧ exec (.divR ss r) s = .fault (.illegal .size) ∧
      exec (.sdivR ss r) s = .fault (.illegal .size) ∧ exec (.mltM ss ea) s = .fault (.illegal .size) ∧
      exec (.divM ss ea) s = .fault (.illegal .size) ∧ exec (.sdivM ss ea) s = .fault (.illegal .size)

/-- For both values of MLTDIV_SS, every well-formed instruction i and every list of bytes after it, decode of encode i
followed by the list is i with that list left over: no operand bit is dropped and no two instructions share an
encoding. -/
def Obligations.DecodeOfEncode : Prop :=
    ∀ (m : Config.MltDivSS) (i : Instr) (rest : List Byte), i.wf m = true →
    decode m (encode i ++ rest) = .ok (i, rest)

/-- If decode answers instruction i with a rest, then the bytes are exactly encode i followed by the rest, and i is
well-formed: every accepted byte sequence is the one encoding of its instruction, so reserved encodings never fall
through to a neighbour. -/
def Obligations.DecodedBytesAreTheEncoding : Prop :=
    ∀ (m : Config.MltDivSS) (bytes rest : List Byte) (i : Instr), decode m bytes = .ok (i, rest) →
    bytes = encode i ++ rest ∧ i.wf m = true

/-- LD A,0x1234 is 00 E1 34 12; ADD.b B,0xFF is 10 E4 FF; LD (SP-4),C is 01 C9 FC FF; BIT.B 3,(IY+0x100) is 35 BC 00 01
03; PUSH AF is 02 42; INC (0x4000) word is 06 F1 00 40 00 00; JR Z,+5 is 1A E2 05; CPIR (word) is 1E 05; LD I,0x1234
is 8E 07 34 12; NOP is 0F; DJNZ -6 is 1F FA. The byte order of the instruction word (D1), the lengths of the
immediates (D5), the register a field names at dword size (D6) and the immediate with a memory destination (D8) are
the spec's own choices (log 4). -/
def Obligations.ManualExamplesDecode : Prop :=
    decode .half [0x00, 0xE1, 0x34, 0x12] = .ok (.ldR .word .r0 (.imm 0x1234), []) ∧
    decode .half [0x10, 0xE4, 0xFF] = .ok (.addR .byte .r1 (.imm 0xFF), []) ∧
    decode .half [0x01, 0xC9, 0xFC, 0xFF] = .ok (.ldM .word (.idx .sp 0xFFFC) (.toMem (.reg .r2)), []) ∧
    decode .half [0x35, 0xBC, 0x00, 0x01, 0x03] = .ok (.bitM .byte (.idx .iy 0x100) (.onMem (.imm 3)), []) ∧
    decode .half [0x02, 0x42] = .ok (.push .dword (.reg .r0), []) ∧
    decode .half [0x06, 0xF1, 0x00, 0x40, 0x00, 0x00] = .ok (.incM .word (.direct 0x4000), []) ∧
    decode .half [0x1A, 0xE2, 0x05] = .ok (.jrS8 .z (.imm 5), []) ∧
    decode .half [0x1E, 0x05] = .ok (.cpirW, []) ∧
    decode .half [0x8E, 0x07, 0x34, 0x12] = .ok (.ldI 0x1234, []) ∧
    decode .half [0x0F] = .ok (.nop, []) ∧ decode .half [0x1F, 0xFA] = .ok (.djnz 0xFA, [])

/-- After State.store of any size at a, a load of any size and kind at b gives what it gave before, if no byte of the
load has the physical address of a byte of the store; also across the end of the logical or physical address space,
and when either touches ROM, a peripheral or an empty address. Where the load touches a peripheral or an empty
address this rests on the model's free values, which are fixed by the step, the kind of access and the address
(DESIGN CHOICE, log 13, log 14): a device's register may change when another is written. That byte k of an access
stands at its address plus k modulo 2^32, cut to 24 bits, is the spec's own choice (D2, D3, D45, log 4). -/
def Obligations.StoreLeavesOtherLoads : Prop :=
    ∀ (s : State) (k : Config.Access) (ss sz : Size) (a b : Dword) (v : BitVec ss.bits),
    (∀ i, i < sizeBytes sz → ∀ j, j < sizeBytes ss → cellAt b i ≠ cellAt a j) →
    (s.store ss a v).load k sz b = s.load k sz b

/-- Byte j of State.load at a is the memory byte at the physical address of a + j where that is RAM or ROM, a free value
of a peripheral where it is a device (log 13), a free value where nothing stands (log 14). That byte k of an access
stands at its address plus k modulo 2^32, cut to 24 bits, is the spec's own choice (D2, D3, D45, log 4). -/
def Obligations.LoadReadsLittleEndian : Prop :=
    ∀ (s : State) (k : Config.Access) (ss : Size) (a : Dword) (j : Nat), j < sizeBytes ss →
    byteOf (s.load k ss a) j =
      match s.kindAt (cellAt a j) with
      | .ram => s.mem.read (cellAt a j)
      | .rom => s.mem.read (cellAt a j)
      | .device => Config.deviceByte s.tick k (cellAt a j)
      | .empty => Config.openBus s.tick k (cellAt a j)

/-- When memory is in canonical form and every byte of the access is in RAM, loading after storing v at the same address
and size gives v; also across the end of the logical or physical address space. That byte k of an access stands at
its address plus k modulo 2^32, cut to 24 bits, is the spec's own choice (D2, D3, D45, log 4). -/
def Obligations.StoreThenLoadGivesValue : Prop :=
    ∀ (s : State) (k : Config.Access) (ss : Size) (a : Dword) (v : BitVec ss.bits), s.mem.wf = true →
    (∀ j, j < sizeBytes ss → s.kindAt (cellAt a j) = .ram) → (s.store ss a v).load k ss a = v

/-- A byte write followed by a word read gives the old upper byte above the new byte. A dword write of BC, DE or HL is
read back as its high and low words in B and C, D and E, H and L, and a word write of either half shows in the pair.
A write of AF reads back with F masked by 0x01D7, and IFF2 takes bit 8. The mask and the copy to IFF2 (D13, D14) and
the pair a field names at dword size (D6) are the spec's own choices (log 4). -/
def Obligations.SizedRegisterViews : Prop :=
    (∀ (s : State) (d : RegField) (v : Byte), ((s.setReg .byte d v).getReg .word d).toNat =
      (s.getReg .word d).toNat / 256 * 256 + v.toNat) ∧
    (∀ (s : State) (d hi lo : RegField), (d, hi, lo) ∈ [(.r1, .r1, .r2), (.r2, .r3, .r4), (.r3, .r5, .r6)] →
      (∀ v : Dword, ((s.setReg .dword d v).getReg .word hi).toNat = v.toNat / 65536 ∧
        ((s.setReg .dword d v).getReg .word lo).toNat = v.toNat % 65536) ∧
      ∀ w : Word, ((s.setReg .word hi w).getReg .dword d).toNat = w.toNat * 65536 + (s.getReg .word lo).toNat ∧
        ((s.setReg .word lo w).getReg .dword d).toNat = (s.getReg .word hi).toNat * 65536 + w.toNat) ∧
    ∀ (s : State) (v : Dword), (s.setReg .dword .r0 v).getReg .dword .r0 = v &&& 0xFFFF01D7#32 ∧
      (s.setReg .dword .r0 v).iff2 = v.getLsbD 8

/-- An indexed address is the register plus the sign-extended displacement modulo 2^32; a direct one is itself; a pair
is its two registers; an immediate is cut to the operand width; a byte immediate count or port is zero-extended; a
jump target is a register or the direct address; the six flags are the bits 7, 6, 4, 2, 1, 0 of F. Addresses modulo
2^32 (D3), all 16 bits of a port register and the zero-extended port number (D32), and a shift count that is not
reduced (D11) are the spec's own choices (log 4). -/
def Obligations.OperandValues : Prop :=
    ∀ s : State, (∀ dd, s.ea (.idx .ix dd) = BitVec.ofInt 32 (s.reg.ix.toNat + dd.toInt) ∧
      s.ea (.idx .iy dd) = BitVec.ofInt 32 (s.reg.iy.toNat + dd.toInt) ∧
      s.ea (.idx .sp dd) = BitVec.ofInt 32 (s.reg.sp.toNat + dd.toInt)) ∧
    s.ea (.ind .af) = s.reg.a ++ s.reg.f ∧ s.ea (.ind .bc) = s.reg.b ++ s.reg.c ∧
    s.ea (.ind .de) = s.reg.d ++ s.reg.e ∧ s.ea (.ind .hl) = s.reg.h ++ s.reg.l ∧
    (∀ nnnn, s.ea (.direct nnnn) = nnnn ∧ s.target (.direct nnnn) = nnnn) ∧
    (∀ r, s.target (.reg r) = s.reg.get32 r) ∧ (∀ r, s.portVal (.reg r) = s.reg.get16 r) ∧
    (∀ ss v, (s.srcVal ss (.imm v)).toNat = v.toNat % 2 ^ ss.bits) ∧
    (∀ ss r, s.srcVal ss (.reg r) = s.getReg ss r ∧ s.countVal ss (.reg r) = (s.getReg ss r).toNat) ∧
    (∀ ss n, s.countVal ss (.imm n) = n.toNat) ∧ (∀ n, (s.portVal (.imm n)).toNat = n.toNat) ∧
    s.flags = { s := s.reg.f.getLsbD 7, z := s.reg.f.getLsbD 6, h := s.reg.f.getLsbD 4, pv := s.reg.f.getLsbD 2,
                n := s.reg.f.getLsbD 1, c := s.reg.f.getLsbD 0 }

/-- Codes 0 to 7 and 15 of the condition field name NZ, Z, NC, C, PO, PE, P, M and always, which hold as bit 6, 0, 2 or
7 of F says; codes 8 to 14 are illegal. -/
def Obligations.ConditionsReadFlags : Prop :=
    (∀ s : State, s.cond .nz = !s.reg.f.getLsbD 6 ∧ s.cond .z = s.reg.f.getLsbD 6 ∧ s.cond .nc = !s.reg.f.getLsbD 0 ∧
      s.cond .c = s.reg.f.getLsbD 0 ∧ s.cond .po = !s.reg.f.getLsbD 2 ∧ s.cond .pe = s.reg.f.getLsbD 2 ∧
      s.cond .p = !s.reg.f.getLsbD 7 ∧ s.cond .m = s.reg.f.getLsbD 7 ∧ s.cond .always = true) ∧
    (decodeCond 0 = .ok .nz ∧ decodeCond 1 = .ok .z ∧ decodeCond 2 = .ok .nc ∧ decodeCond 3 = .ok .c ∧
      decodeCond 4 = .ok .po ∧ decodeCond 5 = .ok .pe ∧ decodeCond 6 = .ok .p ∧ decodeCond 7 = .ok .m ∧
      decodeCond 15 = .ok .always) ∧ ∀ n, 8 ≤ n → n ≤ 14 → decodeCond n = .error .condition

/-- When memory is in canonical form and the four bytes below SP are RAM, the top of the stack after State.push32 is the
value pushed, and dropping it restores every register, SP among them; also when SP wraps around. The direction of
growth is the spec's own choice, from the Z80 (D4, log 4, PRESUMED log 27). That SP wraps around is its own choice
too (D3, log 4). -/
def Obligations.PopReadsWhatWasPushed : Prop :=
    ∀ (s : State) (v : Dword), s.mem.wf = true → (∀ k, k < 4 → s.kindAt (cellAt (s.reg.sp - 4) k) = .ram) →
    (s.push32 v).stackTop = v ∧ (s.push32 v).dropStack.reg = s.reg

/-- For every kind, positive width, count, carry and value, shiftMany (the closed forms the machine runs) equals
shiftRepeat (the count-fold repetition that defines the instruction). Not reducing the count is the spec's own
choice (D11). -/
def Obligations.ShiftClosedForms : Prop :=
    ∀ (kind : ShiftKind) (w k : Nat) (c : Bool) (v : BitVec w), 0 < w →
    shiftMany kind k c v = shiftRepeat kind k c v

/-- LD to a register writes the source (a register or immediate, or the memory operand) as a sized register write, AF
taking F as data; LD to memory stores the register or immediate at the effective address; no arithmetic flag is set,
nothing else changes. LD AF,AF writes F as data like any other write of AF, so that IFF2 takes IFF1 there; R141 says
that LD of a register to itself is a no-op, and that the write of F goes before it is the model's reading (DEDUCED,
log 16; unsafe in that corner). That a write of AF as data is masked, also writes IFF2, and starts the inhibit when
it enables, is the spec's own choice (D13, D14, log 4). -/
def Obligations.LoadCopies : Prop :=
    (∀ (ss : Size) (d : RegField) (src : Src) (s : State), ∃ t,
      exec (.ldR ss d src) s = .next t ∧ RegWritten ss d (s.srcVal ss src) s t) ∧
    (∀ (ss : Size) (ea : Addr) (d : RegField) (s : State), ∃ t,
      exec (.ldM ss ea (.toReg d)) s = .next t ∧ RegWritten ss d (s.load .data ss (s.ea ea)) s t) ∧
    ∀ (ss : Size) (ea : Addr) (src : Src) (s : State), ∃ t,
      exec (.ldM ss ea (.toMem src)) s = .next t ∧ Stored ss (s.ea ea) (s.srcVal ss src) s t ∧
      t = { s with mem := t.mem, trace := t.trace }

/-- EX r,r writes the second register's old value to the first and the first's to the second, in that order; AF apart,
both read back exchanged. EX r,(mem) stores the register and then writes the old memory operand to it; the direction
bit has no effect. AF as an operand takes F as data. EX AF,AF writes F as data like any other write of AF, so that
IFF2 takes IFF1 there; R142 says that EX of a register with itself is a no-op, and that the write of F goes before
it is the model's reading (DEDUCED, log 16; unsafe in that corner). That a write of AF as data is masked, also
writes IFF2, and starts the inhibit when it enables, is the spec's own choice (D13, D14, log 4). -/
def Obligations.ExchangeSwaps : Prop :=
    (∀ (ss : Size) (d r : RegField) (s : State), ∃ u t, exec (.exR ss d r) s = .next t ∧
      RegWritten ss d (s.getReg ss r) s u ∧ RegWritten ss r (s.getReg ss d) u t ∧
      ((ss = .dword → d ≠ .r0 ∧ r ≠ .r0) → t.getReg ss d = s.getReg ss r ∧ t.getReg ss r = s.getReg ss d)) ∧
    ∀ (ss : Size) (ea : IndAddr) (r : RegField) (dir : Bool) (s : State), ∃ u t,
      exec (.exM ss ea r dir) s = .next t ∧ Stored ss (s.ea ea.addr) (s.getReg ss r) s u ∧
      u = { s with mem := u.mem, trace := u.trace } ∧ RegWritten ss r (s.load .data ss (s.ea ea.addr)) u t

/-- Word size: the 16-bit register and its alternate change places, every other register of both sets is unchanged.
Dword size: the address register and its alternate change places; for AF, F takes F' as data and F' takes the old F.
That a write of AF as data is masked, also writes IFF2, and starts the inhibit when it enables, is the spec's own
choice (D13, D14, log 4). -/
def Obligations.ExchangeWithAlternate : Prop :=
    (∀ (r : RegField) (s : State), ∃ t, exec (.exAlt .word r) s = .next t ∧
      t.reg.get16 r.reg16 = s.alt.get16 r.reg16 ∧ t.alt.get16 r.reg16 = s.reg.get16 r.reg16 ∧
      t.reg.f = s.reg.f ∧ t.alt.f = s.alt.f ∧ BankFrame [r.reg16] [] s.reg t.reg ∧
      BankFrame [r.reg16] [] s.alt t.alt ∧ t = { s with reg := t.reg, alt := t.alt }) ∧
    (∀ (r : RegField) (s : State), r ≠ .r0 → ∃ t, exec (.exAlt .dword r) s = .next t ∧
      t.reg.get32 r.reg32 = s.alt.get32 r.reg32 ∧ t.alt.get32 r.reg32 = s.reg.get32 r.reg32 ∧
      t.reg.f = s.reg.f ∧ t.alt.f = s.alt.f ∧ BankFrame (fieldWords .dword r) (fieldIndex .dword r) s.reg t.reg ∧
      BankFrame (fieldWords .dword r) (fieldIndex .dword r) s.alt t.alt ∧ t = { s with reg := t.reg, alt := t.alt }) ∧
    ∀ s : State, ∃ t, exec (.exAlt .dword .r0) s = .next t ∧ FWritten s.alt.f s t ∧
      t = { s with reg := { s.reg with a := s.alt.a, f := t.reg.f }, alt := { s.alt with a := s.reg.a, f := s.reg.f },
                   iff2 := t.iff2, inhibit := t.inhibit }

/-- EXX is 4E 00: B, C, D, E, H, L change places with their alternates, A, F, IX, IY, SP and their alternates do not,
and twice EXX restores the state. EXI is 4E 01: IX, IY, SP change places with their alternates. Nothing else
changes, no flag among it. -/
def Obligations.ExxAndExiSwapTheirRegisters : Prop :=
    encode .exx = [0x4E#8, 0x00#8] ∧ encode .exi = [0x4E#8, 0x01#8] ∧
    (∀ s : State, exec .exx s = .next { s with
      reg := ⟨s.reg.a, s.alt.b, s.alt.c, s.alt.d, s.alt.e, s.alt.h, s.alt.l, s.reg.f, s.reg.ix, s.reg.iy, s.reg.sp⟩,
      alt := ⟨s.alt.a, s.reg.b, s.reg.c, s.reg.d, s.reg.e, s.reg.h, s.reg.l, s.alt.f, s.alt.ix, s.alt.iy, s.alt.sp⟩ }) ∧
    (∀ s : State, exec .exi s = .next { s with
      reg := { s.reg with ix := s.alt.ix, iy := s.alt.iy, sp := s.alt.sp },
      alt := { s.alt with ix := s.reg.ix, iy := s.reg.iy, sp := s.reg.sp } }) ∧
    ∀ s t : State, exec .exx s = .next t → exec .exx t = .next s

/-- Bit i of the result is bit (i + W/2) mod W of the operand: nibbles of a byte, bytes of a word, words of a dword. The
register form is a sized register write (AF takes F as data), the memory form stores it back; no flag is set. That
the byte size swaps nibbles is the spec's own choice (D42). That a write of AF as data is masked, also writes IFF2,
and starts the inhibit when it enables, is the spec's own choice (D13, D14, log 4). -/
def Obligations.ExchangeHalves : Prop :=
    (∀ (ss : Size) (r : RegField) (s : State), ∃ t v, exec (.exhR ss r) s = .next t ∧
      (∀ i, i < ss.bits → v.getLsbD i = (s.getReg ss r).getLsbD ((i + ss.bits / 2) % ss.bits)) ∧
      RegWritten ss r v s t) ∧
    ∀ (ss : Size) (ea : IndAddr) (s : State), ∃ t v, exec (.exhM ss ea) s = .next t ∧
      (∀ i, i < ss.bits → v.getLsbD i = (s.load .data ss (s.ea ea.addr)).getLsbD ((i + ss.bits / 2) % ss.bits)) ∧
      Stored ss (s.ea ea.addr) v s t ∧ t = { s with mem := t.mem, trace := t.trace }

/-- PUSH of any size pushes the dword with the same two's complement value as the operand. POP reads the dword at SP,
raises SP by 4, then writes the register: POP SP leaves SP at the popped value, POP AF writes F as data. That PUSH
lowers SP by 4 before the write and POP raises it after the read is the spec's own choice, from the Z80 (D4: R13,
R147, R148; log 4, PRESUMED log 27); the old SP as the value PUSH SP pushes, and the popped value as what POP SP
leaves, are its own choice too (D36, log 4). That a write of AF as data is masked, also writes IFF2, and starts the
inhibit when it enables, is the spec's own choice (D13, D14, log 4). -/
def Obligations.PushAndPop : Prop :=
    (∀ (ss : Size) (src : Src) (s : State), ∃ t v, exec (.push ss src) s = .next t ∧
      v.toInt = (s.srcVal ss src).toInt ∧ Pushed v s t) ∧
    ∀ (d : RegField) (s : State), ∃ t, exec (.pop d.reg32) s = .next t ∧
      RegWritten .dword d (s.load .stack .dword s.reg.sp) { s with reg := { s.reg with sp := s.reg.sp + 4 } } t

/-- IN consumes the device's next answer, records the read at the port, and writes the answer at the operand size to the
register; no flag is set. OUT records the write of the register's low byte or word at the port and changes nothing
else. The script of answers and the record are the model's (log 11, log 13). A word moves in one transfer at the one
port (D33: R70), and a register port gives all its 16 bits (D32): both are the spec's own choices (log 4). -/
def Obligations.InputAndOutputOfAPort : Prop :=
    (∀ (z : NSize) (d : RegField) (port : Port) (s : State), ∃ t, exec (.inR z d port) s = .next t ∧
      RegWritten z.size d (s.nextInput.setWidth z.size.bits)
        { s with ioIn := s.ioIn.tail, trace := s.trace ++
          [.ioRead z (s.portVal port) ((s.nextInput.setWidth z.size.bits).setWidth 16)] } t) ∧
    ∀ (z : NSize) (port : Port) (r : RegField) (s : State), exec (.outR z port r) s = .next
      { s with trace := s.trace ++ [.ioWrite z (s.portVal port) ((s.getReg z.size r).setWidth 16)] }

/-- Each of the eight instructions copies the element at (HL) to (DE), moves both pointers up or down by the operand
size, decrements BC, sets P/V when BC is not 0, clears H and N, and keeps S, Z, C and every other register and byte;
the repeating forms stay at the instruction while BC is not 0. One iteration per step, and a counter that is tested
after the iteration, are the spec's own choices, from the Z80 (D18, D19, log 4, PRESUMED log 27). Pointers modulo
2^32 are the spec's own choice (D3, log 4). -/
def Obligations.BlockCopy : Prop :=
    Copies .ldiB .byte (1#32) false ∧ Copies .ldiW .word (2#32) false ∧
    Copies .lddB .byte (-1#32) false ∧ Copies .lddW .word (-2#32) false ∧
    Copies .ldirB .byte (1#32) true ∧ Copies .ldirW .word (2#32) true ∧
    Copies .lddrB .byte (-1#32) true ∧ Copies .lddrW .word (-2#32) true

/-- S, Z, H, N are those of A minus the element at (HL), C is kept, HL moves by the operand size, BC is decremented; P/V
says BC is not 0, or in the repeating forms that the element did not match; the repeating forms stay while BC is not
0 and there is no match. That a match gives P/V = 0 even when BC reaches 0 is the spec's own choice (D20, log 4).
One iteration per step, and a counter that is tested after the iteration, are the spec's own choices, from the Z80
(D18, D19, log 4, PRESUMED log 27). H as the borrow from bit 4, in the word forms too, is the spec's own choice
(D12: R15, log 4). Pointers modulo 2^32 are the spec's own choice (D3, log 4). -/
def Obligations.BlockCompare : Prop :=
    Compares .cpiB .byte (1#32) false ∧ Compares .cpiW .word (2#32) false ∧
    Compares .cpdB .byte (-1#32) false ∧ Compares .cpdW .word (-2#32) false ∧
    Compares .cpirB .byte (1#32) true ∧ Compares .cpirW .word (2#32) true ∧
    Compares .cpdrB .byte (-1#32) true ∧ Compares .cpdrW .word (-2#32) true

/-- S and Z are those of A AND the element at (HL), N is set, C is kept, nothing is said of H (undefined); HL moves by
the operand size, BC is decremented; P/V and the repetition as in the CP family with the match that TSXR_STOP names
(a parameter, log 1). That the test is an AND with S and Z from it is the spec's own choice (D21, log 4), and so is
that a match gives P/V = 0 even when BC reaches 0 (D20, log 4). One iteration per step, and a counter that is tested
after the iteration, are the spec's own choices, from the Z80 (D18, D19, log 4, PRESUMED log 27). Pointers modulo
2^32 are the spec's own choice (D3, log 4). -/
def Obligations.BlockTest : Prop :=
    Tests .tsiB .byte (1#32) false ∧ Tests .tsiW .word (2#32) false ∧
    Tests .tsdB .byte (-1#32) false ∧ Tests .tsdW .word (-2#32) false ∧
    Tests .tsirB .byte (1#32) true ∧ Tests .tsirW .word (2#32) true ∧
    Tests .tsdrB .byte (-1#32) true ∧ Tests .tsdrW .word (-2#32) true

/-- The device's next answer at port C is stored at (HL), HL moves by the operand size, B is decremented, Z says B is 0,
N is set, the other flags and every other register and byte are unchanged; the repeating forms stay while B is not
0. One iteration per step, and a counter that is tested after the iteration, are the spec's own choices, from the
Z80 (D18, D19, log 4, PRESUMED log 27); a word moves in one transfer by the spec's own choice (D33, log 4). The
script of answers and the record are the model's (log 11, log 13). Pointers modulo 2^32 are the spec's own choice
(D3, log 4). All 16 bits of C as the port are its own choice too (D32, log 4). -/
def Obligations.BlockInput : Prop :=
    Inputs .iniB .byte (1#32) false ∧ Inputs .iniW .word (2#32) false ∧
    Inputs .indB .byte (-1#32) false ∧ Inputs .indW .word (-2#32) false ∧
    Inputs .inirB .byte (1#32) true ∧ Inputs .inirW .word (2#32) true ∧
    Inputs .indrB .byte (-1#32) true ∧ Inputs .indrW .word (-2#32) true

/-- The element at (HL) is written to port C, HL moves by the operand size, B is decremented, Z says B is 0, N is set,
the other flags and every other register and all memory are unchanged; the repeating forms stay while B is not 0.
One iteration per step, and a counter that is tested after the iteration, are the spec's own choices, from the Z80
(D18, D19, log 4, PRESUMED log 27); a word moves in one transfer by the spec's own choice (D33, log 4). The record
is the model's (log 13). Pointers modulo 2^32 are the spec's own choice (D3, log 4). All 16 bits of C as the port
are its own choice too (D32, log 4). -/
def Obligations.BlockOutput : Prop :=
    Outputs .outiB .byte (1#32) false ∧ Outputs .outiW .word (2#32) false ∧
    Outputs .outdB .byte (-1#32) false ∧ Outputs .outdW .word (-2#32) false ∧
    Outputs .otirB .byte (1#32) true ∧ Outputs .otirW .word (2#32) true ∧
    Outputs .otdrB .byte (-1#32) true ∧ Outputs .otdrW .word (-2#32) true

/-- For every size and operand form but AF as a dword destination (refused, see UndefinedFormsStop): the destination
takes the sum of destination and source (and carry), the flags are those of the exact sum, a byte operation keeps
the register's upper byte, every other register, status bit and byte is unchanged. H at bit 3 for every width is the
spec's own choice (D12, log 4). -/
def Obligations.AddAndAddWithCarry : Prop :=
    (∀ (ss : Size) (d : RegField) (src : Src) (s : State), (ss = .dword → d ≠ .r0) → ∃ t, exec (.addR ss d src) s = .next t ∧
      RegFrame ss d s t ∧ t.getReg ss d = s.getReg ss d + s.srcVal ss src ∧
      SumFlags (s.getReg ss d) (s.srcVal ss src) false t.flags) ∧
    (∀ (ss : Size) (ea : Addr) (d : RegField) (s : State), (ss = .dword → d ≠ .r0) → ∃ t,
      exec (.addM ss ea (.toReg d)) s = .next t ∧ RegFrame ss d s t ∧
      t.getReg ss d = s.getReg ss d + s.load .data ss (s.ea ea) ∧
      SumFlags (s.getReg ss d) (s.load .data ss (s.ea ea)) false t.flags) ∧
    (∀ (ss : Size) (ea : Addr) (src : Src) (s : State), ∃ t, exec (.addM ss ea (.toMem src)) s = .next t ∧
      MemFrame ss (s.ea ea) (s.load .data ss (s.ea ea) + s.srcVal ss src) s t ∧
      SumFlags (s.load .data ss (s.ea ea)) (s.srcVal ss src) false t.flags) ∧
    (∀ (ss : Size) (d : RegField) (src : Src) (s : State), (ss = .dword → d ≠ .r0) → ∃ t, exec (.adcR ss d src) s = .next t ∧
      RegFrame ss d s t ∧ t.getReg ss d = s.getReg ss d + s.srcVal ss src + BitVec.ofNat ss.bits s.flags.c.toNat ∧
      SumFlags (s.getReg ss d) (s.srcVal ss src) s.flags.c t.flags) ∧
    (∀ (ss : Size) (ea : Addr) (d : RegField) (s : State), (ss = .dword → d ≠ .r0) → ∃ t,
      exec (.adcM ss ea (.toReg d)) s = .next t ∧ RegFrame ss d s t ∧
      t.getReg ss d = s.getReg ss d + s.load .data ss (s.ea ea) + BitVec.ofNat ss.bits s.flags.c.toNat ∧
      SumFlags (s.getReg ss d) (s.load .data ss (s.ea ea)) s.flags.c t.flags) ∧
    (∀ (ss : Size) (ea : Addr) (src : Src) (s : State), ∃ t, exec (.adcM ss ea (.toMem src)) s = .next t ∧
      MemFrame ss (s.ea ea) (s.load .data ss (s.ea ea) + s.srcVal ss src + BitVec.ofNat ss.bits s.flags.c.toNat) s t ∧
      SumFlags (s.load .data ss (s.ea ea)) (s.srcVal ss src) s.flags.c t.flags)

/-- For every size and operand form but AF as a dword destination (refused): the destination takes destination minus
source (minus carry), the flags are those of the exact difference, everything else is unchanged. H at bit 3 for
every width is the spec's own choice (D12, log 4). -/
def Obligations.SubtractAndSubtractWithCarry : Prop :=
    (∀ (ss : Size) (d : RegField) (src : Src) (s : State), (ss = .dword → d ≠ .r0) → ∃ t, exec (.subR ss d src) s = .next t ∧
      RegFrame ss d s t ∧ t.getReg ss d = s.getReg ss d - s.srcVal ss src ∧
      DifferenceFlags (s.getReg ss d) (s.srcVal ss src) false t.flags) ∧
    (∀ (ss : Size) (ea : Addr) (d : RegField) (s : State), (ss = .dword → d ≠ .r0) → ∃ t,
      exec (.subM ss ea (.toReg d)) s = .next t ∧ RegFrame ss d s t ∧
      t.getReg ss d = s.getReg ss d - s.load .data ss (s.ea ea) ∧
      DifferenceFlags (s.getReg ss d) (s.load .data ss (s.ea ea)) false t.flags) ∧
    (∀ (ss : Size) (ea : Addr) (src : Src) (s : State), ∃ t, exec (.subM ss ea (.toMem src)) s = .next t ∧
      MemFrame ss (s.ea ea) (s.load .data ss (s.ea ea) - s.srcVal ss src) s t ∧
      DifferenceFlags (s.load .data ss (s.ea ea)) (s.srcVal ss src) false t.flags) ∧
    (∀ (ss : Size) (d : RegField) (src : Src) (s : State), (ss = .dword → d ≠ .r0) → ∃ t, exec (.sbcR ss d src) s = .next t ∧
      RegFrame ss d s t ∧ t.getReg ss d = s.getReg ss d - s.srcVal ss src - BitVec.ofNat ss.bits s.flags.c.toNat ∧
      DifferenceFlags (s.getReg ss d) (s.srcVal ss src) s.flags.c t.flags) ∧
    (∀ (ss : Size) (ea : Addr) (d : RegField) (s : State), (ss = .dword → d ≠ .r0) → ∃ t,
      exec (.sbcM ss ea (.toReg d)) s = .next t ∧ RegFrame ss d s t ∧
      t.getReg ss d = s.getReg ss d - s.load .data ss (s.ea ea) - BitVec.ofNat ss.bits s.flags.c.toNat ∧
      DifferenceFlags (s.getReg ss d) (s.load .data ss (s.ea ea)) s.flags.c t.flags) ∧
    (∀ (ss : Size) (ea : Addr) (src : Src) (s : State), ∃ t, exec (.sbcM ss ea (.toMem src)) s = .next t ∧
      MemFrame ss (s.ea ea) (s.load .data ss (s.ea ea) - s.srcVal ss src - BitVec.ofNat ss.bits s.flags.c.toNat) s t ∧
      DifferenceFlags (s.load .data ss (s.ea ea)) (s.srcVal ss src) s.flags.c t.flags)

/-- For every size and operand form, AF included: the flags are those of destination minus source, and no register,
status bit or byte of memory changes. H as the borrow from bit 4 at every width is the spec's own choice (D12, log
4). -/
def Obligations.CompareOnlySetsFlags : Prop :=
    (∀ (ss : Size) (d : RegField) (src : Src) (s : State), ∃ t, exec (.cpR ss d src) s = .next t ∧ FlagFrame s t ∧
      DifferenceFlags (s.getReg ss d) (s.srcVal ss src) false t.flags) ∧
    (∀ (ss : Size) (ea : Addr) (d : RegField) (s : State), ∃ t, exec (.cpM ss ea (.toReg d)) s = .next t ∧ FlagFrame s t ∧
      DifferenceFlags (s.getReg ss d) (s.load .data ss (s.ea ea)) false t.flags) ∧
    ∀ (ss : Size) (ea : Addr) (src : Src) (s : State), ∃ t, exec (.cpM ss ea (.toMem src)) s = .next t ∧ FlagFrame s t ∧
      DifferenceFlags (s.load .data ss (s.ea ea)) (s.srcVal ss src) false t.flags

/-- INC adds 1 and DEC subtracts 1 with the flags of that sum or difference but C, which is kept; NEG gives 0 minus the
operand with all six flags; on a register (AF as a dword is refused, see UndefinedFormsStop) or on memory;
everything else is unchanged. P/V as overflow for INC and DEC is the spec's inference (R206, R207); H at bit 3 for
every width is its own choice (D12, log 4). -/
def Obligations.IncrementDecrementNegate : Prop :=
    (∀ (ss : Size) (d : RegField) (s : State), (ss = .dword → d ≠ .r0) → ∃ t g, exec (.incR ss d) s = .next t ∧
      RegFrame ss d s t ∧ t.getReg ss d = (s.getReg ss d) + 1 ∧ SumFlags (s.getReg ss d) 1 false g ∧ t.flags = { g with c := s.flags.c }) ∧
    (∀ (ss : Size) (ea : Addr) (s : State), ∃ t g, exec (.incM ss ea) s = .next t ∧
      MemFrame ss (s.ea ea) ((s.load .data ss (s.ea ea)) + 1) s t ∧ SumFlags (s.load .data ss (s.ea ea)) 1 false g ∧ t.flags = { g with c := s.flags.c }) ∧
    (∀ (ss : Size) (d : RegField) (s : State), (ss = .dword → d ≠ .r0) → ∃ t g, exec (.decR ss d) s = .next t ∧
      RegFrame ss d s t ∧ t.getReg ss d = (s.getReg ss d) - 1 ∧ DifferenceFlags (s.getReg ss d) 1 false g ∧ t.flags = { g with c := s.flags.c }) ∧
    (∀ (ss : Size) (ea : Addr) (s : State), ∃ t g, exec (.decM ss ea) s = .next t ∧
      MemFrame ss (s.ea ea) ((s.load .data ss (s.ea ea)) - 1) s t ∧ DifferenceFlags (s.load .data ss (s.ea ea)) 1 false g ∧ t.flags = { g with c := s.flags.c }) ∧
    (∀ (ss : Size) (d : RegField) (s : State), (ss = .dword → d ≠ .r0) → ∃ t g, exec (.negR ss d) s = .next t ∧
      RegFrame ss d s t ∧ t.getReg ss d = 0 - (s.getReg ss d) ∧ DifferenceFlags 0 (s.getReg ss d) false g ∧ t.flags = g) ∧
    (∀ (ss : Size) (ea : Addr) (s : State), ∃ t g, exec (.negM ss ea) s = .next t ∧
      MemFrame ss (s.ea ea) (0 - (s.load .data ss (s.ea ea))) s t ∧ DifferenceFlags 0 (s.load .data ss (s.ea ea)) false g ∧ t.flags = g)

/-- With a the low byte of A: 6 is corrected if H or the low digit is above 9, 0x60 if C or a above 0x99, added when N
is 0 and subtracted when N is 1; C says that 0x60 was corrected, H, S, Z, P/V as the rule says, N and the upper byte
of A are kept, nothing else changes. The algorithm is the spec's own, from the Z80 (D40, log 27). -/
def Obligations.DecimalAdjust : Prop :=
    ∀ s : State, ∃ t, exec .daa s = .next t ∧ RegFrame .byte .r0 s t ∧
      (let a : Byte := s.reg.a.setWidth 8
       let low := s.flags.h || decide (9 < a.toNat % 16)
       let high := s.flags.c || decide (0x99 < a.toNat)
       let corr := (if low then 6 else 0) + (if high then 96 else 0)
       let r : Byte := BitVec.ofNat 8 (if s.flags.n then a.toNat + 256 - corr else a.toNat + corr)
       t.reg.a.setWidth 8 = r ∧ t.flags.c = high ∧ t.flags.n = s.flags.n ∧ t.flags.s = r.msb ∧
       (t.flags.z = true ↔ r = 0#8) ∧ (t.flags.pv = true ↔ ones r % 2 = 0) ∧
       t.flags.h = if s.flags.n then s.flags.h && decide (a.toNat % 16 < 6) else decide (9 < a.toNat % 16))

/-- The result has the two's complement value of the operand's lower half; no flag changes; the register form (AF is
refused) is a sized register write, the memory form stores the full width; everything else is unchanged. -/
def Obligations.SignExtendHalf : Prop :=
    (∀ (z : WSize) (d : RegField) (s : State), (z = .dword → d ≠ .r0) → ∃ t v, exec (.extR z d) s = .next t ∧
      v.toInt = ((s.getReg z.size d).setWidth (z.size.bits / 2)).toInt ∧ RegWritten z.size d v s t) ∧
    ∀ (z : WSize) (ea : IndAddr) (s : State), ∃ t v, exec (.extM z ea) s = .next t ∧
      v.toInt = ((s.load .data z.size (s.ea ea.addr)).setWidth (z.size.bits / 2)).toInt ∧
      Stored z.size (s.ea ea.addr) v s t ∧ t = { s with mem := t.mem, trace := t.trace }

/-- With the target of the width that MLTDIV_SS selects, in a register (AF refused) or in memory: the result is the
product of the upper and the lower half, C says that the product needs more than half the width, P/V is its top bit,
S and Z are kept, nothing is said of H and N (undefined), everything else is unchanged. Unsigned halves are the
spec's own choice (D35, log 4); MLTDIV_SS is a parameter (D7, log 1). -/
def Obligations.Multiply : Prop :=
    (∀ (ss : Size) (z : WSize) (d : RegField) (s : State), mltDivTarget s.cfg.mltDivSS ss = some z →
      (z = .dword → d ≠ .r0) → ∃ t, exec (.mltR ss d) s = .next t ∧ RegFrame z.size d s t ∧
      (let v := s.getReg z.size d
       let r := t.getReg z.size d
       r.toNat = (v.toNat / 2 ^ (z.size.bits / 2)) * (v.toNat % 2 ^ (z.size.bits / 2)) ∧ t.flags.s = s.flags.s ∧ t.flags.z = s.flags.z ∧
       t.flags.pv = r.msb ∧ (t.flags.c = true ↔ 2 ^ (z.size.bits / 2) ≤ r.toNat))) ∧
    ∀ (ss : Size) (z : WSize) (ea : IndAddr) (s : State), mltDivTarget s.cfg.mltDivSS ss = some z → ∃ t r,
      exec (.mltM ss ea) s = .next t ∧ MemFrame z.size (s.ea ea.addr) r s t ∧
      (let v := s.load .data z.size (s.ea ea.addr)
       r.toNat = (v.toNat / 2 ^ (z.size.bits / 2)) * (v.toNat % 2 ^ (z.size.bits / 2)) ∧ t.flags.s = s.flags.s ∧ t.flags.z = s.flags.z ∧
       t.flags.pv = r.msb ∧ (t.flags.c = true ↔ 2 ^ (z.size.bits / 2) ≤ r.toNat))

/-- When the lower half is not 0, the upper half of the result is the remainder and the lower half the quotient, and P/V
is 0; when it is 0, P/V is 1 and nothing is said of the result (free, log 8). Nothing is said of S, Z, H, N, C
(undefined, log 7). Everything else is unchanged. What a division by 0 leaves is the spec's own choice (D34, log 4);
MLTDIV_SS is a parameter (D7, log 1). -/
def Obligations.DivideUnsigned : Prop :=
    (∀ (ss : Size) (z : WSize) (d : RegField) (s : State), mltDivTarget s.cfg.mltDivSS ss = some z →
      (z = .dword → d ≠ .r0) → ∃ t, exec (.divR ss d) s = .next t ∧ RegFrame z.size d s t ∧
      (let v := s.getReg z.size d
       let r := t.getReg z.size d
       (t.flags.pv = true ↔ (v.toNat % 2 ^ (z.size.bits / 2)) = 0) ∧
       ((v.toNat % 2 ^ (z.size.bits / 2)) ≠ 0 → r.toNat = (v.toNat / 2 ^ (z.size.bits / 2)) % (v.toNat % 2 ^ (z.size.bits / 2)) * 2 ^ (z.size.bits / 2) +
         (v.toNat / 2 ^ (z.size.bits / 2)) / (v.toNat % 2 ^ (z.size.bits / 2))))) ∧
    ∀ (ss : Size) (z : WSize) (ea : IndAddr) (s : State), mltDivTarget s.cfg.mltDivSS ss = some z → ∃ t r,
      exec (.divM ss ea) s = .next t ∧ MemFrame z.size (s.ea ea.addr) r s t ∧
      (let v := s.load .data z.size (s.ea ea.addr)
       (t.flags.pv = true ↔ (v.toNat % 2 ^ (z.size.bits / 2)) = 0) ∧
       ((v.toNat % 2 ^ (z.size.bits / 2)) ≠ 0 → r.toNat = (v.toNat / 2 ^ (z.size.bits / 2)) % (v.toNat % 2 ^ (z.size.bits / 2)) * 2 ^ (z.size.bits / 2) +
         (v.toNat / 2 ^ (z.size.bits / 2)) / (v.toNat % 2 ^ (z.size.bits / 2))))

/-- With a and b the two's complement values of the halves: P/V says b = 0; when b is not 0 and the quotient fits, the
upper half of the result has the remainder of the truncating division and the lower half the quotient; otherwise
nothing is said of the result (free, log 8). Truncation, and what a division by 0 or a quotient that does not fit
leaves, are the spec's own choices (D34, log 4; truncation PRESUMED from the Z80, log 27); MLTDIV_SS is a parameter
(D7, log 1). -/
def Obligations.DivideSigned : Prop :=
    (∀ (ss : Size) (z : WSize) (d : RegField) (s : State), mltDivTarget s.cfg.mltDivSS ss = some z →
      (z = .dword → d ≠ .r0) → ∃ t, exec (.sdivR ss d) s = .next t ∧ RegFrame z.size d s t ∧
      (let v := s.getReg z.size d
       let r := t.getReg z.size d
       let a := (v.extractLsb' (z.size.bits / 2) (z.size.bits / 2)).toInt
       let b := (v.setWidth (z.size.bits / 2)).toInt
       (t.flags.pv = true ↔ b = 0) ∧
       (b ≠ 0 → ¬(a = -2 ^ (z.size.bits / 2 - 1) ∧ b = -1) →
         (r.extractLsb' (z.size.bits / 2) (z.size.bits / 2)).toInt = a - b * a.tdiv b ∧
         (r.setWidth (z.size.bits / 2)).toInt = a.tdiv b))) ∧
    ∀ (ss : Size) (z : WSize) (ea : IndAddr) (s : State), mltDivTarget s.cfg.mltDivSS ss = some z → ∃ t r,
      exec (.sdivM ss ea) s = .next t ∧ MemFrame z.size (s.ea ea.addr) r s t ∧
      (let v := s.load .data z.size (s.ea ea.addr)
       let a := (v.extractLsb' (z.size.bits / 2) (z.size.bits / 2)).toInt
       let b := (v.setWidth (z.size.bits / 2)).toInt
       (t.flags.pv = true ↔ b = 0) ∧
       (b ≠ 0 → ¬(a = -2 ^ (z.size.bits / 2 - 1) ∧ b = -1) →
         (r.extractLsb' (z.size.bits / 2) (z.size.bits / 2)).toInt = a - b * a.tdiv b ∧
         (r.setWidth (z.size.bits / 2)).toInt = a.tdiv b))

/-- For every size and operand form but AF as a dword destination (refused): the destination takes the bitwise result;
S, Z and even parity of the result, H set by AND and cleared by OR and XOR, N and C cleared; everything else is
unchanged. Parity over all bits is the spec's own choice (D12, log 4). -/
def Obligations.LogicalOperations : Prop :=
    (∀ (ss : Size) (d : RegField) (src : Src) (s : State), (ss = .dword → d ≠ .r0) → ∃ t, exec (.andR ss d src) s = .next t ∧
      RegFrame ss d s t ∧ t.getReg ss d = s.getReg ss d &&& s.srcVal ss src ∧
      LogicalFlags ((s.getReg ss d) &&& (s.srcVal ss src)) true t.flags) ∧
    (∀ (ss : Size) (ea : Addr) (d : RegField) (s : State), (ss = .dword → d ≠ .r0) → ∃ t,
      exec (.andM ss ea (.toReg d)) s = .next t ∧ RegFrame ss d s t ∧
      t.getReg ss d = s.getReg ss d &&& s.load .data ss (s.ea ea) ∧
      LogicalFlags ((s.getReg ss d) &&& (s.load .data ss (s.ea ea))) true t.flags) ∧
    (∀ (ss : Size) (ea : Addr) (src : Src) (s : State), ∃ t, exec (.andM ss ea (.toMem src)) s = .next t ∧
      MemFrame ss (s.ea ea) (s.load .data ss (s.ea ea) &&& s.srcVal ss src) s t ∧
      LogicalFlags ((s.load .data ss (s.ea ea)) &&& (s.srcVal ss src)) true t.flags) ∧
    (∀ (ss : Size) (d : RegField) (src : Src) (s : State), (ss = .dword → d ≠ .r0) → ∃ t, exec (.orR ss d src) s = .next t ∧
      RegFrame ss d s t ∧ t.getReg ss d = s.getReg ss d ||| s.srcVal ss src ∧
      LogicalFlags ((s.getReg ss d) ||| (s.srcVal ss src)) false t.flags) ∧
    (∀ (ss : Size) (ea : Addr) (d : RegField) (s : State), (ss = .dword → d ≠ .r0) → ∃ t,
      exec (.orM ss ea (.toReg d)) s = .next t ∧ RegFrame ss d s t ∧
      t.getReg ss d = s.getReg ss d ||| s.load .data ss (s.ea ea) ∧
      LogicalFlags ((s.getReg ss d) ||| (s.load .data ss (s.ea ea))) false t.flags) ∧
    (∀ (ss : Size) (ea : Addr) (src : Src) (s : State), ∃ t, exec (.orM ss ea (.toMem src)) s = .next t ∧
      MemFrame ss (s.ea ea) (s.load .data ss (s.ea ea) ||| s.srcVal ss src) s t ∧
      LogicalFlags ((s.load .data ss (s.ea ea)) ||| (s.srcVal ss src)) false t.flags) ∧
    (∀ (ss : Size) (d : RegField) (src : Src) (s : State), (ss = .dword → d ≠ .r0) → ∃ t, exec (.xorR ss d src) s = .next t ∧
      RegFrame ss d s t ∧ t.getReg ss d = s.getReg ss d ^^^ s.srcVal ss src ∧
      LogicalFlags ((s.getReg ss d) ^^^ (s.srcVal ss src)) false t.flags) ∧
    (∀ (ss : Size) (ea : Addr) (d : RegField) (s : State), (ss = .dword → d ≠ .r0) → ∃ t,
      exec (.xorM ss ea (.toReg d)) s = .next t ∧ RegFrame ss d s t ∧
      t.getReg ss d = s.getReg ss d ^^^ s.load .data ss (s.ea ea) ∧
      LogicalFlags ((s.getReg ss d) ^^^ (s.load .data ss (s.ea ea))) false t.flags) ∧
    (∀ (ss : Size) (ea : Addr) (src : Src) (s : State), ∃ t, exec (.xorM ss ea (.toMem src)) s = .next t ∧
      MemFrame ss (s.ea ea) (s.load .data ss (s.ea ea) ^^^ s.srcVal ss src) s t ∧
      LogicalFlags ((s.load .data ss (s.ea ea)) ^^^ (s.srcVal ss src)) false t.flags)

/-- For every size and operand form, AF included: S, Z and even parity of the AND of destination and source, H set, N
and C cleared; no register, status bit or byte of memory changes. Parity over all bits of the result is the spec's
own choice (D12, log 4). -/
def Obligations.TestOnlySetsFlags : Prop :=
    (∀ (ss : Size) (d : RegField) (src : Src) (s : State), ∃ t, exec (.tstR ss d src) s = .next t ∧ FlagFrame s t ∧
      LogicalFlags ((s.getReg ss d) &&& (s.srcVal ss src)) true t.flags) ∧
    (∀ (ss : Size) (ea : Addr) (d : RegField) (s : State), ∃ t, exec (.tstM ss ea (.toReg d)) s = .next t ∧ FlagFrame s t ∧
      LogicalFlags ((s.getReg ss d) &&& (s.load .data ss (s.ea ea))) true t.flags) ∧
    ∀ (ss : Size) (ea : Addr) (src : Src) (s : State), ∃ t, exec (.tstM ss ea (.toMem src)) s = .next t ∧ FlagFrame s t ∧
      LogicalFlags ((s.load .data ss (s.ea ea)) &&& (s.srcVal ss src)) true t.flags

/-- The result is the bitwise complement; S, Z and even parity of it, H and N set, C kept; on a register (AF as a dword
is refused, see UndefinedFormsStop) or memory; everything else is unchanged. Parity over all bits of the result is
the spec's own choice (D12, log 4). -/
def Obligations.Complement : Prop :=
    (∀ (ss : Size) (d : RegField) (s : State), (ss = .dword → d ≠ .r0) → ∃ t g, exec (.cplR ss d) s = .next t ∧
      RegFrame ss d s t ∧ t.getReg ss d = ~~~(s.getReg ss d) ∧ LogicalFlags (~~~(s.getReg ss d)) true g ∧ t.flags = { g with n := true, c := s.flags.c }) ∧
    (∀ (ss : Size) (ea : Addr) (s : State), ∃ t g, exec (.cplM ss ea) s = .next t ∧
      MemFrame ss (s.ea ea) (~~~(s.load .data ss (s.ea ea))) s t ∧ LogicalFlags (~~~(s.load .data ss (s.ea ea))) true g ∧ t.flags = { g with n := true, c := s.flags.c })

/-- For every size and operand form, AF included: Z says the bit is 0, H is set, N cleared, S, P/V, C kept; the bit
number is the immediate, the register or, with d = 1, the memory operand, modulo the operand width; nothing is
written. -/
def Obligations.BitTest : Prop :=
    (∀ (ss : Size) (d : RegField) (n : Count) (s : State), ∃ t, exec (.bitR ss d n) s = .next t ∧ FlagFrame s t ∧
      t.flags = { s.flags with z := !(s.getReg ss d).getLsbD (s.countVal ss n % ss.bits), h := true, n := false }) ∧
    (∀ (ss : Size) (ea : Addr) (n : Count) (s : State), ∃ t, exec (.bitM ss ea (.onMem n)) s = .next t ∧ FlagFrame s t ∧
      t.flags = { s.flags with z := !(s.load .data ss (s.ea ea)).getLsbD (s.countVal ss n % ss.bits), h := true, n := false }) ∧
    ∀ (ss : Size) (ea : Addr) (d : RegField) (s : State), ∃ t, exec (.bitM ss ea (.onReg d)) s = .next t ∧ FlagFrame s t ∧
      t.flags = { s.flags with z := !(s.getReg ss d).getLsbD ((s.load .data ss (s.ea ea)).toNat % ss.bits), h := true, n := false }

/-- For every size and operand form: the bit with that number is set by SET and cleared by RES, every other bit keeps
its value, no arithmetic flag is set, nothing else changes; AF as a dword takes F as data. That a write of AF as
data is masked, also writes IFF2, and starts the inhibit when it enables, is the spec's own choice (D13, D14, log
4). -/
def Obligations.SetAndResetBit : Prop :=
    (∀ (ss : Size) (d : RegField) (n : Count) (s : State), ∃ t v, exec (.setR ss d n) s = .next t ∧
      (∀ i, i < ss.bits → v.getLsbD i = if i = s.countVal ss n % ss.bits then true else (s.getReg ss d).getLsbD i) ∧
      RegWritten ss d v s t) ∧
    (∀ (ss : Size) (ea : Addr) (n : Count) (s : State), ∃ t v, exec (.setM ss ea (.onMem n)) s = .next t ∧
      (∀ i, i < ss.bits → v.getLsbD i = if i = s.countVal ss n % ss.bits then true else (s.load .data ss (s.ea ea)).getLsbD i) ∧
      Stored ss (s.ea ea) v s t ∧ t = { s with mem := t.mem, trace := t.trace }) ∧
    (∀ (ss : Size) (ea : Addr) (d : RegField) (s : State), ∃ t v, exec (.setM ss ea (.onReg d)) s = .next t ∧
      (∀ i, i < ss.bits → v.getLsbD i = if i = (s.load .data ss (s.ea ea)).toNat % ss.bits then true else (s.getReg ss d).getLsbD i) ∧
      RegWritten ss d v s t) ∧
    (∀ (ss : Size) (d : RegField) (n : Count) (s : State), ∃ t v, exec (.resR ss d n) s = .next t ∧
      (∀ i, i < ss.bits → v.getLsbD i = if i = s.countVal ss n % ss.bits then false else (s.getReg ss d).getLsbD i) ∧
      RegWritten ss d v s t) ∧
    (∀ (ss : Size) (ea : Addr) (n : Count) (s : State), ∃ t v, exec (.resM ss ea (.onMem n)) s = .next t ∧
      (∀ i, i < ss.bits → v.getLsbD i = if i = s.countVal ss n % ss.bits then false else (s.load .data ss (s.ea ea)).getLsbD i) ∧
      Stored ss (s.ea ea) v s t ∧ t = { s with mem := t.mem, trace := t.trace }) ∧
    (∀ (ss : Size) (ea : Addr) (d : RegField) (s : State), ∃ t v, exec (.resM ss ea (.onReg d)) s = .next t ∧
      (∀ i, i < ss.bits → v.getLsbD i = if i = (s.load .data ss (s.ea ea)).toNat % ss.bits then false else (s.getReg ss d).getLsbD i) ∧
      RegWritten ss d v s t)

/-- For every kind, size and operand form but AF as a dword destination (refused, see UndefinedFormsStop): the
destination takes the value after count repetitions of the kind's one-position step from the value and C before; C
is the carry after them, S, Z and even parity of the result, H and N cleared; the count is the immediate, register
or memory operand, not reduced; everything else is unchanged. The unreduced count (D11) and parity over all bits of
the result (D12) are the spec's own choices (log 4). -/
def Obligations.ShiftsAndRotates : Prop :=
    ShiftsBy .rlc (fun ss d n => .rlcR ss d n) (fun ss ea f => .rlcM ss ea f) ∧
    ShiftsBy .rrc (fun ss d n => .rrcR ss d n) (fun ss ea f => .rrcM ss ea f) ∧
    ShiftsBy .rl (fun ss d n => .rlR ss d n) (fun ss ea f => .rlM ss ea f) ∧
    ShiftsBy .rr (fun ss d n => .rrR ss d n) (fun ss ea f => .rrM ss ea f) ∧
    ShiftsBy .sla (fun ss d n => .slaR ss d n) (fun ss ea f => .slaM ss ea f) ∧
    ShiftsBy .sra (fun ss d n => .sraR ss d n) (fun ss ea f => .sraM ss ea f) ∧
    ShiftsBy .srl (fun ss d n => .srlR ss d n) (fun ss ea f => .srlM ss ea f)

/-- RLD: (HL)'s high digit goes to A's low digit, its low digit becomes its high digit, A's low digit becomes its low
digit; RRD the other way round. S, Z and even parity of the new low byte of A, H and N cleared, C kept; the rest of
A, every other register and byte is unchanged. The movement of the two digits other than the one that moves into A,
and the new low byte of A as what S, Z and P/V are taken from, are the spec's own choices, from the Z80 (D40: R248,
R249; log 4, PRESUMED log 27); which flags change, are cleared or are kept is the manual's flag row. -/
def Obligations.DigitRotates : Prop :=
    (∀ s : State, ∃ t, exec .rld s = .next t ∧
      (let a : Byte := s.reg.a.setWidth 8
       let m := s.load .data .byte (s.reg.h ++ s.reg.l)
       DigitsRotated (m.toNat % 16 * 16 + a.toNat % 16) (a.toNat / 16 * 16 + m.toNat / 16) s t)) ∧
    ∀ s : State, ∃ t, exec .rrd s = .next t ∧
      (let a : Byte := s.reg.a.setWidth 8
       let m := s.load .data .byte (s.reg.h ++ s.reg.l)
       DigitsRotated (a.toNat % 16 * 16 + m.toNat / 16) (a.toNat / 16 * 16 + m.toNat % 16) s t)

/-- NOP is encoded 0F; exec answers the same state (PC stands past the one byte already); a step at it moves PC by 1
before the sampling point; no other instruction has one byte. -/
def Obligations.NoOperation : Prop :=
    encode .nop = [0x0F#8] ∧ (∀ s : State, exec .nop s = .next s) ∧
    (∀ (s : State) (rest : List Byte), s.halted = false → s.fetchBytes = 0x0F#8 :: rest →
      step s = .next (State.sample { s with pc0 := s.pc, pc := s.pc + 1, inhibit := false, tick := s.tick + 1 })) ∧
    ∀ i : Instr, (encode i).length = 1 → i = .nop

/-- JP goes to the register's value or the direct address, JR s8 and s16 to base plus the signed displacement, if the
condition holds, else on to the next instruction; DJNZ decrements the 16-bit B and jumps if it is not 0; JANZ jumps
if the 16-bit A is not 0. The base is the parameter REL_BASE (D9, log 1). The 16-bit register as the operand of JR
(its low byte in the s8 form) is the spec's own choice (D10: R115, R273; log 4), and so is that JANZ changes no flag
(D22: R275, C8; log 4). Nothing else changes. Targets modulo 2^32 (D3) and that a branch not taken passes its
trailing bytes (D44) are the spec's own choices (log 4). -/
def Obligations.Jumps : Prop :=
    (∀ (cc : Cond) (x : Target) (s : State), exec (.jp cc x) s =
      .next { s with pc := if s.cond cc then s.target x else s.pc }) ∧
    (∀ (cc : Cond) (e : Byte) (s : State), exec (.jrS8 cc (.imm e)) s =
      .next { s with pc := if s.cond cc then s.branchTarget e.toInt else s.pc }) ∧
    (∀ (cc : Cond) (r : Reg16) (s : State), exec (.jrS8 cc (.reg r)) s =
      .next { s with pc := if s.cond cc then s.branchTarget ((s.reg.get16 r).setWidth 8).toInt else s.pc }) ∧
    (∀ (cc : Cond) (e : Word) (s : State), exec (.jrS16 cc (.imm e)) s =
      .next { s with pc := if s.cond cc then s.branchTarget e.toInt else s.pc }) ∧
    (∀ (cc : Cond) (r : Reg16) (s : State), exec (.jrS16 cc (.reg r)) s =
      .next { s with pc := if s.cond cc then s.branchTarget (s.reg.get16 r).toInt else s.pc }) ∧
    (∀ (e : Byte) (s : State), exec (.djnz e) s =
      .next { s with reg := { s.reg with b := s.reg.b - 1 },
                     pc := if s.reg.b = 1#16 then s.pc else s.branchTarget e.toInt }) ∧
    ∀ (e : Byte) (s : State), exec (.janz e) s =
      .next { s with pc := if s.reg.a = 0#16 then s.pc else s.branchTarget e.toInt }

/-- CALL and CALLR: when the condition holds, the address of the next instruction is pushed and PC takes the target,
which is read before SP changes; otherwise nothing changes. RST n: the same with the dword read at IVB * 1024 + 4 n
after the push; IFF1, IFF2 and the flags are unchanged. The push below SP is the spec's own choice, from the Z80
(D4: R13, R276; log 4, PRESUMED log 27); so are exactly the PC as what RST pushes (D17, log 4) and the 16-bit
register as the operand of CALLR (D10: R115, R277; log 4). The base of CALLR is the parameter REL_BASE (D9, log 1).
Targets modulo 2^32 (D3) and that a branch not taken passes its trailing bytes (D44) are the spec's own choices (log
4). -/
def Obligations.Calls : Prop :=
    (∀ (cc : Cond) (x : Target) (s : State), ∃ t, exec (.call cc x) s = .next t ∧
      (s.cond cc = false → t = s) ∧ (s.cond cc = true → ∃ u, Pushed s.pc s u ∧ t = { u with pc := s.target x })) ∧
    (∀ (cc : Cond) (e : Byte) (s : State), ∃ t, exec (.callrS8 cc (.imm e)) s = .next t ∧
      (s.cond cc = false → t = s) ∧ (s.cond cc = true → ∃ u, Pushed s.pc s u ∧ t = { u with pc := s.branchTarget e.toInt })) ∧
    (∀ (cc : Cond) (r : Reg16) (s : State), ∃ t, exec (.callrS8 cc (.reg r)) s = .next t ∧
      (s.cond cc = false → t = s) ∧ (s.cond cc = true → ∃ u, Pushed s.pc s u ∧ t = { u with pc := s.branchTarget ((s.reg.get16 r).setWidth 8).toInt })) ∧
    (∀ (cc : Cond) (e : Word) (s : State), ∃ t, exec (.callrS16 cc (.imm e)) s = .next t ∧
      (s.cond cc = false → t = s) ∧ (s.cond cc = true → ∃ u, Pushed s.pc s u ∧ t = { u with pc := s.branchTarget e.toInt })) ∧
    (∀ (cc : Cond) (r : Reg16) (s : State), ∃ t, exec (.callrS16 cc (.reg r)) s = .next t ∧
      (s.cond cc = false → t = s) ∧ (s.cond cc = true → ∃ u, Pushed s.pc s u ∧ t = { u with pc := s.branchTarget (s.reg.get16 r).toInt })) ∧
    ∀ (n : Byte) (s : State), ∃ u t, exec (.rst n) s = .next t ∧ Pushed s.pc s u ∧
      t = { u with pc := u.load .vector .dword (BitVec.ofNat 32 (s.ivb.toNat * 1024 + 4 * n.toNat)) }

/-- When the condition is false nothing changes. Otherwise PC takes the dword at SP and SP is 4 higher; RET leaves the
flip-flops; RETI sets IFF1 and IFF2; RETN copies IFF2 to IFF1. Under RET_ENABLE_DELAY the inhibit starts when IFF1
goes from 0 to 1, is as before when RETN leaves IFF1 at 0 or the delay is off, and is free when IFF1 was already 1
(U11, log 10). The six flags and everything else are unchanged. That RETI sets both flip-flops is the spec's own
choice (D15: R279, C16; log 4); RET_ENABLE_DELAY, whether RETI and RETN start the inhibit, is a parameter (D15:
R279, R280; log 1). That a pop reads at SP and then raises it is its own choice, from the Z80 (D4: R13; log 4,
PRESUMED log 27). -/
def Obligations.ReturnsFromSubroutinesAndHandlers : Prop :=
    (∀ (cc : Cond) (s : State), s.cond cc = false →
      exec (.ret cc) s = .next s ∧ exec (.reti cc) s = .next s ∧ exec (.retn cc) s = .next s) ∧
    (∀ (cc : Cond) (s : State), s.cond cc = true → ∃ t, exec (.ret cc) s = .next t ∧ Returned s t ∧
      t.reg.f = s.reg.f ∧ t.iff2 = s.iff2 ∧ t.inhibit = s.inhibit) ∧
    (∀ (cc : Cond) (s : State), s.cond cc = true → ∃ t, exec (.reti cc) s = .next t ∧ Returned s t ∧
      t.reg.f = s.reg.f ||| 0x0100#16 ∧ t.iff2 = true ∧
      (s.cfg.retEnableDelay = true → s.iff1 = false → t.inhibit = true) ∧
      (s.cfg.retEnableDelay = false → t.inhibit = s.inhibit)) ∧
    ∀ (cc : Cond) (s : State), s.cond cc = true → ∃ t, exec (.retn cc) s = .next t ∧ Returned s t ∧
      t.reg.f = (if s.iff2 then s.reg.f ||| 0x0100#16 else s.reg.f &&& ~~~0x0100#16) ∧ t.iff2 = s.iff2 ∧
      (s.cfg.retEnableDelay = true → s.iff2 = true → s.iff1 = false → t.inhibit = true) ∧
      (s.cfg.retEnableDelay = false ∨ s.iff2 = false → t.inhibit = s.inhibit)

/-- SCF: C is set, H and N cleared. CCF: C is inverted, H takes the old C, N is cleared. S, Z, P/V, the status bits of F
and everything else are unchanged; a second CCF restores C. -/
def Obligations.CarryFlagInstructions : Prop :=
    encode .scf = [0x5E#8, 0x01#8] ∧ encode .ccf = [0x5E#8, 0x02#8] ∧
    (∀ s : State, ∃ t, exec .scf s = .next t ∧ FlagFrame s t ∧
      t.flags = { s.flags with c := true, h := false, n := false }) ∧
    ∀ s : State, ∃ t, exec .ccf s = .next t ∧ FlagFrame s t ∧
      t.flags = { s.flags with h := s.flags.c, c := !s.flags.c, n := false } ∧
      ∃ u, exec .ccf t = .next u ∧ u.flags.c = s.flags.c ∧ u.flags.h = t.flags.c

/-- DI clears IFF1, IFF2 and the inhibit; IM 1 and IM 2 set the interrupt mode, in which a maskable interrupt uses
vector 1 or the device's byte; nothing else changes; the system functions 03 and 04 decode to no instruction, so
there is no IM 0. -/
def Obligations.DisableAndModes : Prop :=
    encode .di = [0x8E#8, 0x02#8] ∧ encode .im1 = [0x8E#8, 0x05#8] ∧ encode .im2 = [0x8E#8, 0x06#8] ∧
    (∀ s : State, exec .di s = .next { s with reg := { s.reg with f := s.reg.f &&& ~~~0x0100#16 }, iff2 := false,
                                                inhibit := false }) ∧
    (∀ s : State, exec .im1 s = .next { s with im := .im1 } ∧ exec .im2 s = .next { s with im := .im2 }) ∧
    (∀ (s : State) (v : Byte), State.enterInt { s with im := .im1 } v = State.interrupt { s with im := .im1 } .int 1#8 ∧
      State.enterInt { s with im := .im2 } v = State.interrupt { s with im := .im2 } .int v) ∧
    ∀ (m : Config.MltDivSS) (rest : List Byte), decode m (0x8E#8 :: 0x03#8 :: rest) = .error .unassignedOpcode ∧
      decode m (0x8E#8 :: 0x04#8 :: rest) = .error .unassignedOpcode

/-- HALT sets halted. EI sets IFF1 and IFF2 at once and, when IFF1 was 0, starts the inhibit (free when it was 1: log
10). LD I, nn writes the zero-extended nn to IVB (the spec's own reading, D27). LD R, A copies A to R. LD A, R
changes A alone, to a value nothing is said of (free, log 9). Nothing else changes. That EI starts the inhibit for
certain only when IFF1 was 0 (D14), and that R does not count (D28), are the spec's own choices (log 4, log 9). -/
def Obligations.HaltEnableAndSystemRegisters : Prop :=
    (∀ s : State, exec .halt s = .next { s with halted := true }) ∧
    (∀ s : State, ∃ t, exec .ei s = .next t ∧ (s.iff1 = false → t.inhibit = true) ∧
      t = { s with reg := { s.reg with f := s.reg.f ||| 0x0100#16 }, iff2 := true, inhibit := t.inhibit }) ∧
    (∀ (nn : Word) (s : State), ∃ t, exec (.ldI nn) s = .next t ∧ t.ivb.toNat = nn.toNat ∧ t = { s with ivb := t.ivb }) ∧
    (∀ s : State, exec .ldRA s = .next { s with r := s.reg.a }) ∧
    ∀ s : State, ∃ t, exec .ldAR s = .next t ∧ t = { s with reg := { s.reg with a := t.reg.a } }
end

