-- ==== Sys2Proof/Laws/Flags.lean ====
section
/-! SUPPORT. The flag computations agree with arithmetic on integers and on bits. -/

namespace Sys2Proof.Machine

theorem ofNat_toNat_bool (w : Nat) (c : Bool) : BitVec.ofNat w c.toNat = BitVec.setWidth w (BitVec.ofBool c) := by
  apply BitVec.eq_of_toNat_eq; cases c <;> simp

/-- The carry into bit 4 of a sum, in its bits. -/
theorem sum_bit4 {w : Nat} (hw : 4 < w) (a b : BitVec w) (c : Bool) :
    (a ^^^ b ^^^ (a + b + BitVec.ofNat w c.toNat)).getLsbD 4 =
      decide (16 ≤ a.toNat % 16 + b.toNat % 16 + c.toNat) := by
  rw [ofNat_toNat_bool, BitVec.getLsbD_xor, BitVec.getLsbD_xor, BitVec.getLsbD_add_add_bool hw]
  simp only [BitVec.carry]
  generalize a.getLsbD 4 = x, b.getLsbD 4 = y
  cases x <;> cases y <;> simp

/-- The borrow from bit 4 of a difference, in its bits. -/
theorem difference_bit4 {w : Nat} (hw : 4 < w) (a b : BitVec w) (c : Bool) :
    (a ^^^ b ^^^ (a - b - BitVec.ofNat w c.toNat)).getLsbD 4 =
      decide (a.toNat % 16 < b.toNat % 16 + c.toNat) := by
  have e : a - b - BitVec.ofNat w c.toNat = a + ~~~b + BitVec.setWidth w (BitVec.ofBool !c) := by
    rw [← ofNat_toNat_bool, BitVec.sub_eq_add_neg a b, BitVec.neg_eq_not_add b, ← BitVec.add_assoc]
    cases c
    · simp
    · simp
  rw [e, BitVec.getLsbD_xor, BitVec.getLsbD_xor, BitVec.getLsbD_add_add_bool hw]
  have hn : (~~~b).toNat % 16 = 15 - b.toNat % 16 := by
    have hp : 2 ^ w = 2 ^ 4 * 2 ^ (w - 4) := by rw [← Nat.pow_add]; congr 1; omega
    have := b.isLt
    rw [BitVec.toNat_not, hp]; rw [hp] at this
    generalize 2 ^ (w - 4) = k at this ⊢
    omega
  have hb : (~~~b).getLsbD 4 = !b.getLsbD 4 := by simp [hw]
  simp only [BitVec.carry, hb]
  rw [show (2 : Nat) ^ 4 = 16 by decide, hn]
  generalize a.getLsbD 4 = x, b.getLsbD 4 = y
  cases x <;> cases y <;> cases c <;> simp <;> rw [← decide_not, decide_eq_decide] <;> omega

theorem signedOverflow_iff {w : Nat} (hw : 0 < w) (e : Int) :
    signedOverflow w e = true ↔ (BitVec.ofInt w e).toInt ≠ e := by
  have h1 := BitVec.toInt_lt (x := BitVec.ofInt w e)
  have h2 := BitVec.le_toInt (BitVec.ofInt w e)
  simp only [signedOverflow, Bool.or_eq_true, decide_eq_true_eq, Int.natCast_pow, Int.cast_ofNat_Int]
  constructor
  · intro h; omega
  · intro h
    by_contra hc
    exact h (BitVec.toInt_ofInt_eq_self hw (by omega) (by omega))

theorem ofInt_sum {w : Nat} (a b : BitVec w) (c : Bool) :
    BitVec.ofInt w (a.toInt + b.toInt + (c.toNat : Int)) = a + b + BitVec.ofNat w c.toNat := by
  rw [BitVec.ofInt_add, BitVec.ofInt_add, BitVec.ofInt_toInt, BitVec.ofInt_toInt, BitVec.ofInt_natCast]

theorem ofInt_difference {w : Nat} (a b : BitVec w) (c : Bool) :
    BitVec.ofInt w (a.toInt - b.toInt - (c.toNat : Int)) = a - b - BitVec.ofNat w c.toNat := by
  rw [Int.sub_eq_add_neg, Int.sub_eq_add_neg, BitVec.ofInt_add, BitVec.ofInt_add, BitVec.ofInt_neg, BitVec.ofInt_neg,
    BitVec.ofInt_toInt, BitVec.ofInt_toInt, BitVec.ofInt_natCast, BitVec.sub_eq_add_neg, BitVec.sub_eq_add_neg]

theorem sub_eq_zero_iff {w : Nat} (a b : BitVec w) : a - b = 0#w ↔ a = b := by
  constructor
  · intro h
    have := congrArg (· + b) h
    simpa using this
  · rintro rfl; simp

/-- The sum and its flags (R15). -/
theorem addFlags_value {w : Nat} (a b : BitVec w) (c : Bool) :
    (addFlags a b c).1 = a + b + BitVec.ofNat w c.toNat := by
  apply BitVec.eq_of_toNat_eq; simp [addFlags, BitVec.toNat_add]

theorem addFlags_flags {w : Nat} (hw : 4 < w) (a b : BitVec w) (c : Bool) :
    SumFlags a b c (addFlags a b c).2 := by
  have v := addFlags_value a b c
  refine ⟨?_, ?_, ?_, ?_, rfl, ?_⟩
  · rw [← v]; rfl
  · rw [← v]; simp [addFlags]
  · rw [sum_bit4 hw]; rfl
  · rw [← ofInt_sum]; exact signedOverflow_iff (by omega) _
  · rw [← v]
    simp only [addFlags, decide_eq_true_eq, BitVec.toNat_ofNat]
    constructor
    · intro h h'
      have := Nat.mod_lt (a.toNat + b.toNat + c.toNat) (Nat.two_pow_pos w)
      omega
    · intro h; by_contra hc; exact h (Nat.mod_eq_of_lt (by omega))

/-- The difference and its flags (R15). -/
theorem subFlags_value {w : Nat} (a b : BitVec w) (c : Bool) :
    (subFlags a b c).1 = a - b - BitVec.ofNat w c.toNat := rfl

theorem subFlags_flags {w : Nat} (hw : 4 < w) (a b : BitVec w) (c : Bool) :
    DifferenceFlags a b c (subFlags a b c).2 := by
  refine ⟨rfl, ?_, ?_, ?_, rfl, ?_⟩
  · simp [subFlags]
  · rw [difference_bit4 hw]; rfl
  · rw [← ofInt_difference]; exact signedOverflow_iff (by omega) _
  · simp only [subFlags, decide_eq_true_eq]; omega

theorem oddOnes_filter {w : Nat} (v : BitVec w) : ∀ k, k ≤ w →
    oddOnes v.toNat k = decide (((List.range k).filter fun i => v.getLsbD i).length % 2 = 1)
  | 0, _ => rfl
  | k + 1, h => by
    rw [oddOnes, oddOnes_filter v k (by omega), List.range_succ, List.filter_append, List.length_append]
    have e : v.toNat.testBit k = v.getLsbD k := rfl
    rw [e]
    generalize ((List.range k).filter fun i => v.getLsbD i).length = m
    rcases Nat.mod_two_eq_zero_or_one m with h | h <;> cases hk : v.getLsbD k <;>
      simp [h, hk] <;> omega

/-- Parity is that of the number of 1 bits of the result (R15). -/
theorem parityEven_iff {w : Nat} (v : BitVec w) : parityEven v = true ↔ ones v % 2 = 0 := by
  rw [parityEven, oddOnes_filter v w (Nat.le_refl w), ones]
  simp

theorem logicFlags_flags {w : Nat} (r : BitVec w) (h : Bool) : LogicalFlags r h (logicFlags r h) :=
  ⟨rfl, by simp [logicFlags], rfl, parityEven_iff r, rfl, rfl⟩

end Sys2Proof.Machine
end

