-- ==== Sys2Proof/Laws/Memory.lean ====
section
/-! SUPPORT. Memory: a write is read back, leaves every other address alone, and keeps the canonical form; equal
contents are equal data. -/

namespace Sys2Proof.Machine

theorem cellsWf_cons {lo a : Nat} {v : Byte} {tl : List Host.Cell} :
    cellsWf lo ((a, v) :: tl) = true ↔ lo ≤ a ∧ a < physSize ∧ v ≠ unlistedByte ∧ cellsWf (a + 1) tl = true := by
  simp only [cellsWf, Bool.and_eq_true, decide_eq_true_eq]
  exact ⟨fun ⟨⟨⟨h1, h2⟩, h3⟩, h4⟩ => ⟨h1, h2, h3, h4⟩, fun ⟨h1, h2, h3, h4⟩ => ⟨⟨⟨h1, h2⟩, h3⟩, h4⟩⟩

theorem cellsWf_mono {lo lo' : Nat} (h : lo' ≤ lo) : ∀ {l : List Host.Cell}, cellsWf lo l = true → cellsWf lo' l = true
  | [], _ => rfl
  | _ :: _, hw => by
    obtain ⟨h1, h2, h3, h4⟩ := cellsWf_cons.1 hw
    exact cellsWf_cons.2 ⟨by omega, h2, h3, h4⟩

theorem cellsRead_below {a : Nat} : ∀ {lo : Nat} {l : List Host.Cell}, cellsWf lo l = true → a < lo →
    cellsRead l a = unlistedByte
  | _, [], _, _ => rfl
  | _, (b, _) :: tl, hw, ha => by
    obtain ⟨h1, _, _, h4⟩ := cellsWf_cons.1 hw
    rw [cellsRead, if_neg (by omega)]
    exact cellsRead_below h4 (by omega)

theorem cellsRead_write_same {a : Nat} {v : Byte} : ∀ {lo : Nat} {l : List Host.Cell}, cellsWf lo l = true →
    cellsRead (cellsWrite l a v) a = v
  | _, [], _ => by
    unfold cellsWrite; split
    · next h => rw [h]; rfl
    · simp [cellsRead]
  | _, (b, w) :: tl, hw => by
    obtain ⟨_, _, _, h4⟩ := cellsWf_cons.1 hw
    unfold cellsWrite
    split
    · next hlt =>
      split
      · next hv => rw [cellsRead, if_neg (by omega), cellsRead_below h4 (by omega), hv]
      · simp [cellsRead]
    · split
      · next heq =>
        split
        · next hv => rw [cellsRead_below h4 (by omega), hv]
        · simp [cellsRead]
      · next hne => rw [cellsRead, if_neg hne]; exact cellsRead_write_same h4

theorem cellsRead_write_other {a b : Nat} {v : Byte} (h : b ≠ a) : ∀ {l : List Host.Cell},
    cellsRead (cellsWrite l a v) b = cellsRead l b
  | [] => by unfold cellsWrite; split <;> simp [cellsRead, h]
  | (c, w) :: tl => by
    unfold cellsWrite
    split
    · split <;> simp [cellsRead, h]
    · split
      · next heq => subst heq; split <;> simp [cellsRead, h]
      · simp only [cellsRead]; split
        · rfl
        · exact cellsRead_write_other h

theorem cellsWf_write {a : Nat} {v : Byte} (ha : a < physSize) : ∀ {lo : Nat} {l : List Host.Cell},
    cellsWf lo l = true → lo ≤ a → cellsWf lo (cellsWrite l a v) = true
  | _, [], _, hlo => by
    unfold cellsWrite; split
    · rfl
    · next hv => exact cellsWf_cons.2 ⟨hlo, ha, hv, rfl⟩
  | _, (b, w) :: tl, hw, hlo => by
    obtain ⟨h1, h2, h3, h4⟩ := cellsWf_cons.1 hw
    unfold cellsWrite
    split
    · next hlt =>
      split
      · exact hw
      · next hv => exact cellsWf_cons.2 ⟨hlo, ha, hv, cellsWf_cons.2 ⟨by omega, h2, h3, h4⟩⟩
    · split
      · next heq =>
        split
        · exact cellsWf_mono (by omega) h4
        · next hv => exact cellsWf_cons.2 ⟨hlo, ha, hv, by subst heq; exact h4⟩
      · exact cellsWf_cons.2 ⟨h1, h2, h3, cellsWf_write ha h4 (by omega)⟩

theorem cellsWf_filter (p : Host.Cell → Bool) : ∀ {lo : Nat} {l : List Host.Cell}, cellsWf lo l = true →
    cellsWf lo (l.filter p) = true
  | _, [], _ => rfl
  | _, c :: tl, hw => by
    obtain ⟨h1, h2, h3, h4⟩ := cellsWf_cons.1 hw
    rw [List.filter_cons]
    split
    · exact cellsWf_cons.2 ⟨h1, h2, h3, cellsWf_filter p h4⟩
    · exact cellsWf_mono (by omega) (cellsWf_filter p h4)

/-- The cells of two canonical lists that read alike everywhere are the same. -/
theorem cells_ext : ∀ {lo : Nat} {l l' : List Host.Cell}, cellsWf lo l = true → cellsWf lo l' = true →
    (∀ a, cellsRead l a = cellsRead l' a) → l = l'
  | _, [], [], _, _, _ => rfl
  | _, [], (b, w) :: tl, _, hw', h => by
    have := h b
    rw [cellsRead, cellsRead, if_pos rfl] at this
    exact absurd this.symm (cellsWf_cons.1 hw').2.2.1
  | _, (b, w) :: tl, [], hw, _, h => by
    have := h b
    rw [cellsRead, cellsRead, if_pos rfl] at this
    exact absurd this (cellsWf_cons.1 hw).2.2.1
  | _, (b, w) :: tl, (b', w') :: tl', hw, hw', h => by
    obtain ⟨h1, h2, h3, h4⟩ := cellsWf_cons.1 hw
    obtain ⟨h1', h2', h3', h4'⟩ := cellsWf_cons.1 hw'
    have hb : b = b' := by
      rcases Nat.lt_trichotomy b b' with hlt | heq | hgt
      · have := h b
        rw [cellsRead, if_pos rfl, cellsRead, if_neg (by omega), cellsRead_below h4' (by omega)] at this
        exact absurd this h3
      · exact heq
      · have := h b'
        rw [cellsRead, if_neg (by omega), cellsRead_below h4 (by omega), cellsRead, if_pos rfl] at this
        exact absurd this.symm h3'
    subst hb
    have hv : w = w' := by simpa [cellsRead] using h b
    subst hv
    rw [cells_ext h4 h4' fun a => ?_]
    by_cases ha : a = b
    · subst ha; rw [cellsRead_below h4 (by omega), cellsRead_below h4' (by omega)]
    · simpa [cellsRead, ha] using h a

theorem Memory.read_write_same {m : Memory} (h : m.wf = true) (a : Nat) (v : Byte) : (m.write a v).read a = v :=
  cellsRead_write_same h

theorem Memory.read_write_other (m : Memory) {a b : Nat} (v : Byte) (h : b ≠ a) : (m.write a v).read b = m.read b :=
  cellsRead_write_other h

theorem Memory.wf_write {m : Memory} (h : m.wf = true) {a : Nat} (ha : a < physSize) (v : Byte) : (m.write a v).wf = true :=
  cellsWf_write ha h (Nat.zero_le a)

/-- Memories in canonical form with the same bytes are the same data. -/
theorem Memory.ext_read {m m' : Memory} (h : m.wf = true) (h' : m'.wf = true) (e : ∀ a, m.read a = m'.read a) : m = m' := by
  cases m; cases m'; exact congrArg Memory.mk (cells_ext h h' e)

theorem phys_lt (a : Dword) : phys a < physSize := Nat.mod_lt _ (by decide)

theorem overwriteMem_wf (regions : List Config.Region) : ∀ (l : List Host.Cell) {m : Memory}, m.wf = true →
    (overwriteMem regions l m).wf = true
  | [], _, h => h
  | (a, v) :: tl, m, h => by
    unfold overwriteMem
    refine overwriteMem_wf regions tl ?_
    split
    · exact h
    · exact Memory.wf_write h (Nat.mod_lt _ (by decide)) v

/-- A reset keeps the canonical form of memory. -/
theorem unresetMemory_wf (regions : List Config.Region) (tick : Nat) {m : Memory} (h : m.wf = true) :
    (unresetMemory regions tick m).wf = true :=
  overwriteMem_wf regions _ (cellsWf_filter _ h)

theorem overwriteMem_read_rom (regions : List Config.Region) {p : Nat} (hp : kindIn regions p = .rom) :
    ∀ (l : List Host.Cell) (m : Memory), (overwriteMem regions l m).read p = m.read p
  | [], _ => rfl
  | (a, v) :: tl, m => by
    unfold overwriteMem
    rw [overwriteMem_read_rom regions hp tl]
    split
    · rfl
    · next hne => exact Memory.read_write_other m v fun e => hne (e ▸ hp)

theorem cellsRead_filter {p : Host.Cell → Bool} {a : Nat} (h : ∀ v, p (a, v) = true) : ∀ (l : List Host.Cell),
    cellsRead (l.filter p) a = cellsRead l a
  | [] => rfl
  | (b, v) :: tl => by
    rw [List.filter_cons]
    by_cases hb : a = b
    · subst hb; simp [h, cellsRead]
    · split <;> simp [cellsRead, hb, cellsRead_filter h tl]

/-- A reset keeps what ROM holds (R71). -/
theorem unresetMemory_read_rom (regions : List Config.Region) (tick : Nat) (m : Memory) {p : Nat}
    (hp : kindIn regions p = .rom) : (unresetMemory regions tick m).read p = m.read p := by
  rw [unresetMemory, overwriteMem_read_rom regions hp]
  exact cellsRead_filter (fun v => by simp [hp]) m.cells

/-- Memory is in its canonical form at reset. -/
theorem reset_memory_wf : State.reset.mem.wf = true := rfl

end Sys2Proof.Machine
end

