-- ==== Sys2Proof/Laws/State.lean ====
section
/-! SUPPORT. For every operation that updates the state, the fields it leaves alone, one lemma per field. -/

namespace Sys2Proof.Machine

/-! `State.set16` -/

@[simp] theorem State.set16_alt (s : State) (r : Reg16) (v : Word) : (s.set16 r v).alt = s.alt := rfl
@[simp] theorem State.set16_pc (s : State) (r : Reg16) (v : Word) : (s.set16 r v).pc = s.pc := rfl
@[simp] theorem State.set16_ivb (s : State) (r : Reg16) (v : Word) : (s.set16 r v).ivb = s.ivb := rfl
@[simp] theorem State.set16_r (s : State) (r : Reg16) (v : Word) : (s.set16 r v).r = s.r := rfl
@[simp] theorem State.set16_iff2 (s : State) (r : Reg16) (v : Word) : (s.set16 r v).iff2 = s.iff2 := rfl
@[simp] theorem State.set16_im (s : State) (r : Reg16) (v : Word) : (s.set16 r v).im = s.im := rfl
@[simp] theorem State.set16_inhibit (s : State) (r : Reg16) (v : Word) : (s.set16 r v).inhibit = s.inhibit := rfl
@[simp] theorem State.set16_halted (s : State) (r : Reg16) (v : Word) : (s.set16 r v).halted = s.halted := rfl
@[simp] theorem State.set16_nmiPending (s : State) (r : Reg16) (v : Word) : (s.set16 r v).nmiPending = s.nmiPending := rfl
@[simp] theorem State.set16_mem (s : State) (r : Reg16) (v : Word) : (s.set16 r v).mem = s.mem := rfl
@[simp] theorem State.set16_pc0 (s : State) (r : Reg16) (v : Word) : (s.set16 r v).pc0 = s.pc0 := rfl
@[simp] theorem State.set16_cfg (s : State) (r : Reg16) (v : Word) : (s.set16 r v).cfg = s.cfg := rfl
@[simp] theorem State.set16_tick (s : State) (r : Reg16) (v : Word) : (s.set16 r v).tick = s.tick := rfl
@[simp] theorem State.set16_pins (s : State) (r : Reg16) (v : Word) : (s.set16 r v).pins = s.pins := rfl
@[simp] theorem State.set16_ioIn (s : State) (r : Reg16) (v : Word) : (s.set16 r v).ioIn = s.ioIn := rfl
@[simp] theorem State.set16_trace (s : State) (r : Reg16) (v : Word) : (s.set16 r v).trace = s.trace := rfl

/-! `State.setFlags` -/

@[simp] theorem State.setFlags_alt (s : State) (fl : Flags) : (s.setFlags fl).alt = s.alt := rfl
@[simp] theorem State.setFlags_pc (s : State) (fl : Flags) : (s.setFlags fl).pc = s.pc := rfl
@[simp] theorem State.setFlags_ivb (s : State) (fl : Flags) : (s.setFlags fl).ivb = s.ivb := rfl
@[simp] theorem State.setFlags_r (s : State) (fl : Flags) : (s.setFlags fl).r = s.r := rfl
@[simp] theorem State.setFlags_iff2 (s : State) (fl : Flags) : (s.setFlags fl).iff2 = s.iff2 := rfl
@[simp] theorem State.setFlags_im (s : State) (fl : Flags) : (s.setFlags fl).im = s.im := rfl
@[simp] theorem State.setFlags_inhibit (s : State) (fl : Flags) : (s.setFlags fl).inhibit = s.inhibit := rfl
@[simp] theorem State.setFlags_halted (s : State) (fl : Flags) : (s.setFlags fl).halted = s.halted := rfl
@[simp] theorem State.setFlags_nmiPending (s : State) (fl : Flags) : (s.setFlags fl).nmiPending = s.nmiPending := rfl
@[simp] theorem State.setFlags_mem (s : State) (fl : Flags) : (s.setFlags fl).mem = s.mem := rfl
@[simp] theorem State.setFlags_pc0 (s : State) (fl : Flags) : (s.setFlags fl).pc0 = s.pc0 := rfl
@[simp] theorem State.setFlags_cfg (s : State) (fl : Flags) : (s.setFlags fl).cfg = s.cfg := rfl
@[simp] theorem State.setFlags_tick (s : State) (fl : Flags) : (s.setFlags fl).tick = s.tick := rfl
@[simp] theorem State.setFlags_pins (s : State) (fl : Flags) : (s.setFlags fl).pins = s.pins := rfl
@[simp] theorem State.setFlags_ioIn (s : State) (fl : Flags) : (s.setFlags fl).ioIn = s.ioIn := rfl
@[simp] theorem State.setFlags_trace (s : State) (fl : Flags) : (s.setFlags fl).trace = s.trace := rfl

/-! `State.setIff1` -/

@[simp] theorem State.setIff1_alt (s : State) (b : Bool) : (s.setIff1 b).alt = s.alt := rfl
@[simp] theorem State.setIff1_pc (s : State) (b : Bool) : (s.setIff1 b).pc = s.pc := rfl
@[simp] theorem State.setIff1_ivb (s : State) (b : Bool) : (s.setIff1 b).ivb = s.ivb := rfl
@[simp] theorem State.setIff1_r (s : State) (b : Bool) : (s.setIff1 b).r = s.r := rfl
@[simp] theorem State.setIff1_iff2 (s : State) (b : Bool) : (s.setIff1 b).iff2 = s.iff2 := rfl
@[simp] theorem State.setIff1_im (s : State) (b : Bool) : (s.setIff1 b).im = s.im := rfl
@[simp] theorem State.setIff1_inhibit (s : State) (b : Bool) : (s.setIff1 b).inhibit = s.inhibit := rfl
@[simp] theorem State.setIff1_halted (s : State) (b : Bool) : (s.setIff1 b).halted = s.halted := rfl
@[simp] theorem State.setIff1_nmiPending (s : State) (b : Bool) : (s.setIff1 b).nmiPending = s.nmiPending := rfl
@[simp] theorem State.setIff1_mem (s : State) (b : Bool) : (s.setIff1 b).mem = s.mem := rfl
@[simp] theorem State.setIff1_pc0 (s : State) (b : Bool) : (s.setIff1 b).pc0 = s.pc0 := rfl
@[simp] theorem State.setIff1_cfg (s : State) (b : Bool) : (s.setIff1 b).cfg = s.cfg := rfl
@[simp] theorem State.setIff1_tick (s : State) (b : Bool) : (s.setIff1 b).tick = s.tick := rfl
@[simp] theorem State.setIff1_pins (s : State) (b : Bool) : (s.setIff1 b).pins = s.pins := rfl
@[simp] theorem State.setIff1_ioIn (s : State) (b : Bool) : (s.setIff1 b).ioIn = s.ioIn := rfl
@[simp] theorem State.setIff1_trace (s : State) (b : Bool) : (s.setIff1 b).trace = s.trace := rfl

/-! `State.startInhibit` -/

@[simp] theorem State.startInhibit_reg (s : State) (b : Bool) : (s.startInhibit b).reg = s.reg := rfl
@[simp] theorem State.startInhibit_alt (s : State) (b : Bool) : (s.startInhibit b).alt = s.alt := rfl
@[simp] theorem State.startInhibit_pc (s : State) (b : Bool) : (s.startInhibit b).pc = s.pc := rfl
@[simp] theorem State.startInhibit_ivb (s : State) (b : Bool) : (s.startInhibit b).ivb = s.ivb := rfl
@[simp] theorem State.startInhibit_r (s : State) (b : Bool) : (s.startInhibit b).r = s.r := rfl
@[simp] theorem State.startInhibit_iff2 (s : State) (b : Bool) : (s.startInhibit b).iff2 = s.iff2 := rfl
@[simp] theorem State.startInhibit_im (s : State) (b : Bool) : (s.startInhibit b).im = s.im := rfl
@[simp] theorem State.startInhibit_halted (s : State) (b : Bool) : (s.startInhibit b).halted = s.halted := rfl
@[simp] theorem State.startInhibit_nmiPending (s : State) (b : Bool) : (s.startInhibit b).nmiPending = s.nmiPending := rfl
@[simp] theorem State.startInhibit_mem (s : State) (b : Bool) : (s.startInhibit b).mem = s.mem := rfl
@[simp] theorem State.startInhibit_pc0 (s : State) (b : Bool) : (s.startInhibit b).pc0 = s.pc0 := rfl
@[simp] theorem State.startInhibit_cfg (s : State) (b : Bool) : (s.startInhibit b).cfg = s.cfg := rfl
@[simp] theorem State.startInhibit_tick (s : State) (b : Bool) : (s.startInhibit b).tick = s.tick := rfl
@[simp] theorem State.startInhibit_pins (s : State) (b : Bool) : (s.startInhibit b).pins = s.pins := rfl
@[simp] theorem State.startInhibit_ioIn (s : State) (b : Bool) : (s.startInhibit b).ioIn = s.ioIn := rfl
@[simp] theorem State.startInhibit_trace (s : State) (b : Bool) : (s.startInhibit b).trace = s.trace := rfl

/-! `State.writeF` -/

@[simp] theorem State.writeF_alt (s : State) (v : Word) : (s.writeF v).alt = s.alt := by
  unfold State.writeF; dsimp only; split <;> rfl
@[simp] theorem State.writeF_pc (s : State) (v : Word) : (s.writeF v).pc = s.pc := by
  unfold State.writeF; dsimp only; split <;> rfl
@[simp] theorem State.writeF_ivb (s : State) (v : Word) : (s.writeF v).ivb = s.ivb := by
  unfold State.writeF; dsimp only; split <;> rfl
@[simp] theorem State.writeF_r (s : State) (v : Word) : (s.writeF v).r = s.r := by
  unfold State.writeF; dsimp only; split <;> rfl
@[simp] theorem State.writeF_im (s : State) (v : Word) : (s.writeF v).im = s.im := by
  unfold State.writeF; dsimp only; split <;> rfl
@[simp] theorem State.writeF_halted (s : State) (v : Word) : (s.writeF v).halted = s.halted := by
  unfold State.writeF; dsimp only; split <;> rfl
@[simp] theorem State.writeF_nmiPending (s : State) (v : Word) : (s.writeF v).nmiPending = s.nmiPending := by
  unfold State.writeF; dsimp only; split <;> rfl
@[simp] theorem State.writeF_mem (s : State) (v : Word) : (s.writeF v).mem = s.mem := by
  unfold State.writeF; dsimp only; split <;> rfl
@[simp] theorem State.writeF_pc0 (s : State) (v : Word) : (s.writeF v).pc0 = s.pc0 := by
  unfold State.writeF; dsimp only; split <;> rfl
@[simp] theorem State.writeF_cfg (s : State) (v : Word) : (s.writeF v).cfg = s.cfg := by
  unfold State.writeF; dsimp only; split <;> rfl
@[simp] theorem State.writeF_tick (s : State) (v : Word) : (s.writeF v).tick = s.tick := by
  unfold State.writeF; dsimp only; split <;> rfl
@[simp] theorem State.writeF_pins (s : State) (v : Word) : (s.writeF v).pins = s.pins := by
  unfold State.writeF; dsimp only; split <;> rfl
@[simp] theorem State.writeF_ioIn (s : State) (v : Word) : (s.writeF v).ioIn = s.ioIn := by
  unfold State.writeF; dsimp only; split <;> rfl
@[simp] theorem State.writeF_trace (s : State) (v : Word) : (s.writeF v).trace = s.trace := by
  unfold State.writeF; dsimp only; split <;> rfl

/-! `State.set32` -/

@[simp] theorem State.set32_alt (s : State) (r : Reg32) (v : Dword) : (s.set32 r v).alt = s.alt := by
  cases r <;> simp [State.set32]
@[simp] theorem State.set32_pc (s : State) (r : Reg32) (v : Dword) : (s.set32 r v).pc = s.pc := by
  cases r <;> simp [State.set32]
@[simp] theorem State.set32_ivb (s : State) (r : Reg32) (v : Dword) : (s.set32 r v).ivb = s.ivb := by
  cases r <;> simp [State.set32]
@[simp] theorem State.set32_r (s : State) (r : Reg32) (v : Dword) : (s.set32 r v).r = s.r := by
  cases r <;> simp [State.set32]
@[simp] theorem State.set32_im (s : State) (r : Reg32) (v : Dword) : (s.set32 r v).im = s.im := by
  cases r <;> simp [State.set32]
@[simp] theorem State.set32_halted (s : State) (r : Reg32) (v : Dword) : (s.set32 r v).halted = s.halted := by
  cases r <;> simp [State.set32]
@[simp] theorem State.set32_nmiPending (s : State) (r : Reg32) (v : Dword) : (s.set32 r v).nmiPending = s.nmiPending := by
  cases r <;> simp [State.set32]
@[simp] theorem State.set32_mem (s : State) (r : Reg32) (v : Dword) : (s.set32 r v).mem = s.mem := by
  cases r <;> simp [State.set32]
@[simp] theorem State.set32_pc0 (s : State) (r : Reg32) (v : Dword) : (s.set32 r v).pc0 = s.pc0 := by
  cases r <;> simp [State.set32]
@[simp] theorem State.set32_cfg (s : State) (r : Reg32) (v : Dword) : (s.set32 r v).cfg = s.cfg := by
  cases r <;> simp [State.set32]
@[simp] theorem State.set32_tick (s : State) (r : Reg32) (v : Dword) : (s.set32 r v).tick = s.tick := by
  cases r <;> simp [State.set32]
@[simp] theorem State.set32_pins (s : State) (r : Reg32) (v : Dword) : (s.set32 r v).pins = s.pins := by
  cases r <;> simp [State.set32]
@[simp] theorem State.set32_ioIn (s : State) (r : Reg32) (v : Dword) : (s.set32 r v).ioIn = s.ioIn := by
  cases r <;> simp [State.set32]
@[simp] theorem State.set32_trace (s : State) (r : Reg32) (v : Dword) : (s.set32 r v).trace = s.trace := by
  cases r <;> simp [State.set32]

/-! `State.setReg` -/

@[simp] theorem State.setReg_alt (s : State) (ss : Size) (d : RegField) (v : BitVec ss.bits) : (s.setReg ss d v).alt = s.alt := by
  cases ss <;> simp [State.setReg]
@[simp] theorem State.setReg_pc (s : State) (ss : Size) (d : RegField) (v : BitVec ss.bits) : (s.setReg ss d v).pc = s.pc := by
  cases ss <;> simp [State.setReg]
@[simp] theorem State.setReg_ivb (s : State) (ss : Size) (d : RegField) (v : BitVec ss.bits) : (s.setReg ss d v).ivb = s.ivb := by
  cases ss <;> simp [State.setReg]
@[simp] theorem State.setReg_r (s : State) (ss : Size) (d : RegField) (v : BitVec ss.bits) : (s.setReg ss d v).r = s.r := by
  cases ss <;> simp [State.setReg]
@[simp] theorem State.setReg_im (s : State) (ss : Size) (d : RegField) (v : BitVec ss.bits) : (s.setReg ss d v).im = s.im := by
  cases ss <;> simp [State.setReg]
@[simp] theorem State.setReg_halted (s : State) (ss : Size) (d : RegField) (v : BitVec ss.bits) : (s.setReg ss d v).halted = s.halted := by
  cases ss <;> simp [State.setReg]
@[simp] theorem State.setReg_nmiPending (s : State) (ss : Size) (d : RegField) (v : BitVec ss.bits) : (s.setReg ss d v).nmiPending = s.nmiPending := by
  cases ss <;> simp [State.setReg]
@[simp] theorem State.setReg_mem (s : State) (ss : Size) (d : RegField) (v : BitVec ss.bits) : (s.setReg ss d v).mem = s.mem := by
  cases ss <;> simp [State.setReg]
@[simp] theorem State.setReg_pc0 (s : State) (ss : Size) (d : RegField) (v : BitVec ss.bits) : (s.setReg ss d v).pc0 = s.pc0 := by
  cases ss <;> simp [State.setReg]
@[simp] theorem State.setReg_cfg (s : State) (ss : Size) (d : RegField) (v : BitVec ss.bits) : (s.setReg ss d v).cfg = s.cfg := by
  cases ss <;> simp [State.setReg]
@[simp] theorem State.setReg_tick (s : State) (ss : Size) (d : RegField) (v : BitVec ss.bits) : (s.setReg ss d v).tick = s.tick := by
  cases ss <;> simp [State.setReg]
@[simp] theorem State.setReg_pins (s : State) (ss : Size) (d : RegField) (v : BitVec ss.bits) : (s.setReg ss d v).pins = s.pins := by
  cases ss <;> simp [State.setReg]
@[simp] theorem State.setReg_ioIn (s : State) (ss : Size) (d : RegField) (v : BitVec ss.bits) : (s.setReg ss d v).ioIn = s.ioIn := by
  cases ss <;> simp [State.setReg]
@[simp] theorem State.setReg_trace (s : State) (ss : Size) (d : RegField) (v : BitVec ss.bits) : (s.setReg ss d v).trace = s.trace := by
  cases ss <;> simp [State.setReg]

/-! `State.writeByte` -/

@[simp] theorem State.writeByte_reg (s : State) (a : Dword) (v : Byte) : (s.writeByte a v).reg = s.reg := by
  unfold State.writeByte; split <;> rfl
@[simp] theorem State.writeByte_alt (s : State) (a : Dword) (v : Byte) : (s.writeByte a v).alt = s.alt := by
  unfold State.writeByte; split <;> rfl
@[simp] theorem State.writeByte_pc (s : State) (a : Dword) (v : Byte) : (s.writeByte a v).pc = s.pc := by
  unfold State.writeByte; split <;> rfl
@[simp] theorem State.writeByte_ivb (s : State) (a : Dword) (v : Byte) : (s.writeByte a v).ivb = s.ivb := by
  unfold State.writeByte; split <;> rfl
@[simp] theorem State.writeByte_r (s : State) (a : Dword) (v : Byte) : (s.writeByte a v).r = s.r := by
  unfold State.writeByte; split <;> rfl
@[simp] theorem State.writeByte_iff2 (s : State) (a : Dword) (v : Byte) : (s.writeByte a v).iff2 = s.iff2 := by
  unfold State.writeByte; split <;> rfl
@[simp] theorem State.writeByte_im (s : State) (a : Dword) (v : Byte) : (s.writeByte a v).im = s.im := by
  unfold State.writeByte; split <;> rfl
@[simp] theorem State.writeByte_inhibit (s : State) (a : Dword) (v : Byte) : (s.writeByte a v).inhibit = s.inhibit := by
  unfold State.writeByte; split <;> rfl
@[simp] theorem State.writeByte_halted (s : State) (a : Dword) (v : Byte) : (s.writeByte a v).halted = s.halted := by
  unfold State.writeByte; split <;> rfl
@[simp] theorem State.writeByte_nmiPending (s : State) (a : Dword) (v : Byte) : (s.writeByte a v).nmiPending = s.nmiPending := by
  unfold State.writeByte; split <;> rfl
@[simp] theorem State.writeByte_pc0 (s : State) (a : Dword) (v : Byte) : (s.writeByte a v).pc0 = s.pc0 := by
  unfold State.writeByte; split <;> rfl
@[simp] theorem State.writeByte_cfg (s : State) (a : Dword) (v : Byte) : (s.writeByte a v).cfg = s.cfg := by
  unfold State.writeByte; split <;> rfl
@[simp] theorem State.writeByte_tick (s : State) (a : Dword) (v : Byte) : (s.writeByte a v).tick = s.tick := by
  unfold State.writeByte; split <;> rfl
@[simp] theorem State.writeByte_pins (s : State) (a : Dword) (v : Byte) : (s.writeByte a v).pins = s.pins := by
  unfold State.writeByte; split <;> rfl
@[simp] theorem State.writeByte_ioIn (s : State) (a : Dword) (v : Byte) : (s.writeByte a v).ioIn = s.ioIn := by
  unfold State.writeByte; split <;> rfl

/-! `State.store` -/

@[simp] theorem State.store_reg (s : State) (ss : Size) (a : Dword) (v : BitVec ss.bits) : (s.store ss a v).reg = s.reg := by
  cases ss <;> simp [State.store]
@[simp] theorem State.store_alt (s : State) (ss : Size) (a : Dword) (v : BitVec ss.bits) : (s.store ss a v).alt = s.alt := by
  cases ss <;> simp [State.store]
@[simp] theorem State.store_pc (s : State) (ss : Size) (a : Dword) (v : BitVec ss.bits) : (s.store ss a v).pc = s.pc := by
  cases ss <;> simp [State.store]
@[simp] theorem State.store_ivb (s : State) (ss : Size) (a : Dword) (v : BitVec ss.bits) : (s.store ss a v).ivb = s.ivb := by
  cases ss <;> simp [State.store]
@[simp] theorem State.store_r (s : State) (ss : Size) (a : Dword) (v : BitVec ss.bits) : (s.store ss a v).r = s.r := by
  cases ss <;> simp [State.store]
@[simp] theorem State.store_iff2 (s : State) (ss : Size) (a : Dword) (v : BitVec ss.bits) : (s.store ss a v).iff2 = s.iff2 := by
  cases ss <;> simp [State.store]
@[simp] theorem State.store_im (s : State) (ss : Size) (a : Dword) (v : BitVec ss.bits) : (s.store ss a v).im = s.im := by
  cases ss <;> simp [State.store]
@[simp] theorem State.store_inhibit (s : State) (ss : Size) (a : Dword) (v : BitVec ss.bits) : (s.store ss a v).inhibit = s.inhibit := by
  cases ss <;> simp [State.store]
@[simp] theorem State.store_halted (s : State) (ss : Size) (a : Dword) (v : BitVec ss.bits) : (s.store ss a v).halted = s.halted := by
  cases ss <;> simp [State.store]
@[simp] theorem State.store_nmiPending (s : State) (ss : Size) (a : Dword) (v : BitVec ss.bits) : (s.store ss a v).nmiPending = s.nmiPending := by
  cases ss <;> simp [State.store]
@[simp] theorem State.store_pc0 (s : State) (ss : Size) (a : Dword) (v : BitVec ss.bits) : (s.store ss a v).pc0 = s.pc0 := by
  cases ss <;> simp [State.store]
@[simp] theorem State.store_cfg (s : State) (ss : Size) (a : Dword) (v : BitVec ss.bits) : (s.store ss a v).cfg = s.cfg := by
  cases ss <;> simp [State.store]
@[simp] theorem State.store_tick (s : State) (ss : Size) (a : Dword) (v : BitVec ss.bits) : (s.store ss a v).tick = s.tick := by
  cases ss <;> simp [State.store]
@[simp] theorem State.store_pins (s : State) (ss : Size) (a : Dword) (v : BitVec ss.bits) : (s.store ss a v).pins = s.pins := by
  cases ss <;> simp [State.store]
@[simp] theorem State.store_ioIn (s : State) (ss : Size) (a : Dword) (v : BitVec ss.bits) : (s.store ss a v).ioIn = s.ioIn := by
  cases ss <;> simp [State.store]

/-! `State.afterIoRead` -/

@[simp] theorem State.afterIoRead_reg (s : State) (z : NSize) (p : Word) : (s.afterIoRead z p).reg = s.reg := rfl
@[simp] theorem State.afterIoRead_alt (s : State) (z : NSize) (p : Word) : (s.afterIoRead z p).alt = s.alt := rfl
@[simp] theorem State.afterIoRead_pc (s : State) (z : NSize) (p : Word) : (s.afterIoRead z p).pc = s.pc := rfl
@[simp] theorem State.afterIoRead_ivb (s : State) (z : NSize) (p : Word) : (s.afterIoRead z p).ivb = s.ivb := rfl
@[simp] theorem State.afterIoRead_r (s : State) (z : NSize) (p : Word) : (s.afterIoRead z p).r = s.r := rfl
@[simp] theorem State.afterIoRead_iff2 (s : State) (z : NSize) (p : Word) : (s.afterIoRead z p).iff2 = s.iff2 := rfl
@[simp] theorem State.afterIoRead_im (s : State) (z : NSize) (p : Word) : (s.afterIoRead z p).im = s.im := rfl
@[simp] theorem State.afterIoRead_inhibit (s : State) (z : NSize) (p : Word) : (s.afterIoRead z p).inhibit = s.inhibit := rfl
@[simp] theorem State.afterIoRead_halted (s : State) (z : NSize) (p : Word) : (s.afterIoRead z p).halted = s.halted := rfl
@[simp] theorem State.afterIoRead_nmiPending (s : State) (z : NSize) (p : Word) : (s.afterIoRead z p).nmiPending = s.nmiPending := rfl
@[simp] theorem State.afterIoRead_mem (s : State) (z : NSize) (p : Word) : (s.afterIoRead z p).mem = s.mem := rfl
@[simp] theorem State.afterIoRead_pc0 (s : State) (z : NSize) (p : Word) : (s.afterIoRead z p).pc0 = s.pc0 := rfl
@[simp] theorem State.afterIoRead_cfg (s : State) (z : NSize) (p : Word) : (s.afterIoRead z p).cfg = s.cfg := rfl
@[simp] theorem State.afterIoRead_tick (s : State) (z : NSize) (p : Word) : (s.afterIoRead z p).tick = s.tick := rfl
@[simp] theorem State.afterIoRead_pins (s : State) (z : NSize) (p : Word) : (s.afterIoRead z p).pins = s.pins := rfl

/-! `State.ioWrite` -/

@[simp] theorem State.ioWrite_reg (s : State) (z : NSize) (p v : Word) : (s.ioWrite z p v).reg = s.reg := rfl
@[simp] theorem State.ioWrite_alt (s : State) (z : NSize) (p v : Word) : (s.ioWrite z p v).alt = s.alt := rfl
@[simp] theorem State.ioWrite_pc (s : State) (z : NSize) (p v : Word) : (s.ioWrite z p v).pc = s.pc := rfl
@[simp] theorem State.ioWrite_ivb (s : State) (z : NSize) (p v : Word) : (s.ioWrite z p v).ivb = s.ivb := rfl
@[simp] theorem State.ioWrite_r (s : State) (z : NSize) (p v : Word) : (s.ioWrite z p v).r = s.r := rfl
@[simp] theorem State.ioWrite_iff2 (s : State) (z : NSize) (p v : Word) : (s.ioWrite z p v).iff2 = s.iff2 := rfl
@[simp] theorem State.ioWrite_im (s : State) (z : NSize) (p v : Word) : (s.ioWrite z p v).im = s.im := rfl
@[simp] theorem State.ioWrite_inhibit (s : State) (z : NSize) (p v : Word) : (s.ioWrite z p v).inhibit = s.inhibit := rfl
@[simp] theorem State.ioWrite_halted (s : State) (z : NSize) (p v : Word) : (s.ioWrite z p v).halted = s.halted := rfl
@[simp] theorem State.ioWrite_nmiPending (s : State) (z : NSize) (p v : Word) : (s.ioWrite z p v).nmiPending = s.nmiPending := rfl
@[simp] theorem State.ioWrite_mem (s : State) (z : NSize) (p v : Word) : (s.ioWrite z p v).mem = s.mem := rfl
@[simp] theorem State.ioWrite_pc0 (s : State) (z : NSize) (p v : Word) : (s.ioWrite z p v).pc0 = s.pc0 := rfl
@[simp] theorem State.ioWrite_cfg (s : State) (z : NSize) (p v : Word) : (s.ioWrite z p v).cfg = s.cfg := rfl
@[simp] theorem State.ioWrite_tick (s : State) (z : NSize) (p v : Word) : (s.ioWrite z p v).tick = s.tick := rfl
@[simp] theorem State.ioWrite_pins (s : State) (z : NSize) (p v : Word) : (s.ioWrite z p v).pins = s.pins := rfl
@[simp] theorem State.ioWrite_ioIn (s : State) (z : NSize) (p v : Word) : (s.ioWrite z p v).ioIn = s.ioIn := rfl

/-! `State.push32` -/

@[simp] theorem State.push32_alt (s : State) (v : Dword) : (s.push32 v).alt = s.alt := by
  simp [State.push32]
@[simp] theorem State.push32_pc (s : State) (v : Dword) : (s.push32 v).pc = s.pc := by
  simp [State.push32]
@[simp] theorem State.push32_ivb (s : State) (v : Dword) : (s.push32 v).ivb = s.ivb := by
  simp [State.push32]
@[simp] theorem State.push32_r (s : State) (v : Dword) : (s.push32 v).r = s.r := by
  simp [State.push32]
@[simp] theorem State.push32_iff2 (s : State) (v : Dword) : (s.push32 v).iff2 = s.iff2 := by
  simp [State.push32]
@[simp] theorem State.push32_im (s : State) (v : Dword) : (s.push32 v).im = s.im := by
  simp [State.push32]
@[simp] theorem State.push32_inhibit (s : State) (v : Dword) : (s.push32 v).inhibit = s.inhibit := by
  simp [State.push32]
@[simp] theorem State.push32_halted (s : State) (v : Dword) : (s.push32 v).halted = s.halted := by
  simp [State.push32]
@[simp] theorem State.push32_nmiPending (s : State) (v : Dword) : (s.push32 v).nmiPending = s.nmiPending := by
  simp [State.push32]
@[simp] theorem State.push32_pc0 (s : State) (v : Dword) : (s.push32 v).pc0 = s.pc0 := by
  simp [State.push32]
@[simp] theorem State.push32_cfg (s : State) (v : Dword) : (s.push32 v).cfg = s.cfg := by
  simp [State.push32]
@[simp] theorem State.push32_tick (s : State) (v : Dword) : (s.push32 v).tick = s.tick := by
  simp [State.push32]
@[simp] theorem State.push32_pins (s : State) (v : Dword) : (s.push32 v).pins = s.pins := by
  simp [State.push32]
@[simp] theorem State.push32_ioIn (s : State) (v : Dword) : (s.push32 v).ioIn = s.ioIn := by
  simp [State.push32]

/-! `State.dropStack` -/

@[simp] theorem State.dropStack_alt (s : State) : (s.dropStack).alt = s.alt := rfl
@[simp] theorem State.dropStack_pc (s : State) : (s.dropStack).pc = s.pc := rfl
@[simp] theorem State.dropStack_ivb (s : State) : (s.dropStack).ivb = s.ivb := rfl
@[simp] theorem State.dropStack_r (s : State) : (s.dropStack).r = s.r := rfl
@[simp] theorem State.dropStack_iff2 (s : State) : (s.dropStack).iff2 = s.iff2 := rfl
@[simp] theorem State.dropStack_im (s : State) : (s.dropStack).im = s.im := rfl
@[simp] theorem State.dropStack_inhibit (s : State) : (s.dropStack).inhibit = s.inhibit := rfl
@[simp] theorem State.dropStack_halted (s : State) : (s.dropStack).halted = s.halted := rfl
@[simp] theorem State.dropStack_nmiPending (s : State) : (s.dropStack).nmiPending = s.nmiPending := rfl
@[simp] theorem State.dropStack_mem (s : State) : (s.dropStack).mem = s.mem := rfl
@[simp] theorem State.dropStack_pc0 (s : State) : (s.dropStack).pc0 = s.pc0 := rfl
@[simp] theorem State.dropStack_cfg (s : State) : (s.dropStack).cfg = s.cfg := rfl
@[simp] theorem State.dropStack_tick (s : State) : (s.dropStack).tick = s.tick := rfl
@[simp] theorem State.dropStack_pins (s : State) : (s.dropStack).pins = s.pins := rfl
@[simp] theorem State.dropStack_ioIn (s : State) : (s.dropStack).ioIn = s.ioIn := rfl
@[simp] theorem State.dropStack_trace (s : State) : (s.dropStack).trace = s.trace := rfl

/-! `State.popReturn` -/

@[simp] theorem State.popReturn_alt (s : State) : (s.popReturn).alt = s.alt := rfl
@[simp] theorem State.popReturn_ivb (s : State) : (s.popReturn).ivb = s.ivb := rfl
@[simp] theorem State.popReturn_r (s : State) : (s.popReturn).r = s.r := rfl
@[simp] theorem State.popReturn_iff2 (s : State) : (s.popReturn).iff2 = s.iff2 := rfl
@[simp] theorem State.popReturn_im (s : State) : (s.popReturn).im = s.im := rfl
@[simp] theorem State.popReturn_inhibit (s : State) : (s.popReturn).inhibit = s.inhibit := rfl
@[simp] theorem State.popReturn_halted (s : State) : (s.popReturn).halted = s.halted := rfl
@[simp] theorem State.popReturn_nmiPending (s : State) : (s.popReturn).nmiPending = s.nmiPending := rfl
@[simp] theorem State.popReturn_mem (s : State) : (s.popReturn).mem = s.mem := rfl
@[simp] theorem State.popReturn_pc0 (s : State) : (s.popReturn).pc0 = s.pc0 := rfl
@[simp] theorem State.popReturn_cfg (s : State) : (s.popReturn).cfg = s.cfg := rfl
@[simp] theorem State.popReturn_tick (s : State) : (s.popReturn).tick = s.tick := rfl
@[simp] theorem State.popReturn_pins (s : State) : (s.popReturn).pins = s.pins := rfl
@[simp] theorem State.popReturn_ioIn (s : State) : (s.popReturn).ioIn = s.ioIn := rfl
@[simp] theorem State.popReturn_trace (s : State) : (s.popReturn).trace = s.trace := rfl

end Sys2Proof.Machine
end

