-- ==== Sys2Proof/Laws/Ops.lean ====
section
/-! SUPPORT. What each shared operation over memory, registers and F does, said once. -/

namespace Sys2Proof.Machine

/-! ## Memory accesses -/

theorem phys_add (a : Dword) (k : Nat) : phys (a + BitVec.ofNat 32 k) = cellAt a k := by
  simp [phys, cellAt, physSize, BitVec.toNat_add]

theorem phys_zero (a : Dword) : phys a = cellAt a 0 := by
  have := a.isLt
  simp only [phys, cellAt, physSize, Nat.add_zero]; omega

theorem cellAt_ne (a : Dword) {j k : Nat} (hj : j < 4) (hk : k < 4) (h : j ≠ k) : cellAt a j ≠ cellAt a k := by
  have := a.isLt
  simp only [cellAt]; omega

@[simp] theorem State.writeByte_kindAt (s : State) (a : Dword) (v : Byte) (p : Nat) :
    (s.writeByte a v).kindAt p = s.kindAt p := by simp [State.kindAt]

theorem State.writeByte_wf {s : State} (h : s.mem.wf = true) (a : Dword) (v : Byte) :
    (s.writeByte a v).mem.wf = true := by
  unfold State.writeByte; split
  · exact Memory.wf_write h (phys_lt a) v
  all_goals exact h

theorem State.writeByte_read_same {s : State} (h : s.mem.wf = true) {a : Dword} (hr : s.kindAt (phys a) = .ram)
    (v : Byte) : (s.writeByte a v).mem.read (phys a) = v := by
  rw [State.writeByte, hr]; exact Memory.read_write_same h _ v

theorem State.writeByte_read_other {s : State} {a : Dword} {p : Nat} (v : Byte)
    (hp : s.kindAt p = .ram → p ≠ phys a) : (s.writeByte a v).mem.read p = s.mem.read p := by
  unfold State.writeByte; split
  · next hr => exact Memory.read_write_other _ v fun e => hp (e ▸ hr) e
  all_goals rfl

theorem State.writeByte_trace (s : State) (a : Dword) (v : Byte) : (s.writeByte a v).trace =
    s.trace ++ (if s.kindAt (phys a) = .device then [.memWrite (phys a) v] else []) := by
  unfold State.writeByte; split <;> simp [*]

theorem State.store_wf {s : State} (h : s.mem.wf = true) (ss : Size) (a : Dword) (v : BitVec ss.bits) :
    (s.store ss a v).mem.wf = true := by
  cases ss <;> simp only [State.store] <;> repeat apply State.writeByte_wf
  all_goals exact h

theorem State.store_byte (s : State) (a : Dword) (v : Byte) : Stored .byte a v s (s.store .byte a v) where
  written h k hk hr := by
    obtain rfl : k = 0 := by simp only [sizeBytes] at hk; omega
    rw [← phys_zero] at hr ⊢
    simpa [State.store, byteOf] using State.writeByte_read_same h hr v
  kept p hp := State.writeByte_read_other v fun hr => phys_zero a ▸ hp 0 (by decide) hr
  events := by
    simp only [State.store, State.writeByte_trace, phys_zero]
    by_cases h0 : s.kindAt (cellAt a 0) = .device <;> simp [sizeBytes, List.range_succ, byteOf, h0]

theorem phys_one (a : Dword) : phys (a + 1) = cellAt a 1 := phys_add a 1
theorem phys_two (a : Dword) : phys (a + 2) = cellAt a 2 := phys_add a 2
theorem phys_three (a : Dword) : phys (a + 3) = cellAt a 3 := phys_add a 3

theorem State.store_word (s : State) (a : Dword) (v : Word) : Stored .word a v s (s.store .word a v) where
  written h k hk hr := by
    simp only [sizeBytes] at hk
    simp only [State.store]
    have hk' : k = 0 ∨ k = 1 := by omega
    rcases hk' with rfl | rfl
    · rw [State.writeByte_read_other, ← phys_zero, State.writeByte_read_same h (phys_zero a ▸ hr)]
      · ext i hi; simp [byteOf]
      · intro _; rw [phys_one]; exact cellAt_ne a (by decide) (by decide) (by decide)
    · rw [← phys_one, State.writeByte_read_same (State.writeByte_wf h _ _)]
      · rfl
      · simp only [State.writeByte_kindAt, phys_one]; exact hr
  kept p hp := by
    simp only [sizeBytes] at hp
    simp only [State.store]
    rw [State.writeByte_read_other, State.writeByte_read_other]
    · intro hr; rw [phys_zero]; exact hp 0 (by decide) hr
    · intro hr; rw [phys_one]; exact hp 1 (by decide) (by simpa using hr)
  events := by
    simp only [State.store, State.writeByte_trace, State.writeByte_kindAt, phys_zero a, phys_one a, sizeBytes]
    have e : BitVec.setWidth 8 v = byteOf v 0 := by ext i hi; simp [byteOf]
    rw [e, show BitVec.extractLsb' 8 8 v = byteOf v 1 from rfl]
    by_cases h0 : s.kindAt (cellAt a 0) = .device <;> by_cases h1 : s.kindAt (cellAt a 1) = .device <;>
      simp [List.range_succ, h0, h1]

theorem State.store_dword (s : State) (a v : Dword) : Stored .dword a v s (s.store .dword a v) where
  written h k hk hr := by
    simp only [sizeBytes] at hk
    simp only [State.store]
    have e : BitVec.setWidth 8 v = byteOf v 0 := by ext i hi; simp [byteOf]
    have ne : ∀ {i j : Nat}, i < 4 → j < 4 → i ≠ j → cellAt a i ≠ cellAt a j := fun hi hj h => cellAt_ne a hi hj h
    have hk' : k = 0 ∨ k = 1 ∨ k = 2 ∨ k = 3 := by omega
    have w1 := State.writeByte_wf h a (v.setWidth 8)
    have w2 := State.writeByte_wf w1 (a + 1) (v.extractLsb' 8 8)
    have w3 := State.writeByte_wf w2 (a + 2) (v.extractLsb' 16 8)
    rcases hk' with rfl | rfl | rfl | rfl
    · rw [State.writeByte_read_other _ fun _ => phys_three a ▸ ne (by decide) (by decide) (by decide),
        State.writeByte_read_other _ fun _ => phys_two a ▸ ne (by decide) (by decide) (by decide),
        State.writeByte_read_other _ fun _ => phys_one a ▸ ne (by decide) (by decide) (by decide),
        ← phys_zero, State.writeByte_read_same h (phys_zero a ▸ hr), e]
    · rw [State.writeByte_read_other _ fun _ => phys_three a ▸ ne (by decide) (by decide) (by decide),
        State.writeByte_read_other _ fun _ => phys_two a ▸ ne (by decide) (by decide) (by decide),
        ← phys_one, State.writeByte_read_same w1 (by simp only [State.writeByte_kindAt, phys_one]; exact hr)]
      rfl
    · rw [State.writeByte_read_other _ fun _ => phys_three a ▸ ne (by decide) (by decide) (by decide),
        ← phys_two, State.writeByte_read_same w2 (by simp only [State.writeByte_kindAt, phys_two]; exact hr)]
      rfl
    · rw [← phys_three, State.writeByte_read_same w3 (by simp only [State.writeByte_kindAt, phys_three]; exact hr)]
      rfl
  kept p hp := by
    simp only [sizeBytes] at hp
    simp only [State.store]
    rw [State.writeByte_read_other, State.writeByte_read_other, State.writeByte_read_other,
      State.writeByte_read_other]
    · intro hr; rw [phys_zero]; exact hp 0 (by decide) hr
    · intro hr; rw [phys_one]; exact hp 1 (by decide) (by simpa using hr)
    · intro hr; rw [phys_two]; exact hp 2 (by decide) (by simpa using hr)
    · intro hr; rw [phys_three]; exact hp 3 (by decide) (by simpa using hr)
  events := by
    simp only [State.store, State.writeByte_trace, State.writeByte_kindAt, phys_zero a, phys_one a, phys_two a,
      phys_three a, sizeBytes]
    have e : BitVec.setWidth 8 v = byteOf v 0 := by ext i hi; simp [byteOf]
    rw [e, show BitVec.extractLsb' 8 8 v = byteOf v 1 from rfl, show BitVec.extractLsb' 16 8 v = byteOf v 2 from rfl,
      show BitVec.extractLsb' 24 8 v = byteOf v 3 from rfl]
    by_cases h0 : s.kindAt (cellAt a 0) = .device <;> by_cases h1 : s.kindAt (cellAt a 1) = .device <;>
      by_cases h2 : s.kindAt (cellAt a 2) = .device <;> by_cases h3 : s.kindAt (cellAt a 3) = .device <;>
      simp [List.range_succ, h0, h1, h2, h3]

/-- What a store does (R63, R71). -/
theorem State.store_stored (s : State) (ss : Size) (a : Dword) (v : BitVec ss.bits) :
    Stored ss a v s (s.store ss a v) :=
  match ss, v with
  | .byte, v => s.store_byte a v
  | .word, v => s.store_word a v
  | .dword, v => s.store_dword a v

/-- A store changes nothing but memory and the trace. -/
theorem State.store_rest (s : State) (ss : Size) (a : Dword) (v : BitVec ss.bits) :
    s.store ss a v = { s with mem := (s.store ss a v).mem, trace := (s.store ss a v).trace } := by
  apply State.ext <;> simp

/-- A load depends on the parameters, the step counter and memory alone. -/
theorem State.load_congr {s t : State} (hc : t.cfg = s.cfg) (ht : t.tick = s.tick) (hm : t.mem = s.mem)
    (k : Config.Access) (ss : Size) (a : Dword) : t.load k ss a = s.load k ss a := by
  have e : ∀ x, t.readByte k x = s.readByte k x := fun x => by
    simp only [State.readByte, State.kindAt, hc, ht, hm]
  cases ss <;> simp only [State.load, e]

/-- Byte `j` of what a load gives is the byte at the `j`-th address (R62). -/
theorem State.byteOf_load (s : State) (k : Config.Access) (ss : Size) (a : Dword) {j : Nat} (hj : j < sizeBytes ss) :
    byteOf (s.load k ss a) j = s.readByte k (a + BitVec.ofNat 32 j) := by
  apply BitVec.eq_of_getLsbD_eq
  intro i hi
  cases ss <;> simp only [sizeBytes] at hj
  · obtain rfl : j = 0 := by omega
    simp [byteOf, State.load, hi]
  · have : j = 0 ∨ j = 1 := by omega
    rcases this with rfl | rfl <;>
      (rw [byteOf, BitVec.getLsbD_extractLsb', State.load, BitVec.getLsbD_append]; simp [hi])
  · have : j = 0 ∨ j = 1 ∨ j = 2 ∨ j = 3 := by omega
    rcases this with rfl | rfl | rfl | rfl <;>
      (rw [byteOf, BitVec.getLsbD_extractLsb', State.load, BitVec.getLsbD_append, BitVec.getLsbD_append,
        BitVec.getLsbD_append])
    · simp [hi]
    · rw [if_neg (by omega), if_pos (by omega), show 8 * 1 + i - 8 = i by omega]; simp [hi]
    · rw [if_neg (by omega), if_neg (by omega), if_pos (by omega), show 8 * 2 + i - 8 - 8 = i by omega]; simp [hi]
    · rw [if_neg (by omega), if_neg (by omega), if_neg (by omega), show 8 * 3 + i - 8 - 8 - 8 = i by omega]; simp [hi]

/-- Two values with the same bytes are equal. -/
theorem eq_of_byteOf {ss : Size} {v w : BitVec ss.bits} (h : ∀ j, j < sizeBytes ss → byteOf v j = byteOf w j) :
    v = w := by
  apply BitVec.eq_of_getLsbD_eq
  intro i hi
  have hj : i / 8 < sizeBytes ss := by cases ss <;> simp only [sizeBytes, Size.bits] at hi ⊢ <;> omega
  have := congrArg (fun b => b.getLsbD (i % 8)) (h _ hj)
  simp only [byteOf, BitVec.getLsbD_extractLsb'] at this
  have e : 8 * (i / 8) + i % 8 = i := by omega
  simpa [e, Nat.mod_lt] using this

/-! ## Registers and F -/

@[simp] theorem Bank.get16_set16_same (g : Bank) (r : Reg16) (v : Word) : (g.set16 r v).get16 r = v := by
  cases r <;> rfl

theorem Bank.get16_set16_other (g : Bank) {r r' : Reg16} (v : Word) (h : r' ≠ r) :
    (g.set16 r v).get16 r' = g.get16 r' := by
  cases r <;> cases r' <;> first | exact absurd rfl h | rfl

@[simp] theorem Bank.f_set16 (g : Bank) (r : Reg16) (v : Word) : (g.set16 r v).f = g.f := by cases r <;> rfl
@[simp] theorem Bank.ix_set16 (g : Bank) (r : Reg16) (v : Word) : (g.set16 r v).ix = g.ix := by cases r <;> rfl
@[simp] theorem Bank.iy_set16 (g : Bank) (r : Reg16) (v : Word) : (g.set16 r v).iy = g.iy := by cases r <;> rfl
@[simp] theorem Bank.sp_set16 (g : Bank) (r : Reg16) (v : Word) : (g.set16 r v).sp = g.sp := by cases r <;> rfl

/-- A pair gives back the halves of what was written. -/
theorem hiWord_append_loWord (v : Dword) : hiWord v ++ loWord v = v := by
  apply BitVec.eq_of_getLsbD_eq
  intro i hi
  simp only [hiWord, loWord, BitVec.getLsbD_append, BitVec.getLsbD_setWidth, BitVec.getLsbD_extractLsb']
  by_cases h : i < 16
  · simp [h]
  · have : i - 16 < 16 := by omega
    simp [h, this, show 16 + (i - 16) = i by omega]

@[simp] theorem hiWord_append (a b : Word) : hiWord (a ++ b) = a := by
  apply BitVec.eq_of_getLsbD_eq
  intro i hi
  rw [hiWord, BitVec.getLsbD_extractLsb', BitVec.getLsbD_append]
  simp [hi]

@[simp] theorem loWord_append (a b : Word) : loWord (a ++ b) = b := by
  apply BitVec.eq_of_getLsbD_eq
  intro i hi
  rw [loWord, BitVec.getLsbD_setWidth, BitVec.getLsbD_append]
  simp [hi]

/-- What a write of F as data does (R34). -/
theorem State.writeF_written (s : State) (v : Word) : FWritten v s (s.writeF v) where
  value := by unfold State.writeF; dsimp only; split <;> rfl
  iff2 := by unfold State.writeF; dsimp only; split <;> rfl
  started h h1 := by rw [State.writeF]; dsimp only; rw [if_pos h, State.startInhibit, h1]; rfl
  kept h := by rw [State.writeF]; dsimp only; rw [if_neg (by rw [h]; decide)]

@[simp] theorem State.writeF_f (s : State) (v : Word) : (s.writeF v).reg.f = v &&& 0x01D7#16 := (s.writeF_written v).value

theorem State.writeF_reg (s : State) (v : Word) : (s.writeF v).reg = { s.reg with f := v &&& 0x01D7#16 } := by
  unfold State.writeF; dsimp only; split <;> rfl

/-- A write of F as data changes nothing else. -/
theorem State.writeF_rest (s : State) (v : Word) : s.writeF v =
    { s with reg := { s.reg with f := v &&& 0x01D7#16 }, iff2 := v.getLsbD 8, inhibit := (s.writeF v).inhibit } := by
  apply State.ext <;> simp [State.writeF_reg, (s.writeF_written v).iff2]

theorem withLowByte_low (w : Word) (v : Byte) : (withLowByte w v).setWidth 8 = v := by
  apply BitVec.eq_of_getLsbD_eq
  intro i hi
  rw [BitVec.getLsbD_setWidth, withLowByte, BitVec.getLsbD_append]
  simp [hi]

theorem withLowByte_high (w : Word) (v : Byte) : (withLowByte w v).extractLsb' 8 8 = w.extractLsb' 8 8 := by
  apply BitVec.eq_of_getLsbD_eq
  intro i hi
  rw [BitVec.getLsbD_extractLsb', withLowByte, BitVec.getLsbD_append]
  simp [hi]

theorem bankFrame_refl (ws : List Reg16) (xs : List Reg32) (g : Bank) : BankFrame ws xs g g :=
  ⟨fun _ _ => rfl, fun _ _ _ => rfl⟩

theorem State.set16_bankFrame (s : State) (r : Reg16) (v : Word) : BankFrame [r] [] s.reg (s.set16 r v).reg where
  words r' h := Bank.get16_set16_other _ _ (by simpa using h)
  index x h _ := by
    simp only [List.mem_cons, List.not_mem_nil, or_false] at h
    rcases h with rfl | rfl | rfl <;> simp [State.set16, Bank.get32]

theorem Bank.get32_set32 (g : Bank) (r : Reg32) (v : Dword) : (g.set32 r v).get32 r = v := by
  cases r <;> first | rfl | exact hiWord_append_loWord v

theorem Bank.f_set32 (g : Bank) {d : RegField} (hd : d ≠ .r0) (v : Dword) : (g.set32 d.reg32 v).f = g.f := by
  cases d <;> first | rfl | exact absurd rfl hd

theorem Bank.set32_bankFrame (g : Bank) {d : RegField} (hd : d ≠ .r0) (v : Dword) :
    BankFrame (fieldWords .dword d) (fieldIndex .dword d) g (g.set32 d.reg32 v) where
  words r hr := by
    cases d <;> cases r <;> simp_all [fieldWords, Bank.set32, Bank.get16]
  index x hx hn := by
    cases d <;> cases x <;> simp_all [fieldIndex, Bank.set32, Bank.get32]

theorem State.set32_plain (s : State) {d : RegField} (hd : d ≠ .r0) (v : Dword) :
    s.set32 d.reg32 v = { s with reg := s.reg.set32 d.reg32 v } := by
  cases d <;> first | rfl | exact absurd rfl hd

/-- What a sized register write does (R10, R140). -/
theorem State.setReg_written (s : State) (ss : Size) (d : RegField) (v : BitVec ss.bits) :
    RegWritten ss d v s (s.setReg ss d v) := by
  cases ss
  · refine ⟨fun _ => ⟨?_, ?_, ?_⟩, fun h => by cases h⟩
    · simp [State.getReg, State.setReg, State.get16, State.set16, withLowByte_low]
    · simp [State.setReg, State.set16]
    · exact ⟨s.set16_bankFrame _ _, by simp [SameStatus, State.setReg, State.set16], fun _ => by
        simp [State.upperByte, State.setReg, State.get16, State.set16, withLowByte_high], rfl⟩
  · refine ⟨fun _ => ⟨?_, ?_, ?_⟩, fun h => by cases h⟩
    · simp [State.getReg, State.setReg, State.get16, State.set16]
    · simp [State.setReg, State.set16]
    · exact ⟨s.set16_bankFrame _ _, by simp [SameStatus, State.setReg, State.set16], fun h => (by cases h), rfl⟩
  · refine ⟨fun h => ?_, fun _ hd => ?_⟩
    · have hd := h rfl
      simp only [State.setReg, State.getReg, State.get32, s.set32_plain hd]
      exact ⟨Bank.get32_set32 .., Bank.f_set32 _ hd _, Bank.set32_bankFrame _ hd _,
        congrArg (· &&& ~~~0x00D7#16) (Bank.f_set32 _ hd _), fun h => (by cases h), rfl⟩
    · subst hd
      have w := (s.set16 .a (hiWord v)).writeF_written (loWord v)
      refine ⟨?_, ⟨?_, ?_, ?_, ?_⟩, ?_⟩
      · simp [State.setReg, State.set32, State.writeF_reg, State.set16, Bank.set16, hiWord]
      · exact w.value
      · exact w.iff2
      · exact fun h h1 => w.started h h1
      · exact fun h => w.kept h
      · simp only [State.setReg, State.set32]
        rw [State.writeF_rest]
        rfl

/-- Reading back a register that was written, AF apart. -/
theorem State.getReg_setReg (s : State) {ss : Size} {d : RegField} (h : ss = .dword → d ≠ .r0) (v : BitVec ss.bits) :
    (s.setReg ss d v).getReg ss d = v := ((s.setReg_written ss d v).plain h).1

theorem RegField.reg16_ne {d r : RegField} (h : r ≠ d) : r.reg16 ≠ d.reg16 := by
  cases d <;> cases r <;> first | exact absurd rfl h | decide

theorem Bank.get32_set32_other (g : Bank) {r r' : Reg32} (v : Dword) (h : r' ≠ r) :
    (g.set32 r v).get32 r' = g.get32 r' := by
  cases r <;> cases r' <;> first | exact absurd rfl h | rfl

theorem RegField.reg32_ne {d r : RegField} (h : r ≠ d) : r.reg32 ≠ d.reg32 := by
  cases d <;> cases r <;> first | exact absurd rfl h | decide

/-- A register other than the written one, AF apart. -/
theorem State.getReg_setReg_other (s : State) {ss : Size} {d r : RegField} (hd : ss = .dword → d ≠ .r0) (h : r ≠ d)
    (v : BitVec ss.bits) : (s.setReg ss d v).getReg ss r = s.getReg ss r := by
  cases ss
  · simp only [State.getReg, State.setReg, State.get16, State.set16, Bank.get16_set16_other _ _ (RegField.reg16_ne h)]
  · simp only [State.getReg, State.setReg, State.get16, State.set16, Bank.get16_set16_other _ _ (RegField.reg16_ne h)]
  · simp only [State.getReg, State.setReg, State.get32, s.set32_plain (hd rfl),
      Bank.get32_set32_other _ _ (RegField.reg32_ne h)]

/-- A write of AF (R140 (b)): A takes the high word, F the low word as data. -/
theorem State.set32_af (s : State) (v : Dword) : s.set32 .af v =
    { s with
      reg := { s.reg with a := hiWord v, f := loWord v &&& 0x01D7#16 }, iff2 := (loWord v).getLsbD 8
      inhibit := (s.set32 .af v).inhibit } := by
  have e : s.set32 .af v = (s.set16 .a (hiWord v)).writeF (loWord v) := rfl
  rw [e]
  conv => lhs; rw [State.writeF_rest]
  rfl

/-! ## The flags -/

@[simp] theorem flagsOf_withFlags (f : Word) (fl : Flags) : flagsOf (withFlags f fl) = fl := by
  obtain ⟨s, z, h, pv, n, c⟩ := fl
  cases s <;> cases z <;> cases h <;> cases pv <;> cases n <;> cases c <;>
    simp [flagsOf, withFlags, flagBit, flagMask]

theorem withFlags_status (f : Word) (fl : Flags) : withFlags f fl &&& ~~~0x00D7#16 = f &&& ~~~0x00D7#16 := by
  have e : ∀ (b : Bool) (m : Word), m &&& ~~~0x00D7#16 = 0#16 → flagBit b m &&& ~~~0x00D7#16 = 0#16 := by
    intro b m h
    cases b
    · exact BitVec.zero_and
    · exact h
  simp only [withFlags, BitVec.and_or_distrib_right, flagMask, BitVec.and_assoc, BitVec.and_self]
  rw [e _ _ (by decide), e _ _ (by decide), e _ _ (by decide), e _ _ (by decide), e _ _ (by decide),
    e _ _ (by decide)]
  simp

@[simp] theorem State.flags_setFlags (s : State) (fl : Flags) : (s.setFlags fl).flags = fl := flagsOf_withFlags _ _

theorem flagBit_getLsbD (b : Bool) (m : Word) (i : Nat) : (flagBit b m).getLsbD i = (b && m.getLsbD i) := by
  cases b
  · exact BitVec.getLsbD_zero
  · simp [flagBit]

theorem withFlags_flagsOf (f : Word) : withFlags f (flagsOf f) = f := by
  apply BitVec.eq_of_getLsbD_eq
  intro i hi
  simp only [withFlags, flagsOf, BitVec.getLsbD_or, BitVec.getLsbD_and, BitVec.getLsbD_not, flagBit_getLsbD, flagMask]
  interval_cases i <;> simp

/-- Setting the flags to what they are changes nothing. -/
theorem State.setFlags_self (s : State) : s.setFlags s.flags = s := by
  simp only [State.setFlags, State.flags, withFlags_flagsOf]

/-- Setting the flags changes nothing else (R31). -/
theorem State.setFlags_frame (s : State) (fl : Flags) : FlagFrame s (s.setFlags fl) :=
  ⟨withFlags_status _ _, rfl⟩

end Sys2Proof.Machine
end

