-- ==== Sys2Proof/Laws/Operands.lean ====
section
/-! SUPPORT. What each shape of instruction does, said once: when it answers a next state, and what that state is. -/

namespace Sys2Proof.Machine

theorem isAF_false {ss : Size} {d : RegField} (h : ss = .dword → d ≠ .r0) : isAF ss d = false := by
  simp only [isAF, decide_eq_false_iff_not, not_and]; exact h

theorem State.getReg_setFlags (s : State) {ss : Size} {d : RegField} (h : ss = .dword → d ≠ .r0) (fl : Flags) :
    (s.setFlags fl).getReg ss d = s.getReg ss d := by
  cases ss
  · cases d <;> rfl
  · cases d <;> rfl
  · cases d <;> first | rfl | exact absurd rfl (h rfl)

theorem RegFrame.setFlags {ss : Size} {d : RegField} {s t : State} (h : RegFrame ss d s t) (fl : Flags) :
    RegFrame ss d s (t.setFlags fl) where
  bank := {
    words := fun r hr => by rw [← h.bank.words r hr]; cases r <;> rfl
    index := fun x hx hn => by
      rw [← h.bank.index x hx hn]
      simp only [List.mem_cons, List.not_mem_nil, or_false] at hx
      rcases hx with rfl | rfl | rfl <;> rfl }
  status := (t.setFlags_frame fl).status.trans h.status
  upper hb := by rw [← h.upper hb]; cases d <;> rfl
  rest := by
    have := h.rest
    apply State.ext <;> simp <;> rw [this]

/-- A register and the flags written together, AF apart: the whole effect. -/
theorem writeBack_next {ss : Size} {d : RegField} (r : BitVec ss.bits × Flags) (s : State)
    (h : ss = .dword → d ≠ .r0) :
    ∃ t, writeBack ss d r s = .next t ∧ RegFrame ss d s t ∧ t.getReg ss d = r.1 ∧ t.flags = r.2 := by
  refine ⟨_, if_neg (by simp [isAF_false h]), ?_, ?_, ?_⟩
  · exact ((s.setReg_written ss d r.1).plain h).2.2.setFlags _
  · rw [State.getReg_setFlags _ h, State.getReg_setReg _ h]
  · exact State.flags_setFlags _ _

/-- AF is refused. -/
theorem writeBack_af (r : BitVec Size.dword.bits × Flags) (s : State) :
    writeBack .dword .r0 r s = .refused .afDestination := rfl

/-- A store with the flags set: the whole effect. -/
theorem State.store_setFlags (s : State) (ss : Size) (a : Dword) (v : BitVec ss.bits) (fl : Flags) :
    MemFrame ss a v s ((s.store ss a v).setFlags fl) where
  stored := {
    written := (s.store_stored ss a v).written
    kept := (s.store_stored ss a v).kept
    events := (s.store_stored ss a v).events }
  status := by
    have := ((s.store ss a v).setFlags_frame fl).status
    simpa [SameStatus] using this
  rest := by apply State.ext <;> simp [State.setFlags]

/-- A two-operand instruction on registers. -/
theorem binR_next {ss : Size} (op : Flags → BitVec ss.bits → BitVec ss.bits → BitVec ss.bits × Flags) {d : RegField}
    (src : Src) (s : State) (h : ss = .dword → d ≠ .r0) :
    ∃ t, binR op d src s = .next t ∧ RegFrame ss d s t ∧
      t.getReg ss d = (op s.flags (s.getReg ss d) (s.srcVal ss src)).1 ∧
      t.flags = (op s.flags (s.getReg ss d) (s.srcVal ss src)).2 := writeBack_next _ s h

/-- A two-operand instruction with memory as the destination. -/
theorem binM_toMem {ss : Size} (op : Flags → BitVec ss.bits → BitVec ss.bits → BitVec ss.bits × Flags) (ea : Addr)
    (src : Src) (s : State) :
    ∃ t, binM op ea (.toMem src) s = .next t ∧
      MemFrame ss (s.ea ea) (op s.flags (s.load .data ss (s.ea ea)) (s.srcVal ss src)).1 s t ∧
      t.flags = (op s.flags (s.load .data ss (s.ea ea)) (s.srcVal ss src)).2 :=
  ⟨_, rfl, State.store_setFlags .., State.flags_setFlags ..⟩

/-- A two-operand instruction with a register as the destination and memory as the source. -/
theorem binM_toReg {ss : Size} (op : Flags → BitVec ss.bits → BitVec ss.bits → BitVec ss.bits × Flags) (ea : Addr)
    {d : RegField} (s : State) (h : ss = .dword → d ≠ .r0) :
    ∃ t, binM op ea (.toReg d) s = .next t ∧ RegFrame ss d s t ∧
      t.getReg ss d = (op s.flags (s.getReg ss d) (s.load .data ss (s.ea ea))).1 ∧
      t.flags = (op s.flags (s.getReg ss d) (s.load .data ss (s.ea ea))).2 := writeBack_next _ s h

/-- A one-operand instruction on a register. -/
theorem unR_next {ss : Size} (op : Flags → BitVec ss.bits → BitVec ss.bits × Flags) {r : RegField} (s : State)
    (h : ss = .dword → r ≠ .r0) :
    ∃ t, unR op r s = .next t ∧ RegFrame ss r s t ∧ t.getReg ss r = (op s.flags (s.getReg ss r)).1 ∧
      t.flags = (op s.flags (s.getReg ss r)).2 := writeBack_next _ s h

/-- A one-operand instruction on memory. -/
theorem unM_next {ss : Size} (op : Flags → BitVec ss.bits → BitVec ss.bits × Flags) (ea : Addr) (s : State) :
    ∃ t, unM op ea s = .next t ∧ MemFrame ss (s.ea ea) (op s.flags (s.load .data ss (s.ea ea))).1 s t ∧
      t.flags = (op s.flags (s.load .data ss (s.ea ea))).2 :=
  ⟨_, rfl, State.store_setFlags .., State.flags_setFlags ..⟩

/-- A shift or rotate of a register. -/
theorem shiftR_next (kind : ShiftKind) {ss : Size} {d : RegField} (n : Count) (s : State)
    (h : ss = .dword → d ≠ .r0) :
    ∃ t, shiftR kind ss d n s = .next t ∧ RegFrame ss d s t ∧
      t.getReg ss d = (shiftOp kind (s.countVal ss n) s.flags (s.getReg ss d)).1 ∧
      t.flags = (shiftOp kind (s.countVal ss n) s.flags (s.getReg ss d)).2 := writeBack_next _ s h

/-- A shift or rotate of memory. -/
theorem shiftM_onMem (kind : ShiftKind) (ss : Size) (ea : Addr) (n : Count) (s : State) :
    ∃ t, shiftM kind ss ea (.onMem n) s = .next t ∧
      MemFrame ss (s.ea ea) (shiftOp kind (s.countVal ss n) s.flags (s.load .data ss (s.ea ea))).1 s t ∧
      t.flags = (shiftOp kind (s.countVal ss n) s.flags (s.load .data ss (s.ea ea))).2 :=
  ⟨_, rfl, State.store_setFlags .., State.flags_setFlags ..⟩

/-- A shift or rotate of a register by a count in memory. -/
theorem shiftM_onReg (kind : ShiftKind) {ss : Size} (ea : Addr) {d : RegField} (s : State)
    (h : ss = .dword → d ≠ .r0) :
    ∃ t, shiftM kind ss ea (.onReg d) s = .next t ∧ RegFrame ss d s t ∧
      t.getReg ss d = (shiftOp kind (s.load .data ss (s.ea ea)).toNat s.flags (s.getReg ss d)).1 ∧
      t.flags = (shiftOp kind (s.load .data ss (s.ea ea)).toNat s.flags (s.getReg ss d)).2 := writeBack_next _ s h

/-- MLT, DIV or SDIV of a register whose size `MLTDIV_SS` lists. -/
theorem mltDivR_next {z : WSize} {ss : Size} {s : State} {d : RegField}
    (op : (w : Nat) → Flags → Flags → BitVec w → BitVec w → BitVec w × Flags)
    (h : mltDivTarget s.cfg.mltDivSS ss = some z) (hd : z = .dword → d ≠ .r0) :
    ∃ t free, mltDivR op ss d s = .next t ∧ RegFrame z.size d s t ∧
      t.getReg z.size d = (op z.size.bits s.freeFlags s.flags free (s.getReg z.size d)).1 ∧
      t.flags = (op z.size.bits s.freeFlags s.flags free (s.getReg z.size d)).2 := by
  simp only [mltDivR, h]
  obtain ⟨t, a, b, c, e⟩ := writeBack_next (d := d) (op z.size.bits s.freeFlags s.flags
    ((Config.undefTarget s.tick).setWidth z.size.bits) (s.getReg z.size d)) s (by cases z <;> simp_all)
  exact ⟨t, _, a, b, c, e⟩

/-- MLT, DIV or SDIV of a memory cell whose size `MLTDIV_SS` lists. -/
theorem mltDivM_next {z : WSize} {ss : Size} {s : State} {ea : Addr}
    (op : (w : Nat) → Flags → Flags → BitVec w → BitVec w → BitVec w × Flags)
    (h : mltDivTarget s.cfg.mltDivSS ss = some z) :
    ∃ t free, mltDivM op ss ea s = .next t ∧
      MemFrame z.size (s.ea ea) (op z.size.bits s.freeFlags s.flags free (s.load .data z.size (s.ea ea))).1 s t ∧
      t.flags = (op z.size.bits s.freeFlags s.flags free (s.load .data z.size (s.ea ea))).2 := by
  simp only [mltDivM, h]
  exact ⟨_, _, rfl, State.store_setFlags .., State.flags_setFlags ..⟩

/-- A branch: PC alone changes. -/
theorem branch_eq (taken : Bool) (target : Dword) (s : State) :
    branch taken target s = .next { s with pc := if taken then target else s.pc } := by
  cases taken <;> rfl

/-- What a push does (R13). -/
theorem State.push32_pushed (s : State) (v : Dword) : Pushed v s (s.push32 v) where
  stored :=
    have h := State.store_stored { s with reg := { s.reg with sp := s.reg.sp - 4 } } .dword (s.reg.sp - 4) v
    ⟨h.written, h.kept, h.events⟩
  rest := by apply State.ext <;> simp [State.push32]

end Sys2Proof.Machine
end

