-- ==== Sys2Proof/Laws/Interrupt.lean ====
section
/-! SUPPORT. The flip-flops, taking an interrupt, returning, the reset sequence, and the fetch, each said once. -/

namespace Sys2Proof.Machine

/-! ## The flip-flops -/

theorem State.setIff1_f (s : State) (b : Bool) :
    (s.setIff1 b).reg.f = if b then s.reg.f ||| 0x0100#16 else s.reg.f &&& ~~~0x0100#16 := by
  cases b
  · simp [State.setIff1, ieMask, flagBit]
  · simp only [State.setIff1, ieMask, flagBit, if_true]
    apply BitVec.eq_of_getLsbD_eq
    intro i hi
    simp only [BitVec.getLsbD_or, BitVec.getLsbD_and, BitVec.getLsbD_not, hi, decide_true, Bool.true_and]
    cases s.reg.f.getLsbD i <;> cases (0x0100#16).getLsbD i <;> rfl

/-- Setting IFF1 changes nothing but bit 8 of F. -/
theorem State.setIff1_reg (s : State) (b : Bool) : (s.setIff1 b).reg = { s.reg with f := (s.setIff1 b).reg.f } := rfl

@[simp] theorem State.setIff1_iff1 (s : State) (b : Bool) : (s.setIff1 b).iff1 = b := by
  cases b <;> simp [State.iff1, State.setIff1_f]

@[simp] theorem State.setIff1_flags (s : State) (b : Bool) : (s.setIff1 b).flags = s.flags := by
  cases b <;> simp [State.flags, State.setIff1_f, flagsOf]

/-- Every bit of F but bit 8 is kept. -/
theorem State.setIff1_other (s : State) (b : Bool) :
    (s.setIff1 b).reg.f &&& ~~~0x0100#16 = s.reg.f &&& ~~~0x0100#16 := by
  cases b
  · simp [State.setIff1_f, BitVec.and_assoc]
  · simp [State.setIff1_f, BitVec.and_or_distrib_right]

/-- What an enabling instruction does to the inhibit (R38, R323): definite when IFF1 was 0. -/
theorem State.startInhibit_of_disabled (s : State) : s.startInhibit false = { s with inhibit := true } := rfl

theorem State.startInhibit_rest (s : State) (b : Bool) :
    s.startInhibit b = { s with inhibit := (s.startInhibit b).inhibit } := rfl

theorem State.returnInhibit_rest (s : State) (b : Bool) :
    s.returnInhibit b = { s with inhibit := (s.returnInhibit b).inhibit } := by
  unfold State.returnInhibit; split <;> rfl

@[simp] theorem State.returnInhibit_reg (s : State) (b : Bool) : (s.returnInhibit b).reg = s.reg := by
  rw [State.returnInhibit_rest]
@[simp] theorem State.returnInhibit_alt (s : State) (b : Bool) : (s.returnInhibit b).alt = s.alt := by
  rw [State.returnInhibit_rest]
@[simp] theorem State.returnInhibit_pc (s : State) (b : Bool) : (s.returnInhibit b).pc = s.pc := by
  rw [State.returnInhibit_rest]
@[simp] theorem State.returnInhibit_ivb (s : State) (b : Bool) : (s.returnInhibit b).ivb = s.ivb := by
  rw [State.returnInhibit_rest]
@[simp] theorem State.returnInhibit_r (s : State) (b : Bool) : (s.returnInhibit b).r = s.r := by
  rw [State.returnInhibit_rest]
@[simp] theorem State.returnInhibit_iff2 (s : State) (b : Bool) : (s.returnInhibit b).iff2 = s.iff2 := by
  rw [State.returnInhibit_rest]
@[simp] theorem State.returnInhibit_im (s : State) (b : Bool) : (s.returnInhibit b).im = s.im := by
  rw [State.returnInhibit_rest]
@[simp] theorem State.returnInhibit_halted (s : State) (b : Bool) : (s.returnInhibit b).halted = s.halted := by
  rw [State.returnInhibit_rest]
@[simp] theorem State.returnInhibit_nmiPending (s : State) (b : Bool) : (s.returnInhibit b).nmiPending = s.nmiPending := by
  rw [State.returnInhibit_rest]
@[simp] theorem State.returnInhibit_mem (s : State) (b : Bool) : (s.returnInhibit b).mem = s.mem := by
  rw [State.returnInhibit_rest]
@[simp] theorem State.returnInhibit_pc0 (s : State) (b : Bool) : (s.returnInhibit b).pc0 = s.pc0 := by
  rw [State.returnInhibit_rest]
@[simp] theorem State.returnInhibit_cfg (s : State) (b : Bool) : (s.returnInhibit b).cfg = s.cfg := by
  rw [State.returnInhibit_rest]
@[simp] theorem State.returnInhibit_tick (s : State) (b : Bool) : (s.returnInhibit b).tick = s.tick := by
  rw [State.returnInhibit_rest]
@[simp] theorem State.returnInhibit_pins (s : State) (b : Bool) : (s.returnInhibit b).pins = s.pins := by
  rw [State.returnInhibit_rest]
@[simp] theorem State.returnInhibit_ioIn (s : State) (b : Bool) : (s.returnInhibit b).ioIn = s.ioIn := by
  rw [State.returnInhibit_rest]
@[simp] theorem State.returnInhibit_trace (s : State) (b : Bool) : (s.returnInhibit b).trace = s.trace := by
  rw [State.returnInhibit_rest]

/-- RETI and RETN with the delay, when IFF1 was 0, and without it. -/
theorem State.returnInhibit_started {s : State} (h : s.cfg.retEnableDelay = true) : (s.returnInhibit false).inhibit = true := by
  rw [State.returnInhibit, if_pos h]; rfl

theorem State.returnInhibit_off {s : State} (h : s.cfg.retEnableDelay = false) (b : Bool) : s.returnInhibit b = s := by
  rw [State.returnInhibit, if_neg (by simp [h])]

/-! ## The stack -/

@[simp] theorem State.push32_reg (s : State) (v : Dword) : (s.push32 v).reg = { s.reg with sp := s.reg.sp - 4 } := by
  rw [(s.push32_pushed v).rest]

@[simp] theorem State.popReturn_reg (s : State) : s.popReturn.reg = { s.reg with sp := s.reg.sp + 4 } := rfl

@[simp] theorem State.popReturn_pc (s : State) : s.popReturn.pc = s.load .stack .dword s.reg.sp := rfl

/-! ## Interrupts -/

/-- The vector address by integer arithmetic (R325). -/
theorem vecAddr_ofNat (ivb : BitVec 22) (n : Byte) :
    vecAddr ivb n = BitVec.ofNat 32 (ivb.toNat * 1024 + 4 * n.toNat) := by
  apply BitVec.eq_of_toNat_eq
  have := ivb.isLt
  have := n.isLt
  simp only [vecAddr, BitVec.toNat_add, BitVec.toNat_mul, BitVec.toNat_shiftLeft, BitVec.toNat_setWidth,
    BitVec.toNat_ofNat, Nat.shiftLeft_eq]
  omega

/-- The store of PC on the stack when an interrupt is taken does not depend on what entry does to the flip-flops. -/
theorem State.interrupt_stored (s : State) (k : Cause) (n : Byte) :
    Stored .dword (s.reg.sp - 4) s.pc s (s.interrupt k n) := by
  cases k
  · have h := (State.push32_pushed
      (State.setIff1 { s with nmiPending := false, halted := false, inhibit := false, iff2 := s.iff1 } false) s.pc).stored
    exact ⟨h.written, h.kept, h.events⟩
  · have h := (State.push32_pushed
      (State.setIff1 { s with halted := false, inhibit := false, iff2 := false } false) s.pc).stored
    exact ⟨h.written, h.kept, h.events⟩
  · have h := (State.push32_pushed s s.pc).stored
    exact ⟨h.written, h.kept, h.events⟩

/-- The new PC is read from memory as it is after the push. -/
theorem State.interrupt_pc (s : State) (k : Cause) (n : Byte) : (s.interrupt k n).pc =
    (s.interrupt k n).load (match k with | .soft => .vector | _ => .intVector) .dword
      (BitVec.ofNat 32 (s.ivb.toNat * 1024 + 4 * n.toNat)) := by
  rw [← vecAddr_ofNat]
  cases k <;> simp only [State.interrupt, State.push32_ivb, State.setIff1_ivb] <;>
    exact (State.load_congr rfl rfl rfl _ _ _).symm

/-- Taking an NMI (R330): what changes. -/
theorem State.interrupt_nmi (s : State) (n : Byte) : s.interrupt .nmi n =
    { s with
      reg := { s.reg with f := s.reg.f &&& ~~~0x0100#16, sp := s.reg.sp - 4 }, pc := (s.interrupt .nmi n).pc
      iff2 := s.iff1, inhibit := false, halted := false, nmiPending := false, mem := (s.interrupt .nmi n).mem
      trace := (s.interrupt .nmi n).trace } := by
  apply State.ext
  case reg => simp only [State.interrupt, State.push32_reg, State.setIff1_f]; simp [State.setIff1]
  all_goals simp [State.interrupt]

/-- Taking a maskable interrupt (R330): what changes. -/
theorem State.interrupt_int (s : State) (n : Byte) : s.interrupt .int n =
    { s with
      reg := { s.reg with f := s.reg.f &&& ~~~0x0100#16, sp := s.reg.sp - 4 }, pc := (s.interrupt .int n).pc
      iff2 := false, inhibit := false, halted := false, mem := (s.interrupt .int n).mem
      trace := (s.interrupt .int n).trace } := by
  apply State.ext
  case reg => simp only [State.interrupt, State.push32_reg, State.setIff1_f]; simp [State.setIff1]
  all_goals simp [State.interrupt]

/-- The software interrupt (R281, R330): the flip-flops stay. -/
theorem State.interrupt_soft (s : State) (n : Byte) : s.interrupt .soft n =
    { s with
      reg := { s.reg with sp := s.reg.sp - 4 }, pc := (s.interrupt .soft n).pc, mem := (s.interrupt .soft n).mem
      trace := (s.interrupt .soft n).trace } := by
  apply State.ext <;> simp [State.interrupt]

/-! ## The fetch -/

/-- A fetch looks at ten bytes, the length of the longest instruction (R90). -/
@[simp] theorem State.fetchBytes_length (s : State) : s.fetchBytes.length = 10 := by
  simp [State.fetchBytes]

/-- Byte `k` of a fetch is the byte read at PC + k (R28, R65). -/
theorem State.fetchBytes_getElem? (s : State) {k : Nat} (hk : k < 10) :
    s.fetchBytes[k]? = some (s.readByte .fetch (s.pc + BitVec.ofNat 32 k)) := by
  simp only [State.fetchBytes, List.getElem?_map, List.getElem?_range hk, Option.map_some]

end Sys2Proof.Machine
end

