-- ==== Sys2Proof/Laws/Values.lean ====
section
/-! SUPPORT. The results of the pure functions said by integers and by bits: halves, digits, single bits, branch
targets, the multiply and divide operations. -/

namespace Sys2Proof.Machine

theorem four_lt_bits (ss : Size) : 4 < ss.bits := by cases ss <;> decide

theorem wide_bits (z : WSize) : z.size.bits = 16 ∨ z.size.bits = 32 := by cases z <;> simp

/-! ## Halves -/

theorem extHalf_toInt (z : WSize) (v : BitVec z.size.bits) :
    (extHalf v).toInt = (v.setWidth (z.size.bits / 2)).toInt := by
  cases z <;> exact BitVec.toInt_signExtend_of_le (by decide)

theorem swapHalves_getLsbD (ss : Size) (v : BitVec ss.bits) {i : Nat} (hi : i < ss.bits) :
    (swapHalves v).getLsbD i = v.getLsbD ((i + ss.bits / 2) % ss.bits) := by
  cases ss <;> simp only [swapHalves, BitVec.getLsbD_rotateLeft, Size.bits] at hi ⊢
  · by_cases h : i < 4
    · simp [h, hi, show (i + 4) % 8 = i + 4 by omega, show 4 + i = i + 4 by omega]
    · simp [h, hi, show (i + 4) % 8 = i - 4 by omega]
  · by_cases h : i < 8
    · simp [h, hi, show (i + 8) % 16 = i + 8 by omega, show 8 + i = i + 8 by omega]
    · simp [h, hi, show (i + 8) % 16 = i - 8 by omega]
  · by_cases h : i < 16
    · simp [h, hi, show (i + 16) % 32 = i + 16 by omega, show 16 + i = i + 16 by omega]
    · simp [h, hi, show (i + 16) % 32 = i - 16 by omega]

theorem highHalf_toNat {w : Nat} (hw : w = 16 ∨ w = 32) (v : BitVec w) : (highHalf v).toNat = v.toNat / 2 ^ (w / 2) := by
  have := v.isLt
  rcases hw with rfl | rfl <;> simp [highHalf, BitVec.extractLsb'_toNat, Nat.shiftRight_eq_div_pow] <;> omega

theorem lowHalf_toNat {w : Nat} (v : BitVec w) : (lowHalf v).toNat = v.toNat % 2 ^ (w / 2) := by simp [lowHalf]

theorem joinHalves_toNat {w : Nat} (hw : w = 16 ∨ w = 32) (hi lo : BitVec (w / 2)) :
    (joinHalves w hi lo).toNat = hi.toNat * 2 ^ (w / 2) + lo.toNat := by
  have h1 := hi.isLt
  have h2 := lo.isLt
  rw [joinHalves, BitVec.toNat_ofNat, Nat.shiftLeft_eq]
  apply Nat.mod_eq_of_lt
  rcases hw with rfl | rfl <;> simp only [Nat.reduceDiv] at h1 h2 ⊢ <;> omega

theorem highHalf_joinHalves {w : Nat} (hw : w = 16 ∨ w = 32) (hi lo : BitVec (w / 2)) :
    highHalf (joinHalves w hi lo) = hi := by
  apply BitVec.eq_of_toNat_eq
  have h1 := hi.isLt
  have h2 := lo.isLt
  rw [highHalf_toNat hw, joinHalves_toNat hw]
  rcases hw with rfl | rfl <;> simp only [Nat.reduceDiv] at h1 h2 ⊢ <;> omega

theorem lowHalf_joinHalves {w : Nat} (hw : w = 16 ∨ w = 32) (hi lo : BitVec (w / 2)) :
    lowHalf (joinHalves w hi lo) = lo := by
  apply BitVec.eq_of_toNat_eq
  have h1 := hi.isLt
  have h2 := lo.isLt
  rw [lowHalf_toNat, joinHalves_toNat hw]
  rcases hw with rfl | rfl <;> simp only [Nat.reduceDiv] at h1 h2 ⊢ <;> omega

/-- The product of the halves fits the target (R214). -/
theorem mltOp_toNat (z : WSize) (u f : Flags) (t v : BitVec z.size.bits) :
    (mltOp z.size.bits u f t v).1.toNat = (highHalf v).toNat * (lowHalf v).toNat := by
  simp only [mltOp, BitVec.toNat_ofNat]
  apply Nat.mod_eq_of_lt
  have := Nat.mul_lt_mul'' (highHalf v).isLt (lowHalf v).isLt
  cases z <;> exact this

/-- The quotient of a signed division that does not overflow fits its half (R216). -/
theorem tdiv_bounds {P a b : Int} (hP : 0 < P) (ha : -P ≤ a) (ha' : a < P) (hb : b ≠ 0) (h : ¬(a = -P ∧ b = -1)) :
    -P ≤ a.tdiv b ∧ a.tdiv b < P := by
  have n1 : (a.tdiv b).natAbs ≤ a.natAbs := by rw [Int.natAbs_tdiv]; exact Nat.div_le_self _ _
  have n2 : 2 ≤ b.natAbs → (a.tdiv b).natAbs * 2 ≤ a.natAbs := fun h => by
    rw [Int.natAbs_tdiv]
    exact (Nat.mul_le_mul_left _ h).trans (Nat.div_mul_le_self _ _)
  have n3 : b = -1 → a.tdiv b = -a := by rintro rfl; simp
  have n4 : b = 1 → a.tdiv b = a := by rintro rfl; simp
  rcases (by omega : b = 1 ∨ b = -1 ∨ 2 ≤ b.natAbs) with hb | hb | hb
  · rw [n4 hb]; omega
  · rw [n3 hb]; omega
  · have := n2 hb; omega

theorem tmod_bounds {P a b : Int} (hb' : -P ≤ b) (hb'' : b < P) (hb : b ≠ 0) : -P ≤ a.tmod b ∧ a.tmod b < P := by
  have : (a.tmod b).natAbs < b.natAbs := by rw [Int.natAbs_tmod]; exact Nat.mod_lt _ (by omega)
  omega

/-! ## Single bits -/

theorem setBitOp_getLsbD {w : Nat} (hw : 0 < w) (v : BitVec w) (n : Nat) {i : Nat} (h : i < w) :
    (setBitOp v n).getLsbD i = if i = n % w then true else v.getLsbD i := by
  have := Nat.mod_lt n hw
  simp only [setBitOp, BitVec.getLsbD_or, BitVec.getLsbD_shiftLeft, h, decide_true, Bool.true_and, BitVec.getLsbD_one]
  split
  · next e => subst e; simp; right; omega
  · by_cases h2 : i < n % w
    · simp [h2]
    · simp [h2, show i - n % w ≠ 0 by omega]

theorem resBitOp_getLsbD {w : Nat} (hw : 0 < w) (v : BitVec w) (n : Nat) {i : Nat} (h : i < w) :
    (resBitOp v n).getLsbD i = if i = n % w then false else v.getLsbD i := by
  have := Nat.mod_lt n hw
  simp only [resBitOp, BitVec.getLsbD_and, BitVec.getLsbD_not, BitVec.getLsbD_shiftLeft, h, decide_true, Bool.true_and,
    BitVec.getLsbD_one]
  split
  · next e => subst e; simp; intro _; omega
  · by_cases h2 : i < n % w
    · simp [h2]
    · simp [h2, show i - n % w ≠ 0 by omega]

/-! ## Addresses -/

theorem add_signExtend (a : Dword) {w : Nat} (e : BitVec w) :
    a + e.signExtend 32 = BitVec.ofInt 32 (a.toNat + e.toInt) := by
  rw [BitVec.ofInt_add, BitVec.signExtend, BitVec.ofInt_natCast]; simp

theorem State.relTarget_signExtend (s : State) {w : Nat} (e : BitVec w) :
    s.relTarget (e.signExtend 32) = s.branchTarget e.toInt := by
  unfold State.relTarget State.branchTarget State.relativeBase
  cases s.cfg.relBase <;> exact add_signExtend _ e

/-! ## Counters -/

theorem dword_sub_one_eq_zero (x : Dword) : x - 1 = 0 ↔ x = 1#32 := sub_eq_zero_iff x 1#32

theorem word_sub_one_eq_zero (x : Word) : x - 1 = 0 ↔ x = 1#16 := sub_eq_zero_iff x 1#16

end Sys2Proof.Machine
end

