-- ==== Sys2Proof/Laws/Block.lean ====
section
/-! SUPPORT. One iteration of each block family, said once, and what the choice to stay or go on keeps of it. -/

namespace Sys2Proof.Machine

theorem State.moreBC_eq (s : State) : s.moreBC = s.countLeft := by
  simp only [State.moreBC, State.countLeft, State.get32, Bank.get32, ne_eq, dword_sub_one_eq_zero]

theorem State.doneBC_eq {s t : State} (h : t.reg.b ++ t.reg.c = (s.reg.b ++ s.reg.c : Dword) - 1) :
    t.doneBC = !s.countLeft := by
  have e : t.get32 .bc = (s.reg.b ++ s.reg.c : Dword) - 1 := h
  simp only [State.doneBC, State.countLeft, e, ne_eq, decide_not, Bool.not_not]
  rw [decide_eq_decide]
  exact dword_sub_one_eq_zero _

theorem State.doneB_eq {s t : State} (h : t.reg.b = s.reg.b - 1) : t.doneB = !s.transfersLeft := by
  have e : t.get16 .b = s.reg.b - 1 := h
  simp only [State.doneB, State.transfersLeft, e, ne_eq, decide_not, Bool.not_not]
  rw [decide_eq_decide]
  exact word_sub_one_eq_zero _

/-! ## Copying -/

/-- One iteration of the LD family (R172, R174). -/
theorem ldStep_copied (z : NSize) (step : Dword) (s : State) : CopiedOne z step s (ldStep z step s) := by
  have st := s.store_stored z.size (s.get32 .de) (s.element z)
  refine ⟨⟨st.written, st.kept, st.events⟩, ?_, ?_, ?_, ?_, ⟨?_, ?_⟩, ?_, ?_⟩
  · simp [ldStep, State.setFlags, State.countBC, State.moveDE, State.moveHL, State.set32, Bank.set32, State.get32,
      Bank.get32, hiWord_append_loWord]
  · simp [ldStep, State.setFlags, State.countBC, State.moveDE, State.moveHL, State.set32, Bank.set32, State.get32,
      Bank.get32, hiWord_append_loWord]
  · simp [ldStep, State.setFlags, State.countBC, State.moveDE, State.moveHL, State.set32, Bank.set32, State.get32,
      Bank.get32, hiWord_append_loWord]
  · rw [ldStep, State.flags_setFlags, State.moreBC_eq]
  · intro r hr
    cases r <;> simp at hr
    simp [ldStep, State.setFlags, State.countBC, State.moveDE, State.moveHL, State.set32, Bank.set32, Bank.get16]
  · intro x hx _
    cases x <;> simp at hx <;>
      simp [ldStep, State.setFlags, State.countBC, State.moveDE, State.moveHL, State.set32, Bank.set32, Bank.get32]
  · refine (State.setFlags_frame _ _).status.trans ?_
    simp [State.countBC, State.moveDE, State.moveHL, State.set32, Bank.set32]
  · apply State.ext <;> simp [ldStep, State.setFlags, State.countBC, State.moveDE, State.moveHL, State.set32]

theorem ldStep_pc (z : NSize) (step : Dword) (s : State) :
    (ldStep z step s).pc = s.pc ∧ (ldStep z step s).pc0 = s.pc0 := by
  simp [ldStep, State.setFlags, State.countBC, State.moveDE, State.moveHL, State.set32]

theorem CopiedOne.withPc {z : NSize} {step : Dword} {s t : State} (h : CopiedOne z step s t) (p : Dword) :
    CopiedOne z step s { t with pc := p } := by
  refine ⟨⟨h.stored.written, h.stored.kept, h.stored.events⟩, h.hl, h.de, h.bc, h.flags, h.bank, h.status, ?_⟩
  have := h.rest
  apply State.ext <;> try rfl
  all_goals (simp; rw [this])

/-! ## Comparing and testing -/

/-- The pointer and the counter of the CP and TS families. -/
theorem scanned_moves (step : Dword) (s : State) : ScannedOne step s ((s.moveHL step).countBC) := by
  refine ⟨?_, ?_, ⟨?_, ?_⟩, rfl, rfl⟩
  · simp [State.countBC, State.moveHL, State.set32, Bank.set32, State.get32, Bank.get32, hiWord_append_loWord]
  · simp [State.countBC, State.moveHL, State.set32, Bank.set32, State.get32, Bank.get32, hiWord_append_loWord]
  · intro r hr
    cases r <;> simp at hr <;> rfl
  · intro r hr _
    cases r <;> simp at hr <;> rfl

theorem ScannedOne.withPc {step : Dword} {s t : State} (h : ScannedOne step s t) (p : Dword) :
    ScannedOne step s { t with pc := p } := by
  refine ⟨h.hl, h.bc, h.bank, h.status, ?_⟩
  have := h.rest
  apply State.ext <;> try rfl
  all_goals (simp; rw [this])

theorem ScannedOne.withFlags {step : Dword} {s t : State} (h : ScannedOne step s t) (fl : Flags) :
    ScannedOne step s (t.setFlags fl) := by
  refine ⟨h.hl, h.bc, ⟨?_, ?_⟩, ?_, ?_⟩
  · intro r hr
    rw [← h.bank.words r hr]; cases r <;> rfl
  · intro r hr h'
    rw [← h.bank.index r hr h']; cases r <;> simp at hr <;> rfl
  · exact (t.setFlags_frame fl).status.trans h.status
  · have := h.rest
    apply State.ext <;> simp <;> rw [this]

/-- The flags of one iteration of the CP family (R176, R178). -/
theorem cpStep_flags (z : NSize) (step : Dword) (s : State) : (cpStep z step s).flags =
    { (subFlags (s.getReg z.size .r0) (s.load .data z.size (s.reg.h ++ s.reg.l)) false).2 with
      c := s.flags.c, pv := s.countLeft } := by
  rw [cpStep, State.flags_setFlags, State.moreBC_eq]; rfl

/-- The flags of one iteration of the TS family (R180, R182); H is the free one. -/
theorem tsStep_flags (z : NSize) (step : Dword) (s : State) : (tsStep z step s).flags =
    { s := (s.getReg z.size .r0 &&& s.load .data z.size (s.reg.h ++ s.reg.l)).msb
      z := decide (s.getReg z.size .r0 &&& s.load .data z.size (s.reg.h ++ s.reg.l) = 0)
      h := s.freeFlags.h, n := true, c := s.flags.c, pv := s.countLeft } := by
  rw [tsStep, State.flags_setFlags, State.moreBC_eq]; rfl

/-! ## Input and output -/

/-- The pointer, the counter and the flags of the input and output families (R184, R188). -/
theorem transferred_moves (step : Dword) {s u : State} (h : u.reg = s.reg) :
    TransferredOne step s (((u.moveHL step).countB).setFlags s.ioFlags) := by
  refine ⟨?_, ?_, ?_, ⟨?_, ?_⟩, ?_⟩
  · simp [State.setFlags, State.countB, State.moveHL, State.set32, State.set16, Bank.set16, Bank.set32, State.get32,
      Bank.get32, hiWord_append_loWord, h]
  · simp [State.setFlags, State.countB, State.moveHL, State.set32, State.set16, Bank.set16, Bank.set32, State.get16,
      Bank.get16, h]
  · rw [State.flags_setFlags]
    simp only [State.ioFlags, State.transfersLeft, State.get16, Bank.get16, word_sub_one_eq_zero]
    simp
  · intro r hr
    cases r <;> simp at hr <;>
      simp [State.setFlags, State.countB, State.moveHL, State.set32, State.set16, Bank.set16, Bank.set32, Bank.get16, h]
  · intro r hr _
    cases r <;> simp at hr <;>
      simp [State.setFlags, State.countB, State.moveHL, State.set32, State.set16, Bank.set16, Bank.set32, Bank.get32, h]
  · refine (State.setFlags_frame _ _).status.trans ?_
    simp [State.countB, State.moveHL, State.set32, State.set16, Bank.set16, Bank.set32, h]

theorem State.ioAnswer_eq (s : State) : s.ioAnswer = s.nextInput := by
  unfold State.ioAnswer State.nextInput; cases s.ioIn <;> rfl

/-- What an I/O read gives, at the operand size and as it is recorded (R70). -/
theorem State.ioRead_eq (s : State) (z : NSize) : s.ioRead z = (s.nextInput.setWidth z.size.bits).setWidth 16 := by
  rw [State.ioRead, State.ioAnswer_eq]; cases z <;> simp [ioPart]

theorem State.ioRead_part (s : State) (z : NSize) :
    (s.ioRead z).setWidth z.size.bits = s.nextInput.setWidth z.size.bits := by
  rw [State.ioRead_eq]
  rw [BitVec.setWidth_setWidth_of_le _ (by cases z <;> decide), BitVec.setWidth_setWidth_of_le _ (Nat.le_refl _)]

theorem ioPart_setWidth (z : NSize) (v : BitVec z.size.bits) : ioPart z (v.setWidth 16) = v.setWidth 16 := by
  cases z
  · simp only [ioPart]; apply BitVec.eq_of_toNat_eq; simp [BitVec.toNat_setWidth]
  · rfl

end Sys2Proof.Machine
end

