-- ==== Sys2Proof/Laws/Codec.lean ====
section
/-! SUPPORT. The fields of an encoding and the operands after it, each read back from what the encoder writes, and each
the only bytes that read so. -/

namespace Sys2Proof

theorem Except.ok_bind {α β ε : Type} (a : α) (f : α → Except ε β) : (Except.ok a >>= f) = f a := rfl

/-! ## Fields -/

theorem RegField.code_lt (r : RegField) : r.code < 7 := by cases r <;> decide
theorem Size.code_lt (ss : Size) : ss.code < 3 := by cases ss <;> decide
theorem Cond.code_lt (cc : Cond) : cc.code < 16 := by cases cc <;> decide
theorem Addr.code_lt (a : Addr) : a.code < 8 := by rcases a with p | ⟨x, _⟩ | _ <;> (try cases p) <;> (try cases x) <;> simp [Addr.code]

theorem decodeSize_code (ss : Size) : decodeSize ss.code = .ok ss := by cases ss <;> rfl
theorem decodeNSize_code (z : NSize) : decodeNSize z.size.code = .ok z := by cases z <;> rfl
theorem decodeWSize_code (z : WSize) : decodeWSize z.size.code = .ok z := by cases z <;> rfl
theorem decodeField_code (r : RegField) : decodeField r.code = some r := by cases r <;> rfl
theorem decodeReg_code (r : RegField) : decodeReg r.code = .ok r := by cases r <;> rfl
theorem decodeCond_code (cc : Cond) : decodeCond cc.code = .ok cc := by cases cc <;> rfl

theorem decodeMltDivSize_code {m : Config.MltDivSS} {ss : Size} (h : ss.mltDivLegal m = true) :
    decodeMltDivSize m ss.code = .ok ss := by simp [decodeMltDivSize, decodeSize_code, h]

/-- The three fields of byte1 of formats R, RM, UR and UM. -/
theorem byte1_fields : ∀ hi < 8, ∀ lo < 8, ∀ ss : Size, bitField (byte1 hi lo ss) 0 2 = ss.code ∧
    bitField (byte1 hi lo ss) 2 3 = lo ∧ bitField (byte1 hi lo ss) 5 3 = hi := by
  intro hi h lo l ss
  interval_cases hi <;> interval_cases lo <;> cases ss <;> decide

/-- The fields of byte1 of format B. -/
theorem branchByte_fields : ∀ aaa < 8, ∀ cc : Cond, bitField (BitVec.ofNat 8 (aaa <<< 5 ||| cc.code <<< 1)) 0 1 = 0 ∧
    bitField (BitVec.ofNat 8 (aaa <<< 5 ||| cc.code <<< 1)) 1 4 = cc.code ∧
    bitField (BitVec.ofNat 8 (aaa <<< 5 ||| cc.code <<< 1)) 5 3 = aaa := by
  intro aaa h cc
  interval_cases aaa <;> cases cc <;> decide

/-! ## Trailing operands -/

theorem take8_cons (v : Byte) (tl : List Byte) : take8 (v :: tl) = .ok (v, tl) := rfl

theorem take16_bytes16 (v : Word) (tl : List Byte) : take16 (bytes16 v ++ tl) = .ok (v, tl) := by
  have : v.extractLsb' 8 8 ++ v.setWidth 8 = v := by
    apply BitVec.eq_of_getLsbD_eq
    intro i hi
    simp only [BitVec.getLsbD_append, BitVec.getLsbD_setWidth, BitVec.getLsbD_extractLsb']
    by_cases h : i < 8
    · simp [h]
    · simp [h, show i - 8 < 8 by omega, show 8 + (i - 8) = i by omega]
  simp only [bytes16, List.cons_append, List.nil_append, take16, this]

theorem take32_bytes32 (v : Dword) (tl : List Byte) : take32 (bytes32 v ++ tl) = .ok (v, tl) := by
  have : v.extractLsb' 24 8 ++ v.extractLsb' 16 8 ++ v.extractLsb' 8 8 ++ v.setWidth 8 = v := by
    apply BitVec.eq_of_getLsbD_eq
    intro i hi
    simp only [BitVec.getLsbD_append, BitVec.getLsbD_setWidth, BitVec.getLsbD_extractLsb']
    rcases (by omega : i < 8 ∨ 8 ≤ i ∧ i < 16 ∨ 16 ≤ i ∧ i < 24 ∨ 24 ≤ i ∧ i < 32) with h | h | h | h
    · simp [h]
    · simp [show ¬ i < 8 by omega, show i - 8 < 8 by omega, show 8 + (i - 8) = i by omega]
    · simp [show ¬ i < 8 by omega, show ¬ i - 8 < 8 by omega, show i - 8 - 8 < 8 by omega,
        show 16 + (i - 8 - 8) = i by omega]
    · simp [show ¬ i < 8 by omega, show ¬ i - 8 < 8 by omega, show ¬ i - 8 - 8 < 8 by omega,
        show i - 8 - 8 - 8 < 8 by omega, show 24 + (i - 8 - 8 - 8) = i by omega]
  simp only [bytes32, List.cons_append, List.nil_append, take32, this]

theorem take16_eq {l tl : List Byte} {v : Word} (h : take16 l = .ok (v, tl)) : l = bytes16 v ++ tl := by
  match l, h with
  | b0 :: b1 :: _, h =>
    cases h
    have e0 : (b1 ++ b0 : Word).setWidth 8 = b0 := by
      apply BitVec.eq_of_getLsbD_eq; intro i hi
      simp only [BitVec.getLsbD_append, BitVec.getLsbD_setWidth]; simp [hi]
    have e1 : (b1 ++ b0 : Word).extractLsb' 8 8 = b1 := by
      apply BitVec.eq_of_getLsbD_eq; intro i hi
      simp only [BitVec.getLsbD_append, BitVec.getLsbD_extractLsb']; simp [hi]
    simp [bytes16, e0, e1]

theorem take32_eq {l tl : List Byte} {v : Dword} (h : take32 l = .ok (v, tl)) : l = bytes32 v ++ tl := by
  match l, h with
  | b0 :: b1 :: b2 :: b3 :: _, h =>
    cases h
    have e0 : (b3 ++ b2 ++ b1 ++ b0 : Dword).setWidth 8 = b0 := by
      apply BitVec.eq_of_getLsbD_eq; intro i hi
      simp only [BitVec.getLsbD_append, BitVec.getLsbD_setWidth]; simp [hi]
    have e1 : (b3 ++ b2 ++ b1 ++ b0 : Dword).extractLsb' 8 8 = b1 := by
      apply BitVec.eq_of_getLsbD_eq; intro i hi
      simp only [BitVec.getLsbD_append, BitVec.getLsbD_extractLsb']; simp [hi]
    have e2 : (b3 ++ b2 ++ b1 ++ b0 : Dword).extractLsb' 16 8 = b2 := by
      apply BitVec.eq_of_getLsbD_eq; intro i hi
      simp only [BitVec.getLsbD_append, BitVec.getLsbD_extractLsb']
      simp [hi, show ¬ 16 + i < 8 by omega, show ¬ 16 + i - 8 < 8 by omega, show 16 + i - 8 - 8 = i by omega]
    have e3 : (b3 ++ b2 ++ b1 ++ b0 : Dword).extractLsb' 24 8 = b3 := by
      apply BitVec.eq_of_getLsbD_eq; intro i hi
      simp only [BitVec.getLsbD_append, BitVec.getLsbD_extractLsb']
      simp [hi, show ¬ 24 + i < 8 by omega, show ¬ 24 + i - 8 < 8 by omega, show ¬ 24 + i - 8 - 8 < 8 by omega,
        show 24 + i - 8 - 8 - 8 = i by omega]
    simp [bytes32, e0, e1, e2, e3]

/-- An immediate that fits is read back. -/
theorem takeImm_bytesImm {ss : Size} {v : Dword} (h : ss.immFits v = true) (tl : List Byte) :
    takeImm ss (bytesImm ss v ++ tl) = .ok (v, tl) := by
  have hv : v.toNat < 2 ^ ss.bits := by simpa [Size.immFits] using h
  cases ss
  · have e : (v.setWidth 8).setWidth 32 = v := by
      apply BitVec.eq_of_toNat_eq; simp only [Size.bits] at hv; simp only [BitVec.toNat_setWidth]; omega
    simp only [bytesImm, takeImm, List.cons_append, List.nil_append, take8_cons, Except.ok_bind, e]; rfl
  · have e : (v.setWidth 16).setWidth 32 = v := by
      apply BitVec.eq_of_toNat_eq; simp only [Size.bits] at hv; simp only [BitVec.toNat_setWidth]; omega
    simp only [bytesImm, takeImm, take16_bytes16, Except.ok_bind, e]; rfl
  · exact take32_bytes32 v tl

/-- A memory operand is read back. -/
theorem decodeAddr_bytes (a : Addr) (tl : List Byte) : decodeAddr a.code (a.bytes ++ tl) = .ok (a, tl) := by
  rcases a with p | ⟨x, dd⟩ | nnnn
  · cases p <;> rfl
  · cases x <;> simp only [Addr.code, Addr.bytes, decodeAddr, take16_bytes16, Except.ok_bind] <;> rfl
  · simp only [Addr.code, Addr.bytes, decodeAddr, take32_bytes32, Except.ok_bind]; rfl

theorem decodeIndAddr_bytes (a : IndAddr) (tl : List Byte) :
    decodeIndAddr a.addr.code (a.addr.bytes ++ tl) = .ok (a, tl) := by
  cases a <;> simp only [decodeIndAddr, decodeAddr_bytes, Except.ok_bind] <;> rfl

/-- A source operand that fits is read back. -/
theorem decodeSrc_bytes {ss : Size} {x : Src} (h : x.fits ss = true) (tl : List Byte) :
    decodeSrc ss x.code (x.bytes ss ++ tl) = .ok (x, tl) := by
  cases x
  · simp [decodeSrc, Src.code, Src.bytes, decodeField_code]
  · simp only [decodeSrc, Src.code, Src.bytes, decodeField, takeImm_bytesImm h, Except.ok_bind]; rfl

theorem decodeCount_bytes (x : Count) (tl : List Byte) : decodeCount x.code (x.bytes ++ tl) = .ok (x, tl) := by
  cases x
  · simp [decodeCount, Count.code, Count.bytes, decodeField_code]
  · rfl

theorem decodePort_bytes (x : Port) (tl : List Byte) : decodePort x.code (x.bytes ++ tl) = .ok (x, tl) := by
  rcases x with r | n
  · cases r <;> rfl
  · rfl

theorem decodeTarget_bytes (x : Target) (tl : List Byte) : decodeTarget x.code (x.bytes ++ tl) = .ok (x, tl) := by
  rcases x with r | n
  · cases r <;> rfl
  · simp only [decodeTarget, Target.code, Target.bytes, decodeField, take32_bytes32, Except.ok_bind]; rfl

theorem decodeDisp8_bytes (x : Disp8) (tl : List Byte) : decodeDisp8 x.code (x.bytes ++ tl) = .ok (x, tl) := by
  rcases x with r | n
  · cases r <;> rfl
  · rfl

theorem decodeDisp16_bytes (x : Disp16) (tl : List Byte) : decodeDisp16 x.code (x.bytes ++ tl) = .ok (x, tl) := by
  rcases x with r | n
  · cases r <;> rfl
  · simp only [decodeDisp16, Disp16.code, Disp16.bytes, decodeField, take16_bytes16, Except.ok_bind]; rfl

/-! ## Formats: the first byte leads the decoder to the format's own part -/

theorem decode_encodeR (m : Config.MltDivSS) {op : Nat} (h : op < 64) (sss ddd : Nat) (ss : Size) (tl : List Byte) :
    decode m (encodeR op sss ddd ss tl) = decodeR op (byte1 sss ddd ss) tl := by
  interval_cases op <;> rfl

theorem decode_encodeRM (m : Config.MltDivSS) {op : Nat} (h : op < 32) (d : Bool) (ea : Addr) (rrr : Nat) (ss : Size)
    (tl : List Byte) :
    decode m (encodeRM op d ea rrr ss tl) = decodeRM op d (byte1 ea.code rrr ss) (ea.bytes ++ tl) := by
  interval_cases op <;> cases d <;> rfl

theorem decode_encodeUR (m : Config.MltDivSS) {op : Nat} (h : op < 16) (fn rrr : Nat) (ss : Size) (tl : List Byte) :
    decode m (encodeUR op fn rrr ss tl) = decodeUR m op (byte1 fn rrr ss) tl := by
  interval_cases op <;> rfl

theorem decode_encodeUM (m : Config.MltDivSS) {op : Nat} (h : op < 16) (fn : Nat) (ea : Addr) (ss : Size)
    (tl : List Byte) :
    decode m (encodeUM op fn ea ss ++ tl) = decodeUM m op (byte1 ea.code fn ss) (ea.bytes ++ tl) := by
  interval_cases op <;> rfl

theorem decode_encodeB (m : Config.MltDivSS) {op : Nat} (h : op < 16) (aaa : Nat) (cc : Cond) (tl : List Byte) :
    decode m (encodeB op aaa cc tl) = decodeB op (BitVec.ofNat 8 (aaa <<< 5 ||| cc.code <<< 1)) tl := by
  interval_cases op <;> rfl

theorem decode_encodeN (m : Config.MltDivSS) {op : Nat} (h : op < 16) (fn : Nat) (tl : List Byte) :
    decode m (encodeN op fn tl) = decodeN op (BitVec.ofNat 8 fn) tl := by
  interval_cases op <;> rfl

/-- A list after an encoding is a list after its trailing operands. -/
theorem encodeR_append (op sss ddd : Nat) (ss : Size) (tl rest : List Byte) :
    encodeR op sss ddd ss tl ++ rest = encodeR op sss ddd ss (tl ++ rest) := rfl

theorem encodeRM_append (op : Nat) (d : Bool) (ea : Addr) (rrr : Nat) (ss : Size) (tl rest : List Byte) :
    encodeRM op d ea rrr ss tl ++ rest = encodeRM op d ea rrr ss (tl ++ rest) := by simp [encodeRM]

theorem encodeUR_append (op fn rrr : Nat) (ss : Size) (tl rest : List Byte) :
    encodeUR op fn rrr ss tl ++ rest = encodeUR op fn rrr ss (tl ++ rest) := rfl

theorem encodeB_append (op aaa : Nat) (cc : Cond) (tl rest : List Byte) :
    encodeB op aaa cc tl ++ rest = encodeB op aaa cc (tl ++ rest) := rfl

theorem encodeN_append (op fn : Nat) (tl rest : List Byte) : encodeN op fn tl ++ rest = encodeN op fn (tl ++ rest) := rfl

end Sys2Proof
end

