-- ==== Sys2Proof/Laws/Kept.lean ====
section
/-! SUPPORT. What every operation over the state keeps of the parts of the invariant, one lemma per operation. -/

namespace Sys2Proof.Machine

/-- The parts of the invariant that an instruction must keep. -/
structure Kept (s t : State) : Prop where
  memory : s.mem.wf = true → t.mem.wf = true
  reserved : s.reg.f &&& ~~~0x01D7#16 = 0#16 → t.reg.f &&& ~~~0x01D7#16 = 0#16
  enabled : (s.iff1 = true → s.iff2 = true) → (t.iff1 = true → t.iff2 = true)
  inhibited : (s.inhibit = true → s.iff1 = true) → (t.inhibit = true → t.iff1 = true)

theorem Kept.refl (s : State) : Kept s s := ⟨id, id, id, id⟩

theorem Kept.trans {s t u : State} (h : Kept s t) (g : Kept t u) : Kept s u :=
  ⟨g.1 ∘ h.1, g.2 ∘ h.2, g.3 ∘ h.3, g.4 ∘ h.4⟩

/-- Memory, F, IFF2 and the inhibit unchanged. -/
theorem Kept.same (s t : State) (hm : t.mem = s.mem) (hf : t.reg.f = s.reg.f) (h2 : t.iff2 = s.iff2)
    (hi : t.inhibit = s.inhibit) : Kept s t := by
  constructor <;> simp [State.iff1, hm, hf, h2, hi]

theorem withFlags_reserved (f : Word) (fl : Flags) (h : f &&& ~~~0x01D7#16 = 0#16) :
    withFlags f fl &&& ~~~0x01D7#16 = 0#16 := by
  have e : ∀ (b : Bool) (m : Word), m &&& ~~~0x01D7#16 = 0#16 → flagBit b m &&& ~~~0x01D7#16 = 0#16 := by
    intro b m h
    cases b
    · exact BitVec.zero_and
    · exact h
  have h1 : f &&& ~~~flagMask &&& ~~~0x01D7#16 = 0#16 := by
    rw [BitVec.and_assoc, BitVec.and_comm (~~~flagMask), ← BitVec.and_assoc, h]; simp
  simp only [withFlags, BitVec.and_or_distrib_right, h1]
  rw [e _ _ (by decide), e _ _ (by decide), e _ _ (by decide), e _ _ (by decide), e _ _ (by decide), e _ _ (by decide)]
  decide

theorem withFlags_ie (f : Word) (fl : Flags) : (withFlags f fl).getLsbD 8 = f.getLsbD 8 := by
  have := congrArg (·.getLsbD 8) (withFlags_status f fl)
  simpa using this

theorem kept_setFlags (s : State) (fl : Flags) : Kept s (s.setFlags fl) := by
  have h8 : (s.setFlags fl).iff1 = s.iff1 := withFlags_ie _ _
  exact ⟨id, withFlags_reserved _ _, by rw [h8]; exact id, by rw [h8]; exact id⟩

theorem kept_store (s : State) (ss : Size) (a : Dword) (v : BitVec ss.bits) : Kept s (s.store ss a v) := by
  have hr : (s.store ss a v).reg = s.reg := by rw [s.store_rest ss a v]
  refine ⟨fun h => State.store_wf h _ _ _, by rw [hr]; exact id, ?_, ?_⟩
  · simp only [State.iff1, hr, State.store_iff2]; exact id
  · simp only [State.iff1, hr, State.store_inhibit]; exact id

/-- A write of F as data, where clearing IE finds no inhibit: the start of an instruction ends it (R323). -/
theorem kept_writeF (s : State) (v : Word) (hv : v.getLsbD 8 = false → s.inhibit = false) : Kept s (s.writeF v) := by
  have w := s.writeF_written v
  have h8 : (s.writeF v).iff1 = v.getLsbD 8 := by simp [State.iff1]
  refine ⟨by simp, ?_, ?_, ?_⟩
  · intro _
    rw [w.value, BitVec.and_assoc]; simp
  · intro _
    rw [h8, w.iff2]; exact id
  · intro _
    rw [h8]
    cases h : v.getLsbD 8
    · rw [w.kept h, hv h]; simp
    · simp

theorem kept_setAF (s : State) (v : Dword) (hv : (loWord v).getLsbD 8 = false → s.inhibit = false) :
    Kept s (s.set32 .af v) :=
  (Kept.same s (s.set16 .a (hiWord v)) rfl (by simp [State.set16]) rfl rfl).trans (kept_writeF _ _ hv)

theorem kept_setReg (s : State) (hs : s.inhibit = false) (ss : Size) (d : RegField) (v : BitVec ss.bits) :
    Kept s (s.setReg ss d v) := by
  by_cases h : ss = .dword ∧ d = .r0
  · obtain ⟨rfl, rfl⟩ := h
    exact kept_setAF s v fun _ => hs
  · obtain ⟨_, hf, hr⟩ := (s.setReg_written ss d v).plain fun a b => h ⟨a, b⟩
    have := hr.rest
    exact Kept.same _ _ (by rw [this]) hf (by rw [this]) (by rw [this])

theorem kept_push32 (s : State) (v : Dword) : Kept s (s.push32 v) := by
  have h := s.push32_pushed v
  have hf : (s.push32 v).reg.f = s.reg.f := by rw [h.rest]
  refine ⟨fun hw => State.store_wf (by exact hw) _ _ _, by rw [hf]; exact id, ?_, ?_⟩
  · simp only [State.iff1, hf, State.push32_iff2]; exact id
  · simp only [State.iff1, hf, State.push32_inhibit]; exact id

/-- What an outcome keeps when it is a next state. -/
def KeptBy (s : State) (r : Result) : Prop := ∀ t, r = .next t → Kept s t

theorem keptBy_next {s t : State} (h : Kept s t) : KeptBy s (.next t) := by rintro _ ⟨⟩; exact h

theorem keptBy_writeBack {s : State} (hs : s.inhibit = false) (ss : Size) (d : RegField) (r : BitVec ss.bits × Flags) :
    KeptBy s (writeBack ss d r s) := by
  intro t h
  unfold writeBack at h
  split at h <;> cases h
  exact (kept_setReg s hs ss d r.1).trans (kept_setFlags _ _)

theorem keptBy_branch {s u : State} (h : Kept s u) (taken : Bool) (target : Dword) : KeptBy s (branch taken target u) := by
  rw [branch_eq]
  exact keptBy_next (h.trans (Kept.same _ _ rfl rfl rfl rfl))

theorem keptBy_repeatStep {s t : State} (h : Kept s t) (stop : Bool) (final : Flags → Flags) :
    KeptBy s (repeatStep stop final t) := by
  unfold repeatStep
  split
  · exact keptBy_next (h.trans (kept_setFlags ..))
  · exact keptBy_next (h.trans (Kept.same _ _ rfl rfl rfl rfl))

end Sys2Proof.Machine
end

