-- ==== Sys2Proof/Laws/PerInstr.lean ====
section
/-! SUPPORT. Facts about every instruction as syntax, one lemma per constructor: an instruction has 1 to 10 bytes
(`30_encoding.md` R90, R100). -/

namespace Sys2Proof.Laws.EncodedLength

/-- The encoding of an instruction has 1 to 10 bytes. -/
def Statement (i : Instr) : Prop := 1 ≤ (encode i).length ∧ (encode i).length ≤ 10

theorem bytesImm_length (ss : Size) (v : Dword) : (bytesImm ss v).length ≤ 4 := by
  cases ss <;> simp [bytesImm, bytes16, bytes32]

theorem src_length (ss : Size) (x : Src) : (x.bytes ss).length ≤ 4 := by
  cases x
  · exact Nat.zero_le 4
  · exact bytesImm_length ss _

theorem count_length (x : Count) : x.bytes.length ≤ 4 := by cases x <;> simp [Count.bytes]
theorem port_length (x : Port) : x.bytes.length ≤ 4 := by cases x <;> simp [Port.bytes]
theorem addr_length (x : Addr) : x.bytes.length ≤ 4 := by cases x <;> simp [Addr.bytes, bytes16, bytes32]
theorem target_length (x : Target) : x.bytes.length ≤ 4 := by cases x <;> simp [Target.bytes, bytes32]
theorem disp8_length (x : Disp8) : x.bytes.length ≤ 4 := by cases x <;> simp [Disp8.bytes]
theorem disp16_length (x : Disp16) : x.bytes.length ≤ 4 := by cases x <;> simp [Disp16.bytes, bytes16]

/-- A list of 1 to 10 bytes. -/
abbrev Fits (l : List Byte) : Prop := 1 ≤ l.length ∧ l.length ≤ 10

theorem two_bytes (a b : Byte) {tl : List Byte} (h : tl.length ≤ 8) : Fits (a :: b :: tl) := by
  simp only [Fits, List.length_cons]; omega

theorem encodeR_fits (op sss ddd : Nat) (ss : Size) {tl : List Byte} (h : tl.length ≤ 4) :
    Fits (encodeR op sss ddd ss tl) := two_bytes _ _ (by omega)

theorem encodeRM_fits (op : Nat) (d : Bool) (ea : Addr) (rrr : Nat) (ss : Size) {tl : List Byte} (h : tl.length ≤ 4) :
    Fits (encodeRM op d ea rrr ss tl) :=
  two_bytes _ _ (by have := addr_length ea; rw [List.length_append]; omega)

theorem encodeMSrc_fits (op : Nat) (ss : Size) (ea : Addr) (f : MemForm) : Fits (encodeMSrc op ss ea f) := by
  cases f
  · exact encodeRM_fits _ _ _ _ _ (src_length _ _)
  · exact encodeRM_fits _ _ _ _ _ (Nat.zero_le 4)

theorem encodeMCount_fits (op : Nat) (ss : Size) (ea : Addr) (f : CountForm) : Fits (encodeMCount op ss ea f) := by
  cases f
  · exact encodeRM_fits _ _ _ _ _ (count_length _)
  · exact encodeRM_fits _ _ _ _ _ (Nat.zero_le 4)

theorem encodeUR_fits (op fn rrr : Nat) (ss : Size) {tl : List Byte} (h : tl.length ≤ 4) :
    Fits (encodeUR op fn rrr ss tl) := two_bytes _ _ (by omega)

theorem encodeUM_fits (op fn : Nat) (ea : Addr) (ss : Size) : Fits (encodeUM op fn ea ss) :=
  two_bytes _ _ (by have := addr_length ea; omega)

theorem encodeB_fits (op aaa : Nat) (cc : Cond) {tl : List Byte} (h : tl.length ≤ 4) : Fits (encodeB op aaa cc tl) :=
  two_bytes _ _ (by omega)

theorem encodeN_fits (op fn : Nat) {tl : List Byte} (h : tl.length ≤ 4) : Fits (encodeN op fn tl) :=
  two_bytes _ _ (by omega)

theorem encodeSB_fits (op : Nat) {tl : List Byte} (h : tl.length ≤ 4) : Fits (encodeSB op tl) := by
  simp only [encodeSB, Fits, List.length_cons]; omega

theorem ldR (ss : Size) (d : RegField) (src : Src) : Statement (.ldR ss d src) := encodeR_fits _ _ _ _ (src_length _ _)
theorem exR (ss : Size) (d : RegField) (r : RegField) : Statement (.exR ss d r) := encodeR_fits _ _ _ _ (Nat.zero_le 4)
theorem inR (ss : NSize) (d : RegField) (port : Port) : Statement (.inR ss d port) := encodeR_fits _ _ _ _ (port_length _)
theorem outR (ss : NSize) (port : Port) (r : RegField) : Statement (.outR ss port r) := encodeR_fits _ _ _ _ (port_length _)
theorem addR (ss : Size) (d : RegField) (src : Src) : Statement (.addR ss d src) := encodeR_fits _ _ _ _ (src_length _ _)
theorem adcR (ss : Size) (d : RegField) (src : Src) : Statement (.adcR ss d src) := encodeR_fits _ _ _ _ (src_length _ _)
theorem subR (ss : Size) (d : RegField) (src : Src) : Statement (.subR ss d src) := encodeR_fits _ _ _ _ (src_length _ _)
theorem sbcR (ss : Size) (d : RegField) (src : Src) : Statement (.sbcR ss d src) := encodeR_fits _ _ _ _ (src_length _ _)
theorem cpR (ss : Size) (d : RegField) (src : Src) : Statement (.cpR ss d src) := encodeR_fits _ _ _ _ (src_length _ _)
theorem andR (ss : Size) (d : RegField) (src : Src) : Statement (.andR ss d src) := encodeR_fits _ _ _ _ (src_length _ _)
theorem orR (ss : Size) (d : RegField) (src : Src) : Statement (.orR ss d src) := encodeR_fits _ _ _ _ (src_length _ _)
theorem xorR (ss : Size) (d : RegField) (src : Src) : Statement (.xorR ss d src) := encodeR_fits _ _ _ _ (src_length _ _)
theorem tstR (ss : Size) (d : RegField) (src : Src) : Statement (.tstR ss d src) := encodeR_fits _ _ _ _ (src_length _ _)
theorem bitR (ss : Size) (d : RegField) (n : Count) : Statement (.bitR ss d n) := encodeR_fits _ _ _ _ (count_length _)
theorem setR (ss : Size) (d : RegField) (n : Count) : Statement (.setR ss d n) := encodeR_fits _ _ _ _ (count_length _)
theorem resR (ss : Size) (d : RegField) (n : Count) : Statement (.resR ss d n) := encodeR_fits _ _ _ _ (count_length _)
theorem rlcR (ss : Size) (d : RegField) (n : Count) : Statement (.rlcR ss d n) := encodeR_fits _ _ _ _ (count_length _)
theorem rrcR (ss : Size) (d : RegField) (n : Count) : Statement (.rrcR ss d n) := encodeR_fits _ _ _ _ (count_length _)
theorem rlR (ss : Size) (d : RegField) (n : Count) : Statement (.rlR ss d n) := encodeR_fits _ _ _ _ (count_length _)
theorem rrR (ss : Size) (d : RegField) (n : Count) : Statement (.rrR ss d n) := encodeR_fits _ _ _ _ (count_length _)
theorem slaR (ss : Size) (d : RegField) (n : Count) : Statement (.slaR ss d n) := encodeR_fits _ _ _ _ (count_length _)
theorem sraR (ss : Size) (d : RegField) (n : Count) : Statement (.sraR ss d n) := encodeR_fits _ _ _ _ (count_length _)
theorem srlR (ss : Size) (d : RegField) (n : Count) : Statement (.srlR ss d n) := encodeR_fits _ _ _ _ (count_length _)
theorem ldM (ss : Size) (ea : Addr) (f : MemForm) : Statement (.ldM ss ea f) := encodeMSrc_fits _ _ _ _
theorem exM (ss : Size) (ea : IndAddr) (r : RegField) (d : Bool) : Statement (.exM ss ea r d) := encodeRM_fits _ _ _ _ _ (Nat.zero_le 4)
theorem addM (ss : Size) (ea : Addr) (f : MemForm) : Statement (.addM ss ea f) := encodeMSrc_fits _ _ _ _
theorem adcM (ss : Size) (ea : Addr) (f : MemForm) : Statement (.adcM ss ea f) := encodeMSrc_fits _ _ _ _
theorem subM (ss : Size) (ea : Addr) (f : MemForm) : Statement (.subM ss ea f) := encodeMSrc_fits _ _ _ _
theorem sbcM (ss : Size) (ea : Addr) (f : MemForm) : Statement (.sbcM ss ea f) := encodeMSrc_fits _ _ _ _
theorem cpM (ss : Size) (ea : Addr) (f : MemForm) : Statement (.cpM ss ea f) := encodeMSrc_fits _ _ _ _
theorem andM (ss : Size) (ea : Addr) (f : MemForm) : Statement (.andM ss ea f) := encodeMSrc_fits _ _ _ _
theorem orM (ss : Size) (ea : Addr) (f : MemForm) : Statement (.orM ss ea f) := encodeMSrc_fits _ _ _ _
theorem xorM (ss : Size) (ea : Addr) (f : MemForm) : Statement (.xorM ss ea f) := encodeMSrc_fits _ _ _ _
theorem tstM (ss : Size) (ea : Addr) (f : MemForm) : Statement (.tstM ss ea f) := encodeMSrc_fits _ _ _ _
theorem bitM (ss : Size) (ea : Addr) (f : CountForm) : Statement (.bitM ss ea f) := encodeMCount_fits _ _ _ _
theorem setM (ss : Size) (ea : Addr) (f : CountForm) : Statement (.setM ss ea f) := encodeMCount_fits _ _ _ _
theorem resM (ss : Size) (ea : Addr) (f : CountForm) : Statement (.resM ss ea f) := encodeMCount_fits _ _ _ _
theorem rlcM (ss : Size) (ea : Addr) (f : CountForm) : Statement (.rlcM ss ea f) := encodeMCount_fits _ _ _ _
theorem rrcM (ss : Size) (ea : Addr) (f : CountForm) : Statement (.rrcM ss ea f) := encodeMCount_fits _ _ _ _
theorem rlM (ss : Size) (ea : Addr) (f : CountForm) : Statement (.rlM ss ea f) := encodeMCount_fits _ _ _ _
theorem rrM (ss : Size) (ea : Addr) (f : CountForm) : Statement (.rrM ss ea f) := encodeMCount_fits _ _ _ _
theorem slaM (ss : Size) (ea : Addr) (f : CountForm) : Statement (.slaM ss ea f) := encodeMCount_fits _ _ _ _
theorem sraM (ss : Size) (ea : Addr) (f : CountForm) : Statement (.sraM ss ea f) := encodeMCount_fits _ _ _ _
theorem srlM (ss : Size) (ea : Addr) (f : CountForm) : Statement (.srlM ss ea f) := encodeMCount_fits _ _ _ _
theorem exAlt (ss : WSize) (r : RegField) : Statement (.exAlt ss r) := encodeUR_fits _ _ _ _ (Nat.zero_le 4)
theorem exhR (ss : Size) (r : RegField) : Statement (.exhR ss r) := encodeUR_fits _ _ _ _ (Nat.zero_le 4)
theorem push (ss : Size) (src : Src) : Statement (.push ss src) := encodeUR_fits _ _ _ _ (src_length _ _)
theorem pop (r : Reg32) : Statement (.pop r) := encodeUR_fits _ _ _ _ (Nat.zero_le 4)
theorem incR (ss : Size) (r : RegField) : Statement (.incR ss r) := encodeUR_fits _ _ _ _ (Nat.zero_le 4)
theorem decR (ss : Size) (r : RegField) : Statement (.decR ss r) := encodeUR_fits _ _ _ _ (Nat.zero_le 4)
theorem negR (ss : Size) (r : RegField) : Statement (.negR ss r) := encodeUR_fits _ _ _ _ (Nat.zero_le 4)
theorem extR (ss : WSize) (r : RegField) : Statement (.extR ss r) := encodeUR_fits _ _ _ _ (Nat.zero_le 4)
theorem mltR (ss : Size) (r : RegField) : Statement (.mltR ss r) := encodeUR_fits _ _ _ _ (Nat.zero_le 4)
theorem divR (ss : Size) (r : RegField) : Statement (.divR ss r) := encodeUR_fits _ _ _ _ (Nat.zero_le 4)
theorem sdivR (ss : Size) (r : RegField) : Statement (.sdivR ss r) := encodeUR_fits _ _ _ _ (Nat.zero_le 4)
theorem cplR (ss : Size) (r : RegField) : Statement (.cplR ss r) := encodeUR_fits _ _ _ _ (Nat.zero_le 4)
theorem exhM (ss : Size) (ea : IndAddr) : Statement (.exhM ss ea) := encodeUM_fits _ _ _ _
theorem incM (ss : Size) (ea : Addr) : Statement (.incM ss ea) := encodeUM_fits _ _ _ _
theorem decM (ss : Size) (ea : Addr) : Statement (.decM ss ea) := encodeUM_fits _ _ _ _
theorem negM (ss : Size) (ea : Addr) : Statement (.negM ss ea) := encodeUM_fits _ _ _ _
theorem extM (ss : WSize) (ea : IndAddr) : Statement (.extM ss ea) := encodeUM_fits _ _ _ _
theorem mltM (ss : Size) (ea : IndAddr) : Statement (.mltM ss ea) := encodeUM_fits _ _ _ _
theorem divM (ss : Size) (ea : IndAddr) : Statement (.divM ss ea) := encodeUM_fits _ _ _ _
theorem sdivM (ss : Size) (ea : IndAddr) : Statement (.sdivM ss ea) := encodeUM_fits _ _ _ _
theorem cplM (ss : Size) (ea : Addr) : Statement (.cplM ss ea) := encodeUM_fits _ _ _ _
theorem jp (cc : Cond) (t : Target) : Statement (.jp cc t) := encodeB_fits _ _ _ (target_length _)
theorem jrS8 (cc : Cond) (e : Disp8) : Statement (.jrS8 cc e) := encodeB_fits _ _ _ (disp8_length _)
theorem jrS16 (cc : Cond) (e : Disp16) : Statement (.jrS16 cc e) := encodeB_fits _ _ _ (disp16_length _)
theorem call (cc : Cond) (t : Target) : Statement (.call cc t) := encodeB_fits _ _ _ (target_length _)
theorem callrS8 (cc : Cond) (e : Disp8) : Statement (.callrS8 cc e) := encodeB_fits _ _ _ (disp8_length _)
theorem callrS16 (cc : Cond) (e : Disp16) : Statement (.callrS16 cc e) := encodeB_fits _ _ _ (disp16_length _)
theorem ret (cc : Cond) : Statement (.ret cc) := encodeB_fits _ _ _ (Nat.zero_le 4)
theorem reti (cc : Cond) : Statement (.reti cc) := encodeB_fits _ _ _ (Nat.zero_le 4)
theorem retn (cc : Cond) : Statement (.retn cc) := encodeB_fits _ _ _ (Nat.zero_le 4)
theorem ldiB : Statement (.ldiB) := encodeN_fits _ _ (Nat.zero_le 4)
theorem ldirB : Statement (.ldirB) := encodeN_fits _ _ (Nat.zero_le 4)
theorem lddB : Statement (.lddB) := encodeN_fits _ _ (Nat.zero_le 4)
theorem lddrB : Statement (.lddrB) := encodeN_fits _ _ (Nat.zero_le 4)
theorem cpiB : Statement (.cpiB) := encodeN_fits _ _ (Nat.zero_le 4)
theorem cpirB : Statement (.cpirB) := encodeN_fits _ _ (Nat.zero_le 4)
theorem cpdB : Statement (.cpdB) := encodeN_fits _ _ (Nat.zero_le 4)
theorem cpdrB : Statement (.cpdrB) := encodeN_fits _ _ (Nat.zero_le 4)
theorem tsiB : Statement (.tsiB) := encodeN_fits _ _ (Nat.zero_le 4)
theorem tsirB : Statement (.tsirB) := encodeN_fits _ _ (Nat.zero_le 4)
theorem tsdB : Statement (.tsdB) := encodeN_fits _ _ (Nat.zero_le 4)
theorem tsdrB : Statement (.tsdrB) := encodeN_fits _ _ (Nat.zero_le 4)
theorem iniB : Statement (.iniB) := encodeN_fits _ _ (Nat.zero_le 4)
theorem inirB : Statement (.inirB) := encodeN_fits _ _ (Nat.zero_le 4)
theorem indB : Statement (.indB) := encodeN_fits _ _ (Nat.zero_le 4)
theorem indrB : Statement (.indrB) := encodeN_fits _ _ (Nat.zero_le 4)
theorem outiB : Statement (.outiB) := encodeN_fits _ _ (Nat.zero_le 4)
theorem otirB : Statement (.otirB) := encodeN_fits _ _ (Nat.zero_le 4)
theorem outdB : Statement (.outdB) := encodeN_fits _ _ (Nat.zero_le 4)
theorem otdrB : Statement (.otdrB) := encodeN_fits _ _ (Nat.zero_le 4)
theorem ldiW : Statement (.ldiW) := encodeN_fits _ _ (Nat.zero_le 4)
theorem ldirW : Statement (.ldirW) := encodeN_fits _ _ (Nat.zero_le 4)
theorem lddW : Statement (.lddW) := encodeN_fits _ _ (Nat.zero_le 4)
theorem lddrW : Statement (.lddrW) := encodeN_fits _ _ (Nat.zero_le 4)
theorem cpiW : Statement (.cpiW) := encodeN_fits _ _ (Nat.zero_le 4)
theorem cpirW : Statement (.cpirW) := encodeN_fits _ _ (Nat.zero_le 4)
theorem cpdW : Statement (.cpdW) := encodeN_fits _ _ (Nat.zero_le 4)
theorem cpdrW : Statement (.cpdrW) := encodeN_fits _ _ (Nat.zero_le 4)
theorem tsiW : Statement (.tsiW) := encodeN_fits _ _ (Nat.zero_le 4)
theorem tsirW : Statement (.tsirW) := encodeN_fits _ _ (Nat.zero_le 4)
theorem tsdW : Statement (.tsdW) := encodeN_fits _ _ (Nat.zero_le 4)
theorem tsdrW : Statement (.tsdrW) := encodeN_fits _ _ (Nat.zero_le 4)
theorem iniW : Statement (.iniW) := encodeN_fits _ _ (Nat.zero_le 4)
theorem inirW : Statement (.inirW) := encodeN_fits _ _ (Nat.zero_le 4)
theorem indW : Statement (.indW) := encodeN_fits _ _ (Nat.zero_le 4)
theorem indrW : Statement (.indrW) := encodeN_fits _ _ (Nat.zero_le 4)
theorem outiW : Statement (.outiW) := encodeN_fits _ _ (Nat.zero_le 4)
theorem otirW : Statement (.otirW) := encodeN_fits _ _ (Nat.zero_le 4)
theorem outdW : Statement (.outdW) := encodeN_fits _ _ (Nat.zero_le 4)
theorem otdrW : Statement (.otdrW) := encodeN_fits _ _ (Nat.zero_le 4)
theorem exx : Statement (.exx) := encodeN_fits _ _ (Nat.zero_le 4)
theorem exi : Statement (.exi) := encodeN_fits _ _ (Nat.zero_le 4)
theorem rst (n : Byte) : Statement (.rst n) := encodeN_fits _ _ (Nat.le_of_ble_eq_true rfl)
theorem scf : Statement (.scf) := encodeN_fits _ _ (Nat.zero_le 4)
theorem ccf : Statement (.ccf) := encodeN_fits _ _ (Nat.zero_le 4)
theorem daa : Statement (.daa) := encodeN_fits _ _ (Nat.zero_le 4)
theorem rld : Statement (.rld) := encodeN_fits _ _ (Nat.zero_le 4)
theorem rrd : Statement (.rrd) := encodeN_fits _ _ (Nat.zero_le 4)
theorem halt : Statement (.halt) := encodeN_fits _ _ (Nat.zero_le 4)
theorem ei : Statement (.ei) := encodeN_fits _ _ (Nat.zero_le 4)
theorem di : Statement (.di) := encodeN_fits _ _ (Nat.zero_le 4)
theorem im1 : Statement (.im1) := encodeN_fits _ _ (Nat.zero_le 4)
theorem im2 : Statement (.im2) := encodeN_fits _ _ (Nat.zero_le 4)
theorem ldI (nn : Word) : Statement (.ldI nn) := encodeN_fits _ _ (Nat.le_of_ble_eq_true rfl)
theorem ldRA : Statement (.ldRA) := encodeN_fits _ _ (Nat.zero_le 4)
theorem ldAR : Statement (.ldAR) := encodeN_fits _ _ (Nat.zero_le 4)
theorem nop : Statement (.nop) := encodeSB_fits _ (Nat.zero_le 4)
theorem djnz (e : Byte) : Statement (.djnz e) := encodeSB_fits _ (Nat.le_of_ble_eq_true rfl)
theorem janz (e : Byte) : Statement (.janz e) := encodeSB_fits _ (Nat.le_of_ble_eq_true rfl)

end Sys2Proof.Laws.EncodedLength
end

