-- ==== Sys2Proof/Tests/Slice0.lean ====
section
/-! SUPPORT. Tests of the model, each on one small state: what `WellFormed` refuses, words written out from the encoding
tables of `30_encoding.md`, one step of an instruction with the expected values of `95_test_vectors.md` (or worked out
by hand from the rule named), and, for every statement with hypotheses, a state and operands that meet them. -/

namespace Sys2Proof.Tests

open Sys2Proof Sys2Proof.Machine

/-! ## The start state of the vectors and what a test asks -/

/-- The registers of 95's conventions: SP is 0x1000, the rest 0. -/
def bank : Bank := { Bank.zero with sp := 0x1000#32 }

/-- Memory with a list of bytes written from an address on. -/
def poke (m : Memory) (a : Nat) : List Byte → Memory
  | [] => m
  | v :: tl => poke (m.write (a % physSize) v) (a + 1) tl

/-- The start of a vector (95, conventions): the instruction's bytes at 0x100, where PC stands, and the data bytes. -/
def start (code : List Byte) (g : Bank) (data : List (Nat × List Byte)) : State :=
  { State.reset with
    pc := 0x100#32, reg := g
    mem := data.foldl (fun m d => poke m d.1 d.2) (poke ⟨[]⟩ 0x100 code) }

/-- The outcome is a next state, with a property. -/
def check (o : Result) (p : State → Bool) : Bool :=
  match o with
  | .next t => p t
  | _ => false

/-- What `check` says of an outcome. -/
theorem next_of_check {o : Result} {p : State → Bool} (h : check o p = true) : ∃ t, o = .next t ∧ p t = true := by
  match o, h with
  | .next t, h => exact ⟨t, rfl, h⟩

/-- The outcome is the refusal of AF as a destination. -/
def refusesAF : Result → Bool
  | .refused .afDestination => true
  | _ => false

/-- The outcome is the fault of bytes that spell no instruction. -/
def faults (why : Illegal) : Result → Bool
  | .fault (.illegal w) => w == why
  | _ => false

/-- Memory bytes from a physical address on. -/
def bytes (s : State) (a n : Nat) : List Byte := (List.range n).map fun k => s.mem.read ((a + k) % physSize)

/-- Every list of bytes decodes to its instruction with nothing left over, under the default parameters. -/
def decodeTo (rows : List (List Byte × Instr)) : Bool :=
  rows.all fun row =>
    match decode .half row.1 with
    | .ok (i, []) => i == row.2
    | _ => false

/-- Every list of bytes, with zeros after it, spells no instruction. -/
def illegal (rows : List (List Byte)) : Bool :=
  rows.all fun row =>
    match decode .half (row ++ List.replicate 8 0#8) with
    | .ok _ => false
    | .error _ => true

/-! ## What WellFormed refuses -/

/-- R120: an immediate wider than the operand, in each form that holds one. -/
theorem test_wf_refuses_wide_immediate :
    Instr.wf .half (.ldR .byte .r0 (.imm 0x100)) = false ∧ Instr.wf .half (.addR .word .r0 (.imm 0x10000)) = false ∧
    Instr.wf .half (.adcR .byte .r0 (.imm 0x100)) = false ∧ Instr.wf .half (.subR .byte .r0 (.imm 0x100)) = false ∧
    Instr.wf .half (.sbcR .byte .r0 (.imm 0x100)) = false ∧ Instr.wf .half (.cpR .byte .r0 (.imm 0x100)) = false ∧
    Instr.wf .half (.andR .byte .r0 (.imm 0x100)) = false ∧ Instr.wf .half (.orR .byte .r0 (.imm 0x100)) = false ∧
    Instr.wf .half (.xorR .byte .r0 (.imm 0x100)) = false ∧ Instr.wf .half (.tstR .byte .r0 (.imm 0x100)) = false ∧
    Instr.wf .half (.push .word (.imm 0x10000)) = false ∧
    Instr.wf .half (.addR .word .r0 (.imm 0xFFFF)) = true ∧ Instr.wf .half (.addR .dword .r0 (.imm 0xFFFFFFFF)) = true := by
  decide

/-- R120, the same for a memory destination. -/
theorem test_wf_refuses_wide_immediate_to_memory :
    Instr.wf .half (.ldM .byte (.ind .hl) (.toMem (.imm 0x100))) = false ∧
    Instr.wf .half (.addM .word (.ind .hl) (.toMem (.imm 0x10000))) = false ∧
    Instr.wf .half (.adcM .byte (.ind .hl) (.toMem (.imm 0x100))) = false ∧
    Instr.wf .half (.subM .byte (.ind .hl) (.toMem (.imm 0x100))) = false ∧
    Instr.wf .half (.sbcM .byte (.ind .hl) (.toMem (.imm 0x100))) = false ∧
    Instr.wf .half (.cpM .byte (.ind .hl) (.toMem (.imm 0x100))) = false ∧
    Instr.wf .half (.andM .byte (.ind .hl) (.toMem (.imm 0x100))) = false ∧
    Instr.wf .half (.orM .byte (.ind .hl) (.toMem (.imm 0x100))) = false ∧
    Instr.wf .half (.xorM .byte (.ind .hl) (.toMem (.imm 0x100))) = false ∧
    Instr.wf .half (.tstM .byte (.ind .hl) (.toMem (.imm 0x100))) = false := by
  decide

/-- R122, R123: a size that MLTDIV_SS does not list. -/
theorem test_wf_refuses_mlt_div_size :
    Instr.wf .half (.mltR .dword .r1) = false ∧ Instr.wf .half (.divR .dword .r1) = false ∧
    Instr.wf .half (.sdivR .dword .r1) = false ∧ Instr.wf .half (.mltM .dword (.ind .hl)) = false ∧
    Instr.wf .half (.divM .dword (.ind .hl)) = false ∧ Instr.wf .half (.sdivM .dword (.ind .hl)) = false ∧
    Instr.wf .target (.mltR .byte .r1) = false ∧ Instr.wf .target (.divR .byte .r1) = false ∧
    Instr.wf .target (.sdivR .byte .r1) = false ∧ Instr.wf .target (.mltM .byte (.ind .hl)) = false ∧
    Instr.wf .target (.divM .byte (.ind .hl)) = false ∧ Instr.wf .target (.sdivM .byte (.ind .hl)) = false ∧
    Instr.wf .target (.mltR .dword .r1) = true ∧ Instr.wf .half (.mltR .byte .r1) = true := by
  decide

/-! ## Decoding: words written out from the encoding tables -/

/-- The assembler examples of the manual (95 §1.1). -/
theorem test_decode_manual_examples :
    decodeTo [
      ([0x00, 0xE1, 0x34, 0x12], .ldR .word .r0 (.imm 0x1234)),
      ([0x10, 0xE4, 0xFF], .addR .byte .r1 (.imm 0xFF)),
      ([0x00, 0xFA, 0x78, 0x56, 0x34, 0x12], .ldR .dword .r6 (.imm 0x12345678)),
      ([0x10, 0x68], .addR .byte .r2 (.reg .r3)),
      ([0x2C, 0xB1], .xorR .word .r4 (.reg .r5)),
      ([0x01, 0x45], .ldM .word (.ind .de) (.toMem (.reg .r1))),
      ([0x91, 0x21], .addM .word (.ind .bc) (.toReg .r0)),
      ([0x81, 0x86, 0x0A, 0x00], .ldM .dword (.idx .ix 10) (.toReg .r1)),
      ([0x01, 0xC9, 0xFC, 0xFF], .ldM .word (.idx .sp 0xFFFC) (.toMem (.reg .r2))),
      ([0x35, 0xBC, 0x00, 0x01, 0x03], .bitM .byte (.idx .iy 0x100) (.onMem (.imm 3))),
      ([0x81, 0xE1, 0x78, 0x56, 0x34, 0x12], .ldM .word (.direct 0x12345678) (.toReg .r0)),
      ([0x4A, 0xFE, 0x00, 0x10, 0x00, 0x00], .call .always (.direct 0x1000)),
      ([0x1A, 0xFE, 0xF6], .jrS8 .always (.imm 0xF6)),
      ([0x02, 0x66], .pop .bc)] = true := by
  decide

/-- Format R, register-register (R102, R103, R104), part 1 of 2. -/
theorem test_decode_format_r_1 :
    decodeTo [
      ([0x00, 0x30], .ldR .byte .r4 (.reg .r1)),
      ([0x04, 0x95], .exR .word .r5 .r4),
      ([0x08, 0x18], .inR .byte .r6 (.reg .a)),
      ([0x0C, 0x7D, 0x5B], .outR .word (.imm 0x5B) .r3),
      ([0x10, 0xC5], .addR .word .r1 (.reg .r6)),
      ([0x14, 0xEA, 0x91, 0xA2, 0xB3, 0xC4], .adcR .dword .r2 (.imm 0xC4B3A291)),
      ([0x18, 0xAC], .subR .byte .r3 (.reg .r5)),
      ([0x1C, 0xF1, 0x91, 0xA2], .sbcR .word .r4 (.imm 0xA291)),
      ([0x20, 0x96], .cpR .dword .r5 (.reg .r4)),
      ([0x24, 0xF8, 0x91], .andR .byte .r6 (.imm 0x91)),
      ([0x28, 0x61], .orR .word .r0 (.reg .r3)),
      ([0x2C, 0xE6, 0x91, 0xA2, 0xB3, 0xC4], .xorR .dword .r1 (.imm 0xC4B3A291))] = true := by
  decide

/-- Format R, register-register (R102, R103, R104), part 2 of 2. -/
theorem test_decode_format_r_2 :
    decodeTo [
      ([0x30, 0x48], .tstR .byte .r2 (.reg .r2)),
      ([0x34, 0xED, 0x91], .bitR .word .r3 (.imm 0x91)),
      ([0x38, 0x32], .setR .dword .r4 (.reg .r1)),
      ([0x3C, 0xF4, 0x91], .resR .byte .r5 (.imm 0x91)),
      ([0x40, 0x19], .rlcR .word .r6 (.reg .r0)),
      ([0x44, 0xE2, 0x91], .rrcR .dword .r0 (.imm 0x91)),
      ([0x48, 0xC4], .rlR .byte .r1 (.reg .r6)),
      ([0x4C, 0xE9, 0x91], .rrR .word .r2 (.imm 0x91)),
      ([0x50, 0xAE], .slaR .dword .r3 (.reg .r5)),
      ([0x54, 0xF0, 0x91], .sraR .byte .r4 (.imm 0x91)),
      ([0x58, 0x95], .srlR .word .r5 (.reg .r4))] = true := by
  decide

/-- Format RM, register-memory (R105 to R108), part 1 of 2. -/
theorem test_decode_format_rm_1 :
    decodeTo [
      ([0x01, 0x5C, 0x91], .ldM .byte (.ind .de) (.toMem (.imm 0x91))),
      ([0x85, 0xCD, 0xF0, 0x8F], .exM .word (.idx .sp 0x8FF0) .r3 true),
      ([0x11, 0x16], .addM .dword (.ind .af) (.toMem (.reg .r5))),
      ([0x95, 0x60], .adcM .byte (.ind .hl) (.toReg .r0)),
      ([0x19, 0xDD, 0xF0, 0x8F, 0x91, 0xA2], .subM .word (.idx .sp 0x8FF0) (.toMem (.imm 0xA291))),
      ([0x9D, 0x32], .sbcM .dword (.ind .bc) (.toReg .r4)),
      ([0x21, 0x98, 0xF0, 0x8F], .cpM .byte (.idx .ix 0x8FF0) (.toMem (.reg .r6))),
      ([0xA5, 0xE5, 0x11, 0x22, 0x33, 0x44], .andM .word (.direct 0x44332211) (.toReg .r1)),
      ([0x29, 0x5E, 0x91, 0xA2, 0xB3, 0xC4], .orM .dword (.ind .de) (.toMem (.imm 0xC4B3A291))),
      ([0xAD, 0xB4, 0xF0, 0x8F], .xorM .byte (.idx .iy 0x8FF0) (.toReg .r5)),
      ([0x31, 0x01], .tstM .word (.ind .af) (.toMem (.reg .r0))),
      ([0xB5, 0x6A], .bitM .dword (.ind .hl) (.onReg .r2))] = true := by
  decide

/-- Format RM, register-memory (R105 to R108), part 2 of 2. -/
theorem test_decode_format_rm_2 :
    decodeTo [
      ([0x39, 0xDC, 0xF0, 0x8F, 0x91], .setM .byte (.idx .sp 0x8FF0) (.onMem (.imm 0x91))),
      ([0xBD, 0x39], .resM .word (.ind .bc) (.onReg .r6)),
      ([0x41, 0x86, 0xF0, 0x8F], .rlcM .dword (.idx .ix 0x8FF0) (.onMem (.reg .r1))),
      ([0xC5, 0xEC, 0x11, 0x22, 0x33, 0x44], .rrcM .byte (.direct 0x44332211) (.onReg .r3)),
      ([0x49, 0x5D, 0x91], .rlM .word (.ind .de) (.onMem (.imm 0x91))),
      ([0xCD, 0xA2, 0xF0, 0x8F], .rrM .dword (.idx .iy 0x8FF0) (.onReg .r0)),
      ([0x51, 0x08], .slaM .byte (.ind .af) (.onMem (.reg .r2))),
      ([0xD5, 0x71], .sraM .word (.ind .hl) (.onReg .r4)),
      ([0x59, 0xDE, 0xF0, 0x8F, 0x91], .srlM .dword (.idx .sp 0x8FF0) (.onMem (.imm 0x91)))] = true := by
  decide

/-- Format UR, unary register (R109, R110). -/
theorem test_decode_format_ur :
    decodeTo [
      ([0x02, 0x05], .exAlt .word .r1),
      ([0x02, 0x29], .exhR .word .r2),
      ([0x02, 0x5E, 0x91, 0xA2, 0xB3, 0xC4], .push .dword (.imm 0xC4B3A291)),
      ([0x02, 0x72], .pop .ix),
      ([0x02, 0x95], .incR .word .r5),
      ([0x02, 0xBA], .decR .dword .r6),
      ([0x02, 0xC0], .negR .byte .r0),
      ([0x02, 0xE6], .extR .dword .r1),
      ([0x12, 0x08], .mltR .byte .r2),
      ([0x12, 0x2D], .divR .word .r3),
      ([0x12, 0x50], .sdivR .byte .r4),
      ([0x12, 0x76], .cplR .dword .r5)] = true := by
  decide

/-- Format UM, unary memory (R111, R112). -/
theorem test_decode_format_um :
    decodeTo [
      ([0x06, 0x64], .exhM .byte (.ind .hl)),
      ([0x06, 0xF1, 0x11, 0x22, 0x33, 0x44], .incM .word (.direct 0x44332211)),
      ([0x06, 0xB6, 0xF0, 0x8F], .decM .dword (.idx .iy 0x8FF0)),
      ([0x06, 0xF8, 0x11, 0x22, 0x33, 0x44], .negM .byte (.direct 0x44332211)),
      ([0x06, 0x1D], .extM .word (.ind .af)),
      ([0x16, 0x21], .mltM .word (.ind .bc)),
      ([0x16, 0x44], .divM .byte (.ind .de)),
      ([0x16, 0x69], .sdivM .word (.ind .hl)),
      ([0x16, 0x8E, 0xF0, 0x8F], .cplM .dword (.idx .ix 0x8FF0))] = true := by
  decide

/-- Format B, branch (R113 to R115). -/
theorem test_decode_format_b :
    decodeTo [
      ([0x0A, 0xE0, 0x11, 0x22, 0x33, 0x44], .jp .nz (.direct 0x44332211)),
      ([0x1A, 0x42], .jrS8 .z (.reg .c)),
      ([0x2A, 0xE4, 0xF0, 0x8F], .jrS16 .nc (.imm 0x8FF0)),
      ([0x4A, 0x86], .call .c (.reg .ix)),
      ([0x5A, 0xE8, 0xF0], .callrS8 .po (.imm 0xF0)),
      ([0x6A, 0xCA], .callrS16 .pe (.reg .l)),
      ([0x8A, 0x0C], .ret .p),
      ([0x9A, 0x0E], .reti .m),
      ([0xAA, 0x1E], .retn .always)] = true := by
  decide

/-- Format N, no operand (R116, R117), part 1 of 3. -/
theorem test_decode_format_n_1 :
    decodeTo [
      ([0x0E, 0x00], .ldiB),
      ([0x0E, 0x01], .ldirB),
      ([0x0E, 0x02], .lddB),
      ([0x0E, 0x03], .lddrB),
      ([0x0E, 0x04], .cpiB),
      ([0x0E, 0x05], .cpirB),
      ([0x0E, 0x06], .cpdB),
      ([0x0E, 0x07], .cpdrB),
      ([0x0E, 0x08], .tsiB),
      ([0x0E, 0x09], .tsirB),
      ([0x0E, 0x0A], .tsdB),
      ([0x0E, 0x0B], .tsdrB),
      ([0x0E, 0x0C], .iniB),
      ([0x0E, 0x0D], .inirB),
      ([0x0E, 0x0E], .indB),
      ([0x0E, 0x0F], .indrB),
      ([0x0E, 0x10], .outiB),
      ([0x0E, 0x11], .otirB),
      ([0x0E, 0x12], .outdB),
      ([0x0E, 0x13], .otdrB),
      ([0x1E, 0x00], .ldiW),
      ([0x1E, 0x01], .ldirW),
      ([0x1E, 0x02], .lddW),
      ([0x1E, 0x03], .lddrW)] = true := by
  decide

/-- Format N, no operand (R116, R117), part 2 of 3. -/
theorem test_decode_format_n_2 :
    decodeTo [
      ([0x1E, 0x04], .cpiW),
      ([0x1E, 0x05], .cpirW),
      ([0x1E, 0x06], .cpdW),
      ([0x1E, 0x07], .cpdrW),
      ([0x1E, 0x08], .tsiW),
      ([0x1E, 0x09], .tsirW),
      ([0x1E, 0x0A], .tsdW),
      ([0x1E, 0x0B], .tsdrW),
      ([0x1E, 0x0C], .iniW),
      ([0x1E, 0x0D], .inirW),
      ([0x1E, 0x0E], .indW),
      ([0x1E, 0x0F], .indrW),
      ([0x1E, 0x10], .outiW),
      ([0x1E, 0x11], .otirW),
      ([0x1E, 0x12], .outdW),
      ([0x1E, 0x13], .otdrW),
      ([0x4E, 0x00], .exx),
      ([0x4E, 0x01], .exi),
      ([0x5E, 0x00, 0xFE], .rst 0xFE),
      ([0x5E, 0x01], .scf),
      ([0x5E, 0x02], .ccf),
      ([0x6E, 0x00], .daa),
      ([0x6E, 0x01], .rld),
      ([0x6E, 0x02], .rrd)] = true := by
  decide

/-- Format N, no operand (R116, R117), part 3 of 3. -/
theorem test_decode_format_n_3 :
    decodeTo [
      ([0x8E, 0x00], .halt),
      ([0x8E, 0x01], .ei),
      ([0x8E, 0x02], .di),
      ([0x8E, 0x05], .im1),
      ([0x8E, 0x06], .im2),
      ([0x8E, 0x07, 0x34, 0x12], .ldI 0x1234),
      ([0x8E, 0x08], .ldRA),
      ([0x8E, 0x09], .ldAR)] = true := by
  decide

/-- Format SB, single byte (R118, R119). -/
theorem test_decode_format_sb :
    decodeTo [
      ([0x0F], .nop),
      ([0x1F, 0xFA], .djnz 0xFA),
      ([0x2F, 0xFA], .janz 0xFA)] = true := by
  decide

/-- The longest instruction, and the bit number that has one byte at every size (95 §2.1). -/
theorem test_decode_lengths :
    decodeTo [
      ([0x01, 0xFE, 0x00, 0x40, 0x00, 0x00, 0x44, 0x33, 0x22, 0x11],
        .ldM .dword (.direct 0x4000) (.toMem (.imm 0x11223344))),
      ([0x01, 0x9C, 0xFF, 0xFF, 0x5A], .ldM .byte (.idx .ix 0xFFFF) (.toMem (.imm 0x5A))),
      ([0x34, 0xEE, 0x1F], .bitR .dword .r3 (.imm 31)),
      ([0x08, 0xE1, 0x12], .inR .word .r0 (.imm 0x12)),
      ([0x0C, 0x3D, 0xFF], .outR .word (.imm 0xFF) .r1),
      ([0x02, 0x5E, 0x78, 0x56, 0x34, 0x12], .push .dword (.imm 0x12345678)),
      ([0x06, 0xF1, 0x00, 0x40, 0x00, 0x00], .incM .word (.direct 0x4000)),
      ([0x2A, 0xFE, 0x00, 0x10], .jrS16 .always (.imm 0x1000))] = true := by
  decide

/-- Each reason of R131 (95 §2.1 to §2.7). -/
theorem test_decode_illegal :
    illegal [[0x03], [0x07], [0x0B], [0x3F], [0xFF], [0x5C, 0x01], [0x09, 0x21], [0x3A, 0xFE], [0x0A, 0x01], [0x0E, 0x14],
      [0x2E, 0x00], [0x7E, 0x00], [0x8E, 0x03], [0x8E, 0x04], [0x8E, 0x0A], [0x22, 0x00], [0x00, 0x23], [0x08, 0x22],
      [0x0C, 0x06], [0x02, 0x00], [0x02, 0x65], [0x02, 0xE0], [0x12, 0x06], [0x0A, 0xF0], [0x00, 0x3D], [0x04, 0xE1],
      [0x81, 0x7D], [0x02, 0x1D], [0x05, 0xE1], [0x06, 0xE5], [0x16, 0xE0], [0x8A, 0x3E]] = true := by
  decide

/-- R123: under the other value of the parameter the dword size is listed. -/
theorem test_decode_mlt_target :
    decode .target [0x12, 0x06] = .ok (.mltR .dword .r1, []) ∧ decode .target [0x12, 0x04] = .error .size := by
  exact ⟨rfl, rfl⟩

/-- A table word and the interface's fetch (log 21): the row LD A, R; a step at reset runs it. -/
theorem test_table_word :
    decodeTableWord 16 0x098E = some .ldAR ∧ decodeTableWord 8 0x0F = some .nop ∧ decodeTableWord 16 0x2E = none ∧
    check (step (State.reset.withFetchWord 16 0x008E)) (fun t => t.halted && t.pc == 2) = true := by
  refine ⟨rfl, rfl, rfl, by decide⟩

/-! ## One step of each instruction -/

/-- 95 §2.2: LD.b A, B. -/
theorem test_ld_byte_keeps_upper :
    check (step (start [0x00, 0x20] { bank with a := 0x1234, b := 0x56CD } [])) (fun t =>
      t.reg.a == 0x12CD && t.reg.b == 0x56CD && t.pc == 0x102) = true := by
  decide

/-- 95 §2.2: LD AF, 0x1234FFFF. -/
theorem test_ld_af_writes_f_as_data :
    check (step (start [0x00, 0xE2, 0xFF, 0xFF, 0x34, 0x12] bank [])) (fun t =>
      t.reg.a == 0x1234 && t.reg.f == 0x1D7 && t.iff2 == true && t.inhibit == true && t.pc == 0x106) = true := by
  decide

/-- 95 §2.2: LD BC, (IX+10). -/
theorem test_ld_from_indexed :
    check (step (start [0x81, 0x86, 0x0A, 0x00] { bank with ix := 0x1FF6 } [(0x2000, [0x78, 0x56, 0x34,
      0x12])])) (fun t =>
      t.reg.b == 0x1234 && t.reg.c == 0x5678 && t.pc == 0x104) = true := by
  decide

/-- 95 §2.2: LD (0x00FFFFFF), A. -/
theorem test_ld_store_wraps_physical :
    check (step (start [0x01, 0xE1, 0xFF, 0xFF, 0xFF, 0x00] { bank with a := 0xBEEF } [])) (fun t =>
      t.pc == 0x106 && bytes t 0xFFFFFF 1 == [0xEF] && bytes t 0x0 1 == [0xBE]) = true := by
  decide

/-- 95 §2.2: EX.b A, B. -/
theorem test_ex_byte :
    check (step (start [0x04, 0x20] { bank with a := 0x1234, b := 0x5678 } [])) (fun t =>
      t.reg.a == 0x1278 && t.reg.b == 0x5634) = true := by
  decide

/-- 95 §2.2: EX AF, BC. -/
theorem test_ex_af_writes_f_as_data :
    check (step (start [0x04, 0x22] { bank with a := 0x1111, f := 0x1, b := 0x2222, c := 0xFFFF } [])) (fun t =>
      t.reg.a == 0x2222 && t.reg.f == 0x1D7 && t.reg.b == 0x1111 && t.reg.c == 0x1 && t.iff2 == true &&
      t.inhibit == true) = true := by
  decide

/-- 95 §2.2: EX HL, (HL). -/
theorem test_ex_with_memory :
    check (step (start [0x85, 0x6E] { bank with l := 0x2000 } [(0x2000, [0x78, 0x56, 0x34, 0x12])])) (fun t =>
      t.reg.h == 0x1234 && t.reg.l == 0x5678 && bytes t 0x2000 4 == [0x00, 0x20, 0x00, 0x00]) = true := by
  decide

/-- 95 §2.2: EX AF, AF'. -/
theorem test_ex_af_alternate :
    check (step { start [0x02, 0x02] { bank with a := 0x1111, f := 0x1 } [] with
      alt := { Bank.zero with a := 0x2222, f := 0xFFFF } }) (fun t =>
      t.reg.a == 0x2222 && t.reg.f == 0x1D7 && t.alt.a == 0x1111 && t.alt.f == 0x1 && t.iff2 == true &&
      t.inhibit == true) = true := by
  decide

/-- 95 §2.2: EX IX, IX'. -/
theorem test_ex_ix_alternate :
    check (step { start [0x02, 0x12] { bank with ix := 0x11111111 } [] with
      alt := { Bank.zero with ix := 0x22222222 } }) (fun t =>
      t.reg.ix == 0x22222222 && t.alt.ix == 0x11111111) = true := by
  decide

/-- 95 §2.2: EXX. -/
theorem test_exx :
    check (step { start [0x4E, 0x00] ⟨0xAAAA, 1, 2, 3, 4, 5, 6, 0x00D7, 7, 8, 9⟩ [] with
      alt := ⟨0xBBBB, 0x11, 0x12, 0x13, 0x14, 0x15, 0x16, 0, 0x17, 0x18, 0x19⟩ }) (fun t =>
      t.reg == ⟨0xAAAA, 0x11, 0x12, 0x13, 0x14, 0x15, 0x16, 0x00D7, 7, 8, 9⟩ &&
      t.alt == ⟨0xBBBB, 1, 2, 3, 4, 5, 6, 0, 0x17, 0x18, 0x19⟩) = true := by
  decide

/-- 95 §2.2: EXI. -/
theorem test_exi :
    check (step { start [0x4E, 0x01] { bank with ix := 0x1, iy := 0x2, sp := 0x3 } [] with
      alt := { Bank.zero with ix := 0x10, iy := 0x20, sp := 0x30 } }) (fun t =>
      t.reg.ix == 0x10 && t.reg.iy == 0x20 && t.reg.sp == 0x30 && t.alt.ix == 0x1 && t.alt.iy == 0x2 &&
      t.alt.sp == 0x3 && t.pc == 0x102) = true := by
  decide

/-- 95 §2.2: EXH.b A. -/
theorem test_exh_byte_swaps_nibbles :
    check (step (start [0x02, 0x20] { bank with a := 0x12A5 } [])) (fun t =>
      t.reg.a == 0x125A) = true := by
  decide

/-- 95 §2.2: EXH AF. -/
theorem test_exh_af :
    check (step (start [0x02, 0x22] { bank with a := 0x100, f := 0x41 } [])) (fun t =>
      t.reg.a == 0x41 && t.reg.f == 0x100 && t.iff2 == true && t.inhibit == true) = true := by
  decide

/-- 95 §2.2: EXH (IX+2) dword. -/
theorem test_exh_memory :
    check (step (start [0x06, 0x86, 0x02, 0x00] { bank with ix := 0x1FFE } [(0x2000, [0x78, 0x56, 0x34,
      0x12])])) (fun t =>
      t.pc == 0x104 && bytes t 0x2000 4 == [0x34, 0x12, 0x78, 0x56]) = true := by
  decide

/-- 95 §2.2: PUSH.b A. -/
theorem test_push_byte_sign_extends :
    check (step (start [0x02, 0x40] { bank with a := 0x1280 } [])) (fun t =>
      t.reg.sp == 0xFFC && bytes t 0xFFC 4 == [0x80, 0xFF, 0xFF, 0xFF]) = true := by
  decide

/-- 95 §2.2: PUSH SP. -/
theorem test_push_sp :
    check (step (start [0x02, 0x5A] bank [])) (fun t =>
      t.reg.sp == 0xFFC && bytes t 0xFFC 4 == [0x00, 0x10, 0x00, 0x00]) = true := by
  decide

/-- 95 §2.2: POP AF. -/
theorem test_pop_af :
    check (step (start [0x02, 0x62] { bank with sp := 0xFFC } [(0xFFC, [0xFF, 0xFF, 0x34, 0x12])])) (fun t =>
      t.reg.a == 0x1234 && t.reg.f == 0x1D7 && t.reg.sp == 0x1000 && t.iff2 == true && t.inhibit == true) = true := by
  decide

/-- 95 §2.2: POP SP. -/
theorem test_pop_sp :
    check (step (start [0x02, 0x7A] { bank with sp := 0xFFC } [(0xFFC, [0x00, 0x20, 0x00, 0x00])])) (fun t =>
      t.reg.sp == 0x2000) = true := by
  decide

/-- 95 §2.2: IN.b C, (C). -/
theorem test_in_byte :
    check (step { start [0x08, 0x48] { bank with c := 0x300, f := 0xD7 } [] with ioIn := [0x5A] }) (fun t =>
      t.reg.c == 0x35A && t.reg.f == 0xD7 && t.trace == [.ioRead .byte 0x300 0x5A]) = true := by
  decide

/-- 95 §2.2: OUT.b (C), A. -/
theorem test_out_byte :
    check (step (start [0x0C, 0x08] { bank with c := 0x1234, a := 0xABCD } [])) (fun t =>
      t.pc == 0x102 && t.trace == [.ioWrite .byte 0x1234 0xCD]) = true := by
  decide

/-- 95 §2.3: LDI.b. -/
theorem test_ldi_b :
    check (step (start [0x0E, 0x00] { bank with l := 0x2000, e := 0x3000, c := 0x2 } [(0x2000, [0x11, 0x22, 0x33,
      0x44])])) (fun t =>
      t.reg.h == 0x0 && t.reg.l == 0x2001 && t.reg.d == 0x0 && t.reg.e == 0x3001 && t.reg.b == 0x0 &&
      t.reg.c == 0x1 && t.reg.f == 0x4) = true := by
  decide

/-- 95 §2.3: LDI.w. -/
theorem test_ldi_w_counter_wraps :
    check (step (start [0x1E, 0x00] { bank with l := 0x2000, e := 0x3000 } [(0x2000, [0x11, 0x22, 0x33,
      0x44])])) (fun t =>
      t.reg.h == 0x0 && t.reg.l == 0x2002 && t.reg.d == 0x0 && t.reg.e == 0x3002 && t.reg.b == 0xFFFF &&
      t.reg.c == 0xFFFF && bytes t 0x3000 2 == [0x11, 0x22] && t.reg.f == 0x4) = true := by
  decide

/-- 95 §2.3: LDD.b. -/
theorem test_ldd_b :
    check (step (start [0x0E, 0x02] { bank with l := 0x2003, e := 0x3003, c := 0x1 } [(0x2000, [0x11, 0x22, 0x33,
      0x44])])) (fun t =>
      t.reg.h == 0x0 && t.reg.l == 0x2002 && t.reg.d == 0x0 && t.reg.e == 0x3002 && t.reg.b == 0x0 &&
      t.reg.c == 0x0 && bytes t 0x3003 1 == [0x44] && t.reg.f == 0x0) = true := by
  decide

/-- 95 §2.3: LDD.w. -/
theorem test_ldd_w :
    check (step (start [0x1E, 0x02] { bank with l := 0x2002, e := 0x3002, c := 0x5 } [(0x2000, [0x11, 0x22, 0x33,
      0x44])])) (fun t =>
      t.reg.h == 0x0 && t.reg.l == 0x2000 && t.reg.d == 0x0 && t.reg.e == 0x3000 && t.reg.b == 0x0 &&
      t.reg.c == 0x4 && bytes t 0x3002 2 == [0x33, 0x44] && t.reg.f == 0x4) = true := by
  decide

/-- 95 §2.3: LDIR.b, 1 step. -/
theorem test_ldir_b_stays :
    check (step (start [0x0E, 0x01] { bank with l := 0x2000, e := 0x3000, c := 0x2 } [(0x2000, [0x11, 0x22, 0x33,
      0x44])])) (fun t =>
      t.reg.h == 0x0 && t.reg.l == 0x2001 && t.reg.d == 0x0 && t.reg.e == 0x3001 && t.reg.b == 0x0 &&
      t.reg.c == 0x1 && t.pc == 0x100 && t.reg.f == 0x4) = true := by
  decide

/-- 95 §2.3: LDIR.b, 1 step. -/
theorem test_ldir_b_zero_count :
    check (step (start [0x0E, 0x01] { bank with l := 0x2000, e := 0x3000 } [(0x2000, [0x11, 0x22, 0x33,
      0x44])])) (fun t =>
      t.reg.b == 0xFFFF && t.reg.c == 0xFFFF && t.pc == 0x100 && t.reg.f == 0x4) = true := by
  decide

/-- 95 §2.3: CPI.b. -/
theorem test_cpi_b_match :
    check (step (start [0x0E, 0x04] { bank with a := 0xFF11, l := 0x2000, c := 0x7 } [(0x2000, [0x11, 0x22, 0x33,
      0x44])])) (fun t =>
      t.reg.h == 0x0 && t.reg.l == 0x2001 && t.reg.b == 0x0 && t.reg.c == 0x6 && t.reg.f == 0x46) = true := by
  decide

/-- 95 §2.3: CPI.w. -/
theorem test_cpi_w :
    check (step (start [0x1E, 0x04] { bank with a := 0x2210, l := 0x2000, c := 0x3 } [(0x2000, [0x11, 0x22, 0x33,
      0x44])])) (fun t =>
      t.reg.h == 0x0 && t.reg.l == 0x2002 && t.reg.b == 0x0 && t.reg.c == 0x2 && t.reg.f == 0x96) = true := by
  decide

/-- 95 §2.3: CPD.w. -/
theorem test_cpd_w :
    check (step (start [0x1E, 0x06] { bank with a := 0x2211, l := 0x2000, c := 0x9 } [(0x2000, [0x11, 0x22, 0x33,
      0x44])])) (fun t =>
      t.reg.h == 0x0 && t.reg.l == 0x1FFE && t.reg.b == 0x0 && t.reg.c == 0x8 && t.reg.f == 0x46) = true := by
  decide

/-- 95 §2.3: CPIR.b, 1 step. -/
theorem test_cpir_b_stays :
    check (step (start [0x0E, 0x05] { bank with a := 0x22, l := 0x2000, c := 0x4 } [(0x2000, [0x11, 0x22, 0x33,
      0x44])])) (fun t =>
      t.reg.h == 0x0 && t.reg.l == 0x2001 && t.reg.b == 0x0 && t.reg.c == 0x3 && t.pc == 0x100 &&
      t.reg.f == 0x6) = true := by
  decide

/-- 95 §2.3: CPIR.b, 1 step. -/
theorem test_cpir_b_match_at_the_end :
    check (step (start [0x0E, 0x05] { bank with a := 0x11, l := 0x2000, c := 0x1 } [(0x2000, [0x11, 0x22, 0x33,
      0x44])])) (fun t =>
      t.reg.h == 0x0 && t.reg.l == 0x2001 && t.reg.b == 0x0 && t.reg.c == 0x0 && t.pc == 0x102 &&
      t.reg.f == 0x42) = true := by
  decide

/-- 95 §2.3: CPDR.b, 1 step. -/
theorem test_cpdr_b :
    check (step (start [0x0E, 0x07] { bank with a := 0x44, l := 0x2003, c := 0x4 } [(0x2000, [0x11, 0x22, 0x33,
      0x44])])) (fun t =>
      t.reg.h == 0x0 && t.reg.l == 0x2002 && t.reg.b == 0x0 && t.reg.c == 0x3 && t.pc == 0x102 &&
      t.reg.f == 0x42) = true := by
  decide

/-- 95 §2.3: TSI.w. -/
theorem test_tsi_w :
    check (step (start [0x1E, 0x08] { bank with a := 0x8000, l := 0x2002, c := 0x3 } [(0x2002, [0x00,
      0x80])])) (fun t =>
      t.reg.h == 0x0 && t.reg.l == 0x2004 && t.reg.b == 0x0 && t.reg.c == 0x2) = true := by
  decide

/-- 95 §2.3: TSD.w. -/
theorem test_tsd_w :
    check (step (start [0x1E, 0x0A] { bank with a := 0xFFFF, l := 0x2002, c := 0x3 } [(0x2000, [0x11, 0x22, 0x33,
      0x44])])) (fun t =>
      t.reg.h == 0x0 && t.reg.l == 0x2000 && t.reg.b == 0x0 && t.reg.c == 0x2) = true := by
  decide

/-- 95 §2.3: TSIR.b, 1 step. -/
theorem test_tsir_b_and_zero :
    check (step { start [0x0E, 0x09] { bank with a := 0x22, l := 0x2000, c := 0x4 } [(0x2000, [0x11, 0x22, 0x33,
      0x44])] with cfg := { Config.Params.recommended with tsxrStop := .andZero } }) (fun t =>
      t.reg.h == 0x0 && t.reg.l == 0x2001 && t.reg.b == 0x0 && t.reg.c == 0x3 && t.pc == 0x102) = true := by
  decide

/-- 95 §2.3: INI.b. -/
theorem test_ini_b :
    check (step { start [0x0E, 0x0C] { bank with l := 0x3000, b := 0x2, c := 0x40, f := 0x81 } [] with
      ioIn := [0x5A] }) (fun t =>
      t.reg.h == 0x0 && t.reg.l == 0x3001 && t.reg.b == 0x1 && t.reg.c == 0x40 && t.pc == 0x102 &&
      bytes t 0x3000 1 == [0x5A] && t.reg.f == 0x83 && t.trace == [.ioRead .byte 0x40 0x5A]) = true := by
  decide

/-- 95 §2.3: INI.w. -/
theorem test_ini_w :
    check (step { start [0x1E, 0x0C] { bank with l := 0x3000, b := 0x3, c := 0xFFFF } [] with ioIn := [0xBEEF] })
      (fun t =>
      t.reg.h == 0x0 && t.reg.l == 0x3002 && t.reg.b == 0x2 && bytes t 0x3000 2 == [0xEF, 0xBE] &&
      t.reg.f == 0x2 && t.trace == [.ioRead .word 0xFFFF 0xBEEF]) = true := by
  decide

/-- 95 §2.3: IND.w. -/
theorem test_ind_w_counter_wraps :
    check (step { start [0x1E, 0x0E] { bank with l := 0x3000, c := 0x40 } [] with ioIn := [0xBEEF] }) (fun t =>
      t.reg.h == 0x0 && t.reg.l == 0x2FFE && t.reg.b == 0xFFFF && bytes t 0x3000 2 == [0xEF, 0xBE] &&
      t.reg.f == 0x2) = true := by
  decide

/-- 95 §2.3: INIR.b, 1 step. -/
theorem test_inir_b_stays :
    check (step { start [0x0E, 0x0D] { bank with l := 0x3000, b := 0x2, c := 0x40 } [] with ioIn := [0x1, 0x2] })
      (fun t =>
      t.reg.h == 0x0 && t.reg.l == 0x3001 && t.reg.b == 0x1 && t.pc == 0x100 && t.reg.f == 0x2) = true := by
  decide

/-- 95 §2.3: OUTI.b. -/
theorem test_outi_b :
    check (step (start [0x0E, 0x10] { bank with l := 0x2000, b := 0x1, c := 0x1234 } [(0x2000, [0x11, 0x22, 0x33,
      0x44])])) (fun t =>
      t.reg.h == 0x0 && t.reg.l == 0x2001 && t.reg.b == 0x0 && t.pc == 0x102 && t.reg.f == 0x42 &&
      t.trace == [.ioWrite .byte 0x1234 0x11]) = true := by
  decide

/-- 95 §2.3: OUTI.w. -/
theorem test_outi_w :
    check (step (start [0x1E, 0x10] { bank with l := 0x2000, b := 0x2, c := 0x40 } [(0x2000, [0x11, 0x22, 0x33,
      0x44])])) (fun t =>
      t.reg.h == 0x0 && t.reg.l == 0x2002 && t.reg.b == 0x1 && t.reg.f == 0x2 &&
      t.trace == [.ioWrite .word 0x40 0x2211]) = true := by
  decide

/-- 95 §2.3: OUTD.w. -/
theorem test_outd_w :
    check (step (start [0x1E, 0x12] { bank with l := 0x2002, b := 0x3, c := 0x40 } [(0x2000, [0x11, 0x22, 0x33,
      0x44])])) (fun t =>
      t.reg.h == 0x0 && t.reg.l == 0x2000 && t.reg.b == 0x2 && t.reg.f == 0x2 &&
      t.trace == [.ioWrite .word 0x40 0x4433]) = true := by
  decide

/-- 95 §2.4: ADD.b B, 0xFF. -/
theorem test_add_byte_wraps :
    check (step (start [0x10, 0xE4, 0xFF] { bank with b := 0x1201 } [])) (fun t =>
      t.reg.b == 0x1200 && t.pc == 0x103 && t.reg.f == 0x51) = true := by
  decide

/-- 95 §2.4: ADD A, B. -/
theorem test_add_overflow_and_carry :
    check (step (start [0x10, 0x21] { bank with a := 0x8000, b := 0x8000 } [])) (fun t =>
      t.reg.a == 0x0 && t.reg.f == 0x45) = true := by
  decide

/-- 95 §2.4: ADD.b (HL), 1. -/
theorem test_add_memory_immediate :
    check (step (start [0x11, 0x7C, 0x01] { bank with l := 0x2000 } [(0x2000, [0xFF])])) (fun t =>
      t.pc == 0x103 && bytes t 0x2000 1 == [0x00] && t.reg.f == 0x51) = true := by
  decide

/-- 95 §2.4: ADD HL, (0x00002000). -/
theorem test_add_from_direct :
    check (step (start [0x91, 0xEE, 0x00, 0x20, 0x00, 0x00] { bank with l := 0x1 }
      [(0x2000, [0xFF, 0xFF, 0xFF, 0xFF])])) (fun t =>
      t.reg.h == 0x0 && t.reg.l == 0x0 && t.pc == 0x106 && t.reg.f == 0x51) = true := by
  decide

/-- 95 §2.4: ADC A, B. -/
theorem test_adc :
    check (step (start [0x14, 0x21] { bank with a := 0xFFFF, b := 0xFFFF, f := 0x1 } [])) (fun t =>
      t.reg.a == 0xFFFF && t.reg.f == 0x91) = true := by
  decide

/-- 95 §2.4: ADC A, B. -/
theorem test_adc_half_carry_from_carry :
    check (step (start [0x14, 0x21] { bank with a := 0xF, f := 0x1 } [])) (fun t =>
      t.reg.a == 0x10 && t.reg.f == 0x10) = true := by
  decide

/-- 95 §2.4: SUB.b A, 1. -/
theorem test_sub_byte_borrow :
    check (step (start [0x18, 0xE0, 0x01] bank [])) (fun t =>
      t.reg.a == 0xFF && t.reg.f == 0x93) = true := by
  decide

/-- 95 §2.4: SUB HL, DE. -/
theorem test_sub_dword :
    check (step (start [0x18, 0x4E] { bank with e := 0x1 } [])) (fun t =>
      t.reg.h == 0xFFFF && t.reg.l == 0xFFFF && t.reg.f == 0x93) = true := by
  decide

/-- 95 §2.4: SUB (HL), A. -/
theorem test_sub_memory :
    check (step (start [0x19, 0x61] { bank with a := 0x1, l := 0x2000 } [(0x2000, [0x00, 0x01])])) (fun t =>
      bytes t 0x2000 2 == [0xFF, 0x00] && t.reg.f == 0x12) = true := by
  decide

/-- 95 §2.4: SBC A, A. -/
theorem test_sbc :
    check (step (start [0x1C, 0x01] { bank with a := 0x1234, f := 0x1 } [])) (fun t =>
      t.reg.a == 0xFFFF && t.reg.f == 0x93) = true := by
  decide

/-- 95 §2.4: SBC A, B. -/
theorem test_sbc_overflow :
    check (step (start [0x1C, 0x21] { bank with a := 0x8000, f := 0x1 } [])) (fun t =>
      t.reg.a == 0x7FFF && t.reg.f == 0x16) = true := by
  decide

/-- 95 §2.4: CP.b A, 0x80. -/
theorem test_cp_byte_overflow :
    check (step (start [0x20, 0xE0, 0x80] { bank with a := 0x7F } [])) (fun t =>
      t.reg.a == 0x7F && t.reg.f == 0x87) = true := by
  decide

/-- 95 §2.4: CP AF, BC. -/
theorem test_cp_reads_af :
    check (step (start [0x20, 0x22] { bank with a := 0x1, b := 0x1 } [])) (fun t =>
      t.reg.a == 0x1 && t.reg.b == 0x1 && t.reg.c == 0x0 && t.reg.f == 0x42) = true := by
  decide

/-- 95 §2.4: CP A, (HL). -/
theorem test_cp_memory :
    check (step (start [0xA1, 0x61] { bank with a := 0x5678, l := 0x2000 } [(0x2000, [0x78, 0x56, 0x34,
      0x12])])) (fun t =>
      t.reg.a == 0x5678 && bytes t 0x2000 2 == [0x78, 0x56] && t.reg.f == 0x42) = true := by
  decide

/-- 95 §2.4: INC.b A. -/
theorem test_inc_byte_keeps_carry :
    check (step (start [0x02, 0x80] { bank with a := 0x12FF, f := 0x1 } [])) (fun t =>
      t.reg.a == 0x1200 && t.reg.f == 0x51) = true := by
  decide

/-- 95 §2.4: INC SP. -/
theorem test_inc_sp_wraps :
    check (step (start [0x02, 0x9A] { bank with sp := 0xFFFFFFFF } [])) (fun t =>
      t.reg.sp == 0x0 && t.reg.f == 0x50) = true := by
  decide

/-- 95 §2.4: INC (0x00004000) word. -/
theorem test_inc_memory_direct :
    check (step (start [0x06, 0xF1, 0x00, 0x40, 0x00, 0x00] bank [(0x4000, [0xFF, 0x00])])) (fun t =>
      t.pc == 0x106 && bytes t 0x4000 2 == [0x00, 0x01] && t.reg.f == 0x10) = true := by
  decide

/-- 95 §2.4: DEC.b A. -/
theorem test_dec_byte_overflow :
    check (step (start [0x02, 0xA0] { bank with a := 0x80 } [])) (fun t =>
      t.reg.a == 0x7F && t.reg.f == 0x16) = true := by
  decide

/-- 95 §2.4: DEC (IY-2) word. -/
theorem test_dec_memory :
    check (step (start [0x06, 0xB5, 0xFE, 0xFF] { bank with iy := 0x2002 } [(0x2000, [0x00, 0x80])])) (fun t =>
      t.pc == 0x104 && bytes t 0x2000 2 == [0xFF, 0x7F] && t.reg.f == 0x16) = true := by
  decide

/-- 95 §2.4: NEG A. -/
theorem test_neg_most_negative :
    check (step (start [0x02, 0xC1] { bank with a := 0x8000 } [])) (fun t =>
      t.reg.a == 0x8000 && t.reg.f == 0x87) = true := by
  decide

/-- 95 §2.4: NEG.b A. -/
theorem test_neg_byte :
    check (step (start [0x02, 0xC0] { bank with a := 0x1210 } [])) (fun t =>
      t.reg.a == 0x12F0 && t.reg.f == 0x83) = true := by
  decide

/-- 95 §2.4: NEG (HL) word. -/
theorem test_neg_memory :
    check (step (start [0x06, 0x79] { bank with l := 0x2000 } [(0x2000, [0x01, 0x00])])) (fun t =>
      bytes t 0x2000 2 == [0xFF, 0xFF] && t.reg.f == 0x93) = true := by
  decide

/-- 95 §2.4: EXT A. -/
theorem test_ext_word :
    check (step (start [0x02, 0xE1] { bank with a := 0x80 } [])) (fun t =>
      t.reg.a == 0xFF80) = true := by
  decide

/-- 95 §2.4: EXT BC. -/
theorem test_ext_dword :
    check (step (start [0x02, 0xE6] { bank with b := 0xFFFF, c := 0x7FFF } [])) (fun t =>
      t.reg.b == 0x0 && t.reg.c == 0x7FFF) = true := by
  decide

/-- 95 §2.4: EXT (HL) word. -/
theorem test_ext_memory :
    check (step (start [0x06, 0x7D] { bank with l := 0x2000 } [(0x2000, [0x80, 0x00])])) (fun t =>
      bytes t 0x2000 2 == [0x80, 0xFF]) = true := by
  decide

/-- 95 §2.4: DAA. -/
theorem test_daa_after_add :
    check (step (start [0x6E, 0x00] { bank with a := 0x9A } [])) (fun t =>
      t.reg.a == 0x0 && t.pc == 0x102 && t.reg.f == 0x55) = true := by
  decide

/-- 95 §2.4: DAA. -/
theorem test_daa_after_subtract :
    check (step (start [0x6E, 0x00] { bank with a := 0xFB, f := 0x12 } [])) (fun t =>
      t.reg.a == 0x95 && t.reg.f == 0x87) = true := by
  decide

/-- 95 §2.4: MLT B. -/
theorem test_mlt :
    check (step (start [0x12, 0x04] { bank with b := 0xFFFF } [])) (fun t =>
      t.reg.b == 0xFE01) = true := by
  decide

/-- 95 §2.4: MLT BC (MLTDIV_SS=target). -/
theorem test_mlt_target_sizes :
    check (step { start [0x12, 0x06] { bank with b := 0x3, c := 0x4 } [] with
      cfg := { Config.Params.recommended with mltDivSS := .target } }) (fun t =>
      t.reg.b == 0x0 && t.reg.c == 0xC) = true := by
  decide

/-- 95 §2.4: MLT (HL). -/
theorem test_mlt_memory :
    check (step (start [0x16, 0x60] { bank with l := 0x2000 } [(0x2000, [0x03, 0x07])])) (fun t =>
      bytes t 0x2000 2 == [0x15, 0x00]) = true := by
  decide

/-- 95 §2.4: DIV B. -/
theorem test_div :
    check (step (start [0x12, 0x24] { bank with b := 0x6407 } [])) (fun t =>
      t.reg.b == 0x20E && t.pc == 0x102) = true := by
  decide

/-- 95 §2.4: DIV (HL). -/
theorem test_div_memory :
    check (step (start [0x16, 0x64] { bank with l := 0x2000 } [(0x2000, [0x07, 0x64])])) (fun t =>
      bytes t 0x2000 2 == [0x0E, 0x02]) = true := by
  decide

/-- 95 §2.4: SDIV B. -/
theorem test_sdiv_negative_dividend :
    check (step (start [0x12, 0x44] { bank with b := 0xF902 } [])) (fun t =>
      t.reg.b == 0xFFFD && t.pc == 0x102) = true := by
  decide

/-- 95 §2.4: SDIV B. -/
theorem test_sdiv_both_negative :
    check (step (start [0x12, 0x44] { bank with b := 0xF9FE } [])) (fun t =>
      t.reg.b == 0xFF03) = true := by
  decide

/-- 95 §2.5: AND.b A, 0x0F. -/
theorem test_and_byte :
    check (step (start [0x24, 0xE0, 0x0F] { bank with a := 0x12F3 } [])) (fun t =>
      t.reg.a == 0x1203 && t.pc == 0x103 && t.reg.f == 0x14) = true := by
  decide

/-- 95 §2.5: AND (HL), A. -/
theorem test_and_memory :
    check (step (start [0x25, 0x61] { bank with a := 0xFF, l := 0x2000 } [(0x2000, [0x78, 0x56, 0x34,
      0x12])])) (fun t =>
      bytes t 0x2000 2 == [0x78, 0x00] && t.reg.f == 0x14) = true := by
  decide

/-- 95 §2.5: OR.b B, 7. -/
theorem test_or_byte :
    check (step (start [0x28, 0xE4, 0x07] { bank with b := 0x7800 } [])) (fun t =>
      t.reg.b == 0x7807 && t.pc == 0x103 && t.reg.f == 0x0) = true := by
  decide

/-- 95 §2.5: OR HL, (HL). -/
theorem test_or_from_memory :
    check (step (start [0xA9, 0x6E] { bank with l := 0x2000 } [(0x2000, [0x78, 0x56, 0x34, 0x12])])) (fun t =>
      t.reg.h == 0x1234 && t.reg.l == 0x7678 && t.reg.f == 0x4) = true := by
  decide

/-- 95 §2.5: XOR.b A, A. -/
theorem test_xor_byte :
    check (step (start [0x2C, 0x00] { bank with a := 0x1234 } [])) (fun t =>
      t.reg.a == 0x1200 && t.reg.f == 0x44) = true := by
  decide

/-- 95 §2.5: XOR A, B. -/
theorem test_xor_odd_parity :
    check (step (start [0x2C, 0x21] { bank with a := 0x1 } [])) (fun t =>
      t.reg.a == 0x1 && t.reg.f == 0x0) = true := by
  decide

/-- 95 §2.5: TST.b A, 0x80. -/
theorem test_tst_byte :
    check (step (start [0x30, 0xE0, 0x80] { bank with a := 0x1280, f := 0x3 } [])) (fun t =>
      t.reg.a == 0x1280 && t.pc == 0x103 && t.reg.f == 0x90) = true := by
  decide

/-- 95 §2.5: TST (HL), A. -/
theorem test_tst_memory_writes_nothing :
    check (step (start [0x31, 0x61] { bank with a := 0xFF, l := 0x2000 } [(0x2000, [0x78, 0x56, 0x34,
      0x12])])) (fun t =>
      t.reg.a == 0xFF && bytes t 0x2000 2 == [0x78, 0x56] && t.reg.f == 0x14) = true := by
  decide

/-- 95 §2.5: CPL.b A. -/
theorem test_cpl_byte :
    check (step (start [0x12, 0x60] { bank with a := 0x1200 } [])) (fun t =>
      t.reg.a == 0x12FF && t.reg.f == 0x96) = true := by
  decide

/-- 95 §2.5: CPL (HL) word. -/
theorem test_cpl_memory :
    check (step (start [0x16, 0x6D] { bank with l := 0x2000 } [(0x2000, [0x78, 0x56, 0x34, 0x12])])) (fun t =>
      bytes t 0x2000 2 == [0x87, 0xA9] && t.reg.f == 0x96) = true := by
  decide

/-- 95 §2.5: BIT 33, HL. -/
theorem test_bit_number_modulo_width :
    check (step (start [0x34, 0xEE, 0x21] { bank with l := 0x2 } [])) (fun t =>
      t.reg.f == 0x10) = true := by
  decide

/-- 95 §2.5: BIT 8, AF. -/
theorem test_bit_of_af :
    check (step (start [0x34, 0xE2, 0x08] { bank with f := 0x100 } [])) (fun t =>
      t.reg.f == 0x110) = true := by
  decide

/-- 95 §2.5: BIT.B 3, (IY+0x100). -/
theorem test_bit_memory :
    check (step (start [0x35, 0xBC, 0x00, 0x01, 0x03] { bank with iy := 0x2000, f := 0x1 }
      [(0x2100, [0x08])])) (fun t =>
      t.pc == 0x105 && bytes t 0x2100 1 == [0x08] && t.reg.f == 0x11) = true := by
  decide

/-- 95 §2.5: SET.b 8, A. -/
theorem test_set_number_modulo_width :
    check (step (start [0x38, 0xE0, 0x08] bank [])) (fun t =>
      t.reg.a == 0x1) = true := by
  decide

/-- 95 §2.5: SET 8, AF. -/
theorem test_set_ie_in_af :
    check (step (start [0x38, 0xE2, 0x08] { bank with f := 0x41 } [])) (fun t =>
      t.reg.f == 0x141 && t.iff2 == true && t.inhibit == true) = true := by
  decide

/-- 95 §2.5: SET 0, (HL) byte. -/
theorem test_set_memory :
    check (step (start [0x39, 0x7C, 0x00] { bank with l := 0x2000 } [(0x2000, [0x80])])) (fun t =>
      t.pc == 0x103 && bytes t 0x2000 1 == [0x81]) = true := by
  decide

/-- 95 §2.5: RES 31, HL. -/
theorem test_res :
    check (step (start [0x3C, 0xEE, 0x1F] { bank with h := 0xFFFF, l := 0xFFFF, f := 0xD7 } [])) (fun t =>
      t.reg.h == 0x7FFF && t.reg.l == 0xFFFF && t.reg.f == 0xD7) = true := by
  decide

/-- 95 §2.5: RES 8, AF. -/
theorem test_res_ie_in_af :
    check (step { start [0x3C, 0xE2, 0x08] { bank with f := 0x141 } [] with iff2 := true }) (fun t =>
      t.reg.f == 0x41 && t.iff2 == false) = true := by
  decide

/-- 95 §2.5: RES 7, (IX+1) byte. -/
theorem test_res_memory :
    check (step (start [0x3D, 0x9C, 0x01, 0x00, 0x07] { bank with ix := 0x1FFF } [(0x2000, [0xFF])])) (fun t =>
      t.pc == 0x105 && bytes t 0x2000 1 == [0x7F]) = true := by
  decide

/-- 95 §2.5: RLC.b 0, A. -/
theorem test_rlc_zero_count_keeps_carry :
    check (step (start [0x40, 0xE0, 0x00] { bank with a := 0x1281, f := 0x1 } [])) (fun t =>
      t.reg.a == 0x1281 && t.reg.f == 0x85) = true := by
  decide

/-- 95 §2.5: RLC.b 9, A. -/
theorem test_rlc_byte_nine :
    check (step (start [0x40, 0xE0, 0x09] { bank with a := 0x1281, f := 0x1 } [])) (fun t =>
      t.reg.a == 0x1203 && t.reg.f == 0x5) = true := by
  decide

/-- 95 §2.5: RLC.b B, (HL). -/
theorem test_rlc_memory :
    check (step (start [0x41, 0x64] { bank with b := 0x2, l := 0x2000 } [(0x2000, [0xC0])])) (fun t =>
      bytes t 0x2000 1 == [0x03] && t.reg.f == 0x5) = true := by
  decide

/-- 95 §2.5: RRC.b 9, A. -/
theorem test_rrc_byte_nine :
    check (step (start [0x44, 0xE0, 0x09] { bank with a := 0x1281, f := 0x1 } [])) (fun t =>
      t.reg.a == 0x12C0 && t.reg.f == 0x85) = true := by
  decide

/-- 95 §2.5: RRC 1, DE. -/
theorem test_rrc_dword :
    check (step (start [0x44, 0xEA, 0x01] { bank with e := 0x1 } [])) (fun t =>
      t.reg.d == 0x8000 && t.reg.e == 0x0 && t.reg.f == 0x81) = true := by
  decide

/-- 95 §2.5: RL.b 8, A. -/
theorem test_rl_byte_eight :
    check (step (start [0x48, 0xE0, 0x08] { bank with a := 0x1281 } [])) (fun t =>
      t.reg.a == 0x1240 && t.reg.f == 0x1) = true := by
  decide

/-- 95 §2.5: RL 1, HL. -/
theorem test_rl_dword :
    check (step (start [0x48, 0xEE, 0x01] { bank with h := 0x8000 } [])) (fun t =>
      t.reg.h == 0x0 && t.reg.l == 0x0 && t.reg.f == 0x45) = true := by
  decide

/-- 95 §2.5: RR.b 8, A. -/
theorem test_rr_byte_eight :
    check (step (start [0x4C, 0xE0, 0x08] { bank with a := 0x1281 } [])) (fun t =>
      t.reg.a == 0x1202 && t.reg.f == 0x1) = true := by
  decide

/-- 95 §2.5: SLA.b 9, A. -/
theorem test_sla_byte_nine :
    check (step (start [0x50, 0xE0, 0x09] { bank with a := 0x1281, f := 0x1 } [])) (fun t =>
      t.reg.a == 0x1200 && t.reg.f == 0x44) = true := by
  decide

/-- 95 §2.5: SLA C, A. -/
theorem test_sla_count_register :
    check (step (start [0x50, 0x41] { bank with c := 0x3, a := 0x1 } [])) (fun t =>
      t.reg.c == 0x3 && t.reg.a == 0x8 && t.pc == 0x102 && t.reg.f == 0x0) = true := by
  decide

/-- 95 §2.5: SRA.b 9, A. -/
theorem test_sra_byte_nine :
    check (step (start [0x54, 0xE0, 0x09] { bank with a := 0x1281, f := 0x1 } [])) (fun t =>
      t.reg.a == 0x12FF && t.reg.f == 0x85) = true := by
  decide

/-- 95 §2.5: SRA 31, HL. -/
theorem test_sra_dword :
    check (step (start [0x54, 0xEE, 0x1F] { bank with h := 0x8000 } [])) (fun t =>
      t.reg.h == 0xFFFF && t.reg.l == 0xFFFF && t.reg.f == 0x84) = true := by
  decide

/-- 95 §2.5: SRL.b 8, A. -/
theorem test_srl_byte_eight :
    check (step (start [0x58, 0xE0, 0x08] { bank with a := 0x1281 } [])) (fun t =>
      t.reg.a == 0x1200 && t.reg.f == 0x45) = true := by
  decide

/-- 95 §2.5: SRL 1, (HL) word. -/
theorem test_srl_memory :
    check (step (start [0x59, 0x7D, 0x01] { bank with l := 0x2000 } [(0x2000, [0x01, 0x80])])) (fun t =>
      t.pc == 0x103 && bytes t 0x2000 2 == [0x00, 0x40] && t.reg.f == 0x1) = true := by
  decide

/-- 95 §2.5: RLD. -/
theorem test_rld :
    check (step (start [0x6E, 0x01] { bank with a := 0x127A, l := 0x2000, f := 0x1 } [(0x2000, [0x31])])) (fun t =>
      t.reg.a == 0x1273 && t.pc == 0x102 && bytes t 0x2000 1 == [0x1A] && t.reg.f == 0x1) = true := by
  decide

/-- 95 §2.5: RRD. -/
theorem test_rrd :
    check (step (start [0x6E, 0x02] { bank with a := 0x1284, l := 0x2000, f := 0x1 } [(0x2000, [0x20])])) (fun t =>
      t.reg.a == 0x1280 && t.pc == 0x102 && bytes t 0x2000 1 == [0x42] && t.reg.f == 0x81) = true := by
  decide

/-- 95 §2.6: NOP. -/
theorem test_nop :
    check (step (start [0x0F] { bank with f := 0xD7 } [])) (fun t =>
      t.reg.f == 0xD7 && t.pc == 0x101) = true := by
  decide

/-- 95 §2.6: JP (HL). -/
theorem test_jp_register :
    check (step (start [0x0A, 0x7E] { bank with h := 0xDEAD, l := 0xBEEF } [])) (fun t =>
      t.pc == 0xDEADBEEF) = true := by
  decide

/-- 95 §2.6: JP P, IX. -/
theorem test_jp_not_taken :
    check (step (start [0x0A, 0x8C] { bank with f := 0x80, ix := 0x4000 } [])) (fun t =>
      t.pc == 0x102) = true := by
  decide

/-- 95 §2.6: JR -128. -/
theorem test_jr_backwards :
    check (step (start [0x1A, 0xFE, 0x80] bank [])) (fun t =>
      t.pc == 0x83) = true := by
  decide

/-- 95 §2.6: JR -3 (REL_BASE=self). -/
theorem test_jr_base_self :
    check (step { start [0x1A, 0xFE, 0xFD] bank [] with
      cfg := { Config.Params.recommended with relBase := .self } }) (fun t =>
      t.pc == 0xFD) = true := by
  decide

/-- 95 §2.6: JR -32768 (s16). -/
theorem test_jr16_wraps :
    check (step (start [0x2A, 0xFE, 0x00, 0x80] bank [])) (fun t =>
      t.pc == 0xFFFF8104) = true := by
  decide

/-- 95 §2.6: JR B (s16). -/
theorem test_jr16_register :
    check (step (start [0x2A, 0x3E] { bank with b := 0xFFFE } [])) (fun t =>
      t.pc == 0x100) = true := by
  decide

/-- 95 §2.6: CALL NZ, 0x00002000. -/
theorem test_call_not_taken :
    check (step (start [0x4A, 0xE0, 0x00, 0x20, 0x00, 0x00] { bank with f := 0x40 } [])) (fun t =>
      t.reg.sp == 0x1000 && t.pc == 0x106) = true := by
  decide

/-- 95 §2.6: CALL SP. -/
theorem test_call_sp :
    check (step (start [0x4A, 0xDE] bank [])) (fun t =>
      t.reg.sp == 0xFFC && t.pc == 0x1000 && bytes t 0xFFC 4 == [0x02, 0x01, 0x00, 0x00]) = true := by
  decide

/-- 95 §2.6: CALLR +0x10 (s8). -/
theorem test_callr :
    check (step (start [0x5A, 0xFE, 0x10] bank [])) (fun t =>
      t.reg.sp == 0xFFC && t.pc == 0x113 && bytes t 0xFFC 4 == [0x03, 0x01, 0x00, 0x00]) = true := by
  decide

/-- 95 §2.6: CALLR -0x100 (s16). -/
theorem test_callr16 :
    check (step (start [0x6A, 0xFE, 0x00, 0xFF] bank [])) (fun t =>
      t.reg.sp == 0xFFC && t.pc == 0x4 && bytes t 0xFFC 4 == [0x04, 0x01, 0x00, 0x00]) = true := by
  decide

/-- 95 §2.6: RET. -/
theorem test_ret :
    check (step (start [0x8A, 0x1E] { bank with sp := 0xFFC } [(0xFFC, [0x78, 0x56, 0x34, 0x12])])) (fun t =>
      t.reg.sp == 0x1000 && t.pc == 0x12345678) = true := by
  decide

/-- 95 §2.6: RET C. -/
theorem test_ret_not_taken :
    check (step (start [0x8A, 0x06] { bank with sp := 0xFFC } [(0xFFC, [0x78, 0x56, 0x34, 0x12])])) (fun t =>
      t.reg.sp == 0xFFC && t.pc == 0x102) = true := by
  decide

/-- 95 §2.6: RETI. -/
theorem test_reti :
    check (step (start [0x9A, 0x1E] { bank with sp := 0xFFC } [(0xFFC, [0x78, 0x56, 0x34, 0x12])])) (fun t =>
      t.reg.sp == 0x1000 && t.reg.f == 0x100 && t.pc == 0x12345678 && t.iff2 == true &&
      t.inhibit == true) = true := by
  decide

/-- 95 §2.6: RETI (RET_ENABLE_DELAY=no). -/
theorem test_reti_without_delay :
    check (step { start [0x9A, 0x1E] { bank with sp := 0xFFC } [(0xFFC, [0x78, 0x56, 0x34, 0x12])] with
      cfg := { Config.Params.recommended with retEnableDelay := false } }) (fun t =>
      t.reg.f == 0x100 && t.pc == 0x12345678 && t.iff2 == true && t.inhibit == false) = true := by
  decide

/-- 95 §2.6: RETN. -/
theorem test_retn :
    check (step { start [0xAA, 0x1E] { bank with sp := 0xFFC } [(0xFFC, [0x78, 0x56, 0x34, 0x12])] with
      iff2 := true }) (fun t =>
      t.reg.sp == 0x1000 && t.reg.f == 0x100 && t.pc == 0x12345678 && t.iff2 == true &&
      t.inhibit == true) = true := by
  decide

/-- 95 §2.6: RETN. -/
theorem test_retn_clears :
    check (step (start [0xAA, 0x1E] { bank with sp := 0xFFC, f := 0x100 } [(0xFFC, [0x78, 0x56, 0x34,
      0x12])])) (fun t =>
      t.reg.f == 0x0 && t.pc == 0x12345678 && t.iff2 == false && t.inhibit == false) = true := by
  decide

/-- 95 §2.6: RST 0xFF. -/
theorem test_rst :
    check (step { start [0x5E, 0x00, 0xFF] bank [(0x103FC, [0x44, 0x33, 0x22, 0x11])] with ivb := 0x40 }) (fun t =>
      t.reg.sp == 0xFFC && t.pc == 0x11223344) = true := by
  decide

/-- 95 §2.6: RST 1. -/
theorem test_rst_vector_wraps :
    check (step { start [0x5E, 0x00, 0x01] bank [(0xFFFC04, [0x00, 0x60, 0x00, 0x00])] with ivb := 0x3FFFFF })
      (fun t =>
      t.pc == 0x6000) = true := by
  decide

/-- 95 §2.6: DJNZ -2. -/
theorem test_djnz_taken :
    check (step (start [0x1F, 0xFE] { bank with b := 0x2, f := 0xD7 } [])) (fun t =>
      t.reg.b == 0x1 && t.reg.f == 0xD7 && t.pc == 0x100) = true := by
  decide

/-- 95 §2.6: DJNZ +5. -/
theorem test_djnz_wraps :
    check (step (start [0x1F, 0x05] bank [])) (fun t =>
      t.reg.b == 0xFFFF && t.pc == 0x107) = true := by
  decide

/-- 95 §2.6: JANZ +5. -/
theorem test_janz_tests_whole_a :
    check (step (start [0x2F, 0x05] { bank with a := 0x100, f := 0xD7 } [])) (fun t =>
      t.reg.a == 0x100 && t.reg.f == 0xD7 && t.pc == 0x107) = true := by
  decide

/-- 95 §2.6: SCF. -/
theorem test_scf :
    check (step (start [0x5E, 0x01] { bank with f := 0x12 } [])) (fun t =>
      t.reg.f == 0x1 && t.pc == 0x102) = true := by
  decide

/-- 95 §2.6: CCF. -/
theorem test_ccf :
    check (step (start [0x5E, 0x02] { bank with f := 0x1 } [])) (fun t =>
      t.reg.f == 0x10 && t.pc == 0x102) = true := by
  decide

/-- 95 §2.7: HALT. -/
theorem test_halt :
    check (step (start [0x8E, 0x00] { bank with f := 0x100 } [])) (fun t =>
      t.reg.f == 0x100 && t.pc == 0x102 && t.halted == true) = true := by
  decide

/-- 95 §2.7: EI. -/
theorem test_ei :
    check (step (start [0x8E, 0x01] bank [])) (fun t =>
      t.reg.f == 0x100 && t.iff2 == true && t.inhibit == true && t.pc == 0x102) = true := by
  decide

/-- 95 §2.7: DI. -/
theorem test_di :
    check (step { start [0x8E, 0x02] { bank with f := 0x1C5 } [] with iff2 := true }) (fun t =>
      t.reg.f == 0xC5 && t.iff2 == false && t.inhibit == false && t.pc == 0x102) = true := by
  decide

/-- 95 §2.7: IM 1. -/
theorem test_im1 :
    check (step { start [0x8E, 0x05] bank [] with im := .im2 }) (fun t =>
      t.im == .im1 && t.pc == 0x102) = true := by
  decide

/-- 95 §2.7: IM 2. -/
theorem test_im2 :
    check (step (start [0x8E, 0x06] bank [])) (fun t =>
      t.im == .im2 && t.pc == 0x102) = true := by
  decide

/-- 95 §2.7: LD I, 0x1234. -/
theorem test_ld_i_zero_extends :
    check (step { start [0x8E, 0x07, 0x34, 0x12] bank [] with ivb := 0x3FFFFF }) (fun t =>
      t.ivb == 0x1234 && t.pc == 0x104) = true := by
  decide

/-- 95 §2.7: LD R, A. -/
theorem test_ld_r_a :
    check (step (start [0x8E, 0x08] { bank with a := 0xBEEF, f := 0xD7 } [])) (fun t =>
      t.reg.f == 0xD7 && t.r == 0xBEEF && t.pc == 0x102) = true := by
  decide

/-- 95 §2.7: LD A, R. -/
theorem test_ld_a_r_keeps_flags :
    check (step { start [0x8E, 0x09] { bank with f := 0xD7 } [] with r := 0x42 }) (fun t =>
      t.reg.f == 0xD7 && t.pc == 0x102) = true := by
  decide

/-- 95 §2.8: NOP. -/
theorem test_int_mode_1 :
    check (step { start [0x0F] { bank with f := 0x1C5 } [(0x4, [0x00, 0x20, 0x00, 0x00]), (0x8, [0x00, 0x30, 0x00,
      0x00])] with iff2 := true, pins := [{ Pins.quiet with int := true }] }) (fun t =>
      t.reg.sp == 0xFFC && t.reg.f == 0xC5 && t.pc == 0x2000 && t.iff2 == false && bytes t 0xFFC 4 == [0x01, 0x01,
      0x00, 0x00]) = true := by
  decide

/-- 95 §2.8: NOP. -/
theorem test_int_mode_2 :
    check (step { start [0x0F] { bank with f := 0x100 } [(0x4, [0x00, 0x20, 0x00, 0x00]), (0x8, [0x00, 0x30, 0x00,
      0x00]), (0x500, [0x00, 0x60, 0x00, 0x00])] with
      im := .im2, ivb := 0x1, iff2 := true, pins := [{ Pins.quiet with int := true, vector := 0x40 }] }) (fun t =>
      t.reg.sp == 0xFFC && t.reg.f == 0x0 && t.pc == 0x6000 && t.iff2 == false && bytes t 0xFFC 4 == [0x01, 0x01,
      0x00, 0x00]) = true := by
  decide

/-- 95 §2.8: EI (1 step). -/
theorem test_int_after_ei_waits :
    check (step { start [0x8E, 0x01, 0x0F] bank [(0x4, [0x00, 0x20, 0x00, 0x00]), (0x8, [0x00, 0x30, 0x00,
      0x00])] with pins := [{ Pins.quiet with int := true }] }) (fun t =>
      t.reg.sp == 0x1000 && t.reg.f == 0x100 && t.pc == 0x102 && t.iff2 == true && t.inhibit == true) = true := by
  decide

/-- 95 §2.8: NOP. -/
theorem test_nmi :
    check (step { start [0x0F] { bank with f := 0x1C5 } [(0x4, [0x00, 0x20, 0x00, 0x00]), (0x8, [0x00, 0x30, 0x00,
      0x00])] with nmiPending := true }) (fun t =>
      t.reg.sp == 0xFFC && t.reg.f == 0xC5 && t.pc == 0x3000 && t.iff2 == true && t.nmiPending == false &&
      bytes t 0xFFC 4 == [0x01, 0x01, 0x00, 0x00]) = true := by
  decide

/-- 95 §2.8: NOP. -/
theorem test_nmi_before_int :
    check (step { start [0x0F] { bank with f := 0x100 } [(0x4, [0x00, 0x20, 0x00, 0x00]), (0x8, [0x00, 0x30, 0x00,
      0x00])] with nmiPending := true, iff2 := true, pins := [{ Pins.quiet with int := true }] }) (fun t =>
      t.reg.sp == 0xFFC && t.reg.f == 0x0 && t.pc == 0x3000 && t.iff2 == true && t.nmiPending == false &&
      bytes t 0xFFC 4 == [0x01, 0x01, 0x00, 0x00]) = true := by
  decide

/-- 95 §2.8: HALT. -/
theorem test_int_ends_halt :
    check (step { start [0x8E, 0x00] { bank with f := 0x100 } [(0x4, [0x00, 0x20, 0x00, 0x00]), (0x8, [0x00, 0x30,
      0x00, 0x00])] with iff2 := true, pins := [{ Pins.quiet with int := true }] }) (fun t =>
      t.reg.sp == 0xFFC && t.reg.f == 0x0 && t.pc == 0x2000 && t.halted == false && bytes t 0xFFC 4 == [0x02, 0x01,
      0x00, 0x00]) = true := by
  decide

/-- 95 §2.8: LDIR.b (1 step). -/
theorem test_int_between_iterations :
    check (step { start [0x0E, 0x01] { bank with f := 0x100, l := 0x2000, e := 0x3000, c := 0x3 } [(0x4, [0x00,
      0x20, 0x00, 0x00]), (0x8, [0x00, 0x30, 0x00, 0x00]), (0x2000, [0x11, 0x22, 0x33, 0x44])] with
      iff2 := true, pins := [{ Pins.quiet with int := true }] }) (fun t =>
      t.reg.h == 0x0 && t.reg.l == 0x2001 && t.reg.d == 0x0 && t.reg.e == 0x3001 && t.reg.b == 0x0 &&
      t.reg.c == 0x2 && t.pc == 0x2000 && bytes t 0xFFC 4 == [0x00, 0x01, 0x00, 0x00] &&
      bytes t 0x3000 1 == [0x11]) = true := by
  decide

/-- R24, U9; 95 §2.4: ADD AF, BC. -/
theorem test_add_af_refused :
    refusesAF (step (start [0x10, 0x22] bank [])) = true := by
  decide

/-- R24, U9; 95 §2.5: SLA 1, AF. -/
theorem test_sla_af_refused :
    refusesAF (step (start [0x50, 0xE2, 0x01] bank [])) = true := by
  decide

/-- R173 by hand: one iteration of the word form moves the pointers by 2 and stays. -/
theorem test_ldir_w :
    check (step (start [0x1E, 0x01] { bank with l := 0x2000, e := 0x3000, c := 2 } [(0x2000, [0x11, 0x22])])) (fun t =>
      t.reg.l == 0x2002 && t.reg.e == 0x3002 && t.reg.c == 1 && t.reg.f == 4 && t.pc == 0x100 &&
      bytes t 0x3000 2 == [0x11, 0x22]) = true := by
  decide

/-- R175 by hand: the last iteration, the pointers wrapping below 0. -/
theorem test_lddr_ends :
    check (step (start [0x0E, 0x03] { bank with e := 0x3000, c := 1 } [(0, [0x77])])) (fun t =>
      t.reg.h == 0xFFFF && t.reg.l == 0xFFFF && t.reg.e == 0x2FFF && t.reg.f == 0 && t.pc == 0x102 &&
      bytes t 0x3000 1 == [0x77]) = true ∧
    check (step (start [0x1E, 0x03] { bank with l := 0x2002, e := 0x3002, c := 2 } [(0x2002, [0x33, 0x44])])) (fun t =>
      t.reg.l == 0x2000 && t.reg.e == 0x3000 && t.reg.c == 1 && t.pc == 0x100 && bytes t 0x3002 2 == [0x33, 0x44]) = true := by
  decide

/-- R187, R190, R191 by hand: one iteration of each repeating transfer that 95 shows only over two. -/
theorem test_repeating_transfers :
    check (step { start [0x0E, 0x0F] { bank with b := 2, c := 0x40, l := 0x3001 } [] with ioIn := [1, 2] }) (fun t =>
      t.reg.l == 0x3000 && t.reg.b == 1 && t.pc == 0x100 && bytes t 0x3001 1 == [0x01] && t.ioIn == [2]) = true ∧
    check (step (start [0x0E, 0x11] { bank with b := 1, c := 0x40, l := 0x2000 } [(0x2000, [0x11])])) (fun t =>
      t.reg.l == 0x2001 && t.reg.f == 0x42 && t.pc == 0x102 && t.trace == [.ioWrite .byte 0x40 0x11]) = true ∧
    check (step (start [0x1E, 0x13] { bank with b := 2, c := 0x40, l := 0x2002 } [(0x2002, [0x33, 0x44])])) (fun t =>
      t.reg.l == 0x2000 && t.reg.f == 2 && t.pc == 0x100 && t.trace == [.ioWrite .word 0x40 0x4433]) = true := by
  decide

/-- R62, R63, R71 by hand: a store into ROM changes nothing, one into a peripheral is an event. -/
theorem test_store_by_region :
    check (step { start [0x01, 0x61] { bank with l := 0x2000, a := 0xBEEF } [] with
      cfg := { Config.Params.recommended with regions := [⟨0x2000, 1, .rom⟩, ⟨0x2001, 1, .device⟩] } }) (fun t =>
      t.mem == (poke ⟨[]⟩ 0x100 [0x01, 0x61]) && t.trace == [.memWrite 0x2001 0xBE]) = true := by
  decide

/-- R28, R61 by hand: a fetch goes on from the last logical address, physical 0xFFFFFF, at address 0 (DJNZ +5). -/
theorem test_fetch_wraps :
    check (step { start [] { bank with b := 2 } [(0xFFFFFF, [0x1F, 0x05])] with pc := 0xFFFFFFFF }) (fun t =>
      t.pc == 6 && t.reg.b == 1) = true := by
  decide

/-! ## Witnesses: a state and operands that meet the hypotheses of each statement that has some -/

/-- A state with every kind of region, IFF1 and IFF2 set, and 0 < SP. -/
def mixed : State :=
  { start [0x0F] { bank with f := 0x01D7, a := 0x7FFF } [] with
    iff2 := true
    cfg := { Config.Params.recommended with
      regions := [⟨0x4000, 2, .rom⟩, ⟨0x4002, 1, .device⟩, ⟨0x4003, 1, .empty⟩] } }

/-- `State.Inv` of it. -/
theorem test_witness_Inv : mixed.Inv :=
  { memory := by decide, reserved := by decide, enabled := by decide, inhibited := by decide, waiting := by decide
    base := by decide }

theorem test_witness_StepKeepsInvariant : mixed.Inv ∧ ∃ t, step mixed = .next t :=
  ⟨test_witness_Inv, let ⟨t, h, _⟩ := next_of_check (p := fun _ => true) (o := step mixed) (by decide); ⟨t, h⟩⟩

theorem test_witness_ResetStateHoldsStatedValues : 0 < 4 ∧ 3 < 4 := by decide

theorem test_witness_ResetSequenceLoadsVector : mixed.kindAt 0x4000 = .rom ∧ mixed.kindAt 0x4001 = .rom := by decide

/-- The first and the last byte of a fetch, and a state whose bytes decode. -/
theorem test_witness_StepRunsDecodedInstruction :
    0 < 10 ∧ 9 < 10 ∧
    mixed.halted = false ∧ decode mixed.cfg.mltDivSS mixed.fetchBytes = .ok (.nop, List.replicate 9 0#8) :=
  ⟨by decide, by decide, rfl, rfl⟩

theorem test_witness_StepRunsEncodedInstruction :
    mixed.halted = false ∧ Instr.wf mixed.cfg.mltDivSS .nop = true ∧ encode .nop <+: mixed.fetchBytes := by
  refine ⟨rfl, rfl, ⟨List.replicate 9 0#8, rfl⟩⟩

theorem test_witness_StepWithoutInstruction :
    (start [0x3F] bank []).halted = false ∧
    decode .half (start [0x3F] bank []).fetchBytes = .error .unassignedSingleByte ∧
    State.halted { mixed with halted := true } = true :=
  ⟨rfl, rfl, rfl⟩

/-- With the script at its end a latched NMI is still taken (R322): PC from vector 2. -/
theorem test_sample_latched_nmi_without_script :
    (let s : State := { start [] bank [(8, [0x00, 0x30])] with nmiPending := true }
     decide (s.pins = []) && s.sample.pc == 0x3000 && !s.sample.nmiPending) = true := by
  decide

theorem test_witness_StepKeepsParametersAndCounts : ∃ t, step mixed = .next t :=
  test_witness_StepKeepsInvariant.2

/-- One next state for each clause, in which the register of the clause changes. -/
theorem test_witness_AlternatesAndSystemRegistersHaveListedWriters :
    check (exec .exx mixed) (fun t => t.alt == mixed.alt) = true ∧
    check (exec .exi mixed) (fun t => t.alt != mixed.alt) = true ∧
    check (exec (.ldI 1) mixed) (fun t => t.ivb != mixed.ivb) = true ∧
    check (exec .ldRA mixed) (fun t => t.r != mixed.r) = true ∧
    check (exec .im2 mixed) (fun t => t.im != mixed.im) = true ∧
    check (exec .halt mixed) (fun t => t.halted != mixed.halted) = true := by
  decide

theorem test_witness_InterruptEnableHasListedWriters :
    check (exec .di mixed) (fun t => t.iff1 != mixed.iff1 && t.iff2 != mixed.iff2) = true ∧
    check (exec .ei (start [] bank [])) (fun t => t.inhibit != (start [] bank []).inhibit) = true := by
  decide

theorem test_witness_EveryInstructionCompletes :
    Instr.wf mixed.cfg.mltDivSS (.sdivR .word .r6) = true ∧
    writesAFByArithmetic mixed.cfg.mltDivSS (.sdivR .word .r6) = false := by
  decide

theorem test_witness_UndefinedFormsStop :
    writesAFByArithmetic .half (.mltR .word .r0) = true ∧ writesAFByArithmetic .half (.addR .dword .r0 (.reg .r1)) = true ∧
    writesAFByArithmetic .target (.divR .dword .r0) = true ∧
    Size.mltDivLegal .half .dword = false ∧ Size.mltDivLegal .target .byte = false := by
  decide

theorem test_witness_DecodeOfEncode :
    Instr.wf .half (.ldM .dword (.direct 0xFFFFFFFF) (.toMem (.imm 0xFFFFFFFF))) = true ∧
    Instr.wf .target (.mltM .dword (.idx .sp 0xFFFF)) = true := by
  decide

theorem test_witness_DecodedBytesAreTheEncoding :
    decode .target ([0x16, 0xC2, 0xFF, 0xFF] ++ [0x0F]) = .ok (.mltM .dword (.idx .sp 0xFFFF), [0x0F]) := rfl

/-- A dword store up to the last byte of the address space, a load at 0 after it. -/
theorem test_witness_StoreLeavesOtherLoads :
    ∀ i, i < sizeBytes .dword → ∀ j, j < sizeBytes .dword → cellAt 0#32 i ≠ cellAt 0xFFFFFFFC#32 j := by
  decide

/-- The last byte of each size, and each kind of region. -/
theorem test_witness_LoadReadsLittleEndian :
    0 < sizeBytes .byte ∧ 1 < sizeBytes .word ∧ 3 < sizeBytes .dword ∧ mixed.kindAt (cellAt 0x3FFE#32 0) = .ram ∧
    mixed.kindAt (cellAt 0x3FFE#32 3) = .rom ∧ mixed.kindAt (cellAt 0x3FFF#32 3) = .device ∧
    mixed.kindAt (cellAt 0x4000#32 3) = .empty := by
  decide

/-- An access across the end of the address space. -/
theorem test_witness_StoreThenLoadGivesValue :
    mixed.mem.wf = true ∧ ∀ j, j < sizeBytes .dword → mixed.kindAt (cellAt 0xFFFFFFFE#32 j) = .ram := by
  decide

theorem test_witness_SizedRegisterViews :
    (RegField.r1, RegField.r1, RegField.r2) ∈
      [(RegField.r1, RegField.r1, RegField.r2), (.r2, .r3, .r4), (.r3, .r5, .r6)] ∧
    (RegField.r3, RegField.r5, RegField.r6) ∈
      [(RegField.r1, RegField.r1, RegField.r2), (.r2, .r3, .r4), (.r3, .r5, .r6)] := by
  decide

theorem test_witness_ConditionsReadFlags : 8 ≤ 8 ∧ 8 ≤ 14 ∧ 8 ≤ 14 ∧ 14 ≤ 14 := by decide

/-- SP = 0: the push wraps around. -/
theorem test_witness_PopReadsWhatWasPushed :
    (start [] Bank.zero []).mem.wf = true ∧
    ∀ k, k < 4 → (start [] Bank.zero []).kindAt (cellAt ((start [] Bank.zero []).reg.sp - 4) k) = .ram := by
  decide

theorem test_witness_ShiftClosedForms : 0 < 1 ∧ 0 < 32 := by decide

/-- What `Stored`, `Pushed` and the memory frames ask of the state: canonical memory, the written bytes in RAM. -/
theorem test_witness_Stored :
    mixed.mem.wf = true ∧ ∀ k, k < sizeBytes .word → mixed.kindAt (cellAt 0x3FFE#32 k) = .ram := by
  decide

/-- What `RegWritten` and `FWritten` ask: a register other than AF; AF with bit 8 written as 1 from IFF1 = 0, and as 0. -/
theorem test_witness_RegWritten :
    (Size.dword = .dword → RegField.r6 ≠ .r0) ∧ (0x0100#16).getLsbD 8 = true ∧ (start [] bank []).iff1 = false ∧
    (0x00FF#16).getLsbD 8 = false := by
  decide

theorem test_witness_LoadCopies :
    check (exec (.ldR .dword .r6 (.imm 5)) mixed) (fun t => t.reg.sp == 5) = true ∧
    check (exec (.ldR .dword .r0 (.imm 5)) mixed) (fun t => t.reg.f == 5) = true := by
  decide

theorem test_witness_ExchangeSwaps :
    (Size.dword = .dword → RegField.r1 ≠ .r0 ∧ RegField.r6 ≠ .r0) ∧
    check (exec (.exR .dword .r1 .r6) mixed) (fun t => t.reg.c == 0x1000) = true := by
  decide

theorem test_witness_ExchangeWithAlternate :
    RegField.r6 ≠ .r0 ∧ check (exec (.exAlt .dword .r6) mixed) (fun t => t.alt.sp == 0x1000) = true := by
  decide

theorem test_witness_ExxAndExiSwapTheirRegisters : ∃ t, exec .exx mixed = .next t := ⟨_, rfl⟩

/-- The bit indices of the widest operand. -/
theorem test_witness_ExchangeHalves : 0 < Size.dword.bits ∧ 31 < Size.dword.bits := by decide

theorem test_witness_PushAndPop :
    check (exec (.pop .sp) (start [] bank [(0x1000, [0x00, 0x20])])) (fun t => t.reg.sp == 0x2000) = true ∧
    check (exec (.pop .af) (start [] bank [(0x1000, [0x00, 0x01])])) (fun t => t.iff2) = true := by
  decide

theorem test_witness_InputAndOutputOfAPort :
    check (exec (.inR .word .r0 (.imm 1)) { mixed with ioIn := [0xBEEF] }) (fun t => t.reg.a == 0xBEEF) = true := by
  decide

theorem test_witness_AddAndAddWithCarry :
    (Size.dword = .dword → RegField.r6 ≠ .r0) ∧
    check (exec (.adcR .dword .r6 (.imm 1)) mixed) (fun t => t.reg.sp == 0x1002) = true := by
  decide

theorem test_witness_SubtractAndSubtractWithCarry :
    (Size.dword = .dword → RegField.r6 ≠ .r0) ∧
    check (exec (.sbcR .dword .r6 (.imm 1)) mixed) (fun t => t.reg.sp == 0xFFE) = true := by
  decide

theorem test_witness_IncrementDecrementNegate :
    (Size.dword = .dword → RegField.r6 ≠ .r0) ∧ (Size.byte = .dword → RegField.r0 ≠ .r0) ∧
    check (exec (.incR .byte .r0) mixed) (fun t => t.reg.a == 0x7F00) = true := by
  decide

theorem test_witness_SignExtendHalf :
    (WSize.dword = .dword → RegField.r6 ≠ .r0) ∧ (WSize.word = .dword → RegField.r0 ≠ .r0) ∧
    check (exec (.extR .word .r0) mixed) (fun t => t.reg.a == 0xFFFF) = true := by
  decide

/-- Both values of the parameter. -/
theorem test_witness_Multiply :
    mltDivTarget .half .word = some .dword ∧ mltDivTarget .target .dword = some .dword ∧
    mltDivTarget mixed.cfg.mltDivSS .byte = some .word ∧ (WSize.word = .dword → RegField.r0 ≠ .r0) ∧
    check (exec (.mltR .byte .r0) mixed) (fun t => t.reg.a == 0x7E81) = true := by
  decide

/-- The lower half not 0. -/
theorem test_witness_DivideUnsigned :
    mltDivTarget mixed.cfg.mltDivSS .byte = some .word ∧
    (mixed.getReg .word .r0).toNat % 2 ^ (WSize.word.size.bits / 2) ≠ 0 ∧
    check (exec (.divR .byte .r0) mixed) (fun t => t.reg.a == 0x7F00) = true := by
  decide

/-- The lower half not 0, the quotient in range; and the two operands where it is not. -/
theorem test_witness_DivideSigned :
    mltDivTarget mixed.cfg.mltDivSS .byte = some .word ∧ (0xFF#8).toInt ≠ 0 ∧
    ¬((0x7F#8).toInt = -2 ^ (8 - 1) ∧ (0xFF#8).toInt = -1) ∧ (0x80#8).toInt = -2 ^ (8 - 1) ∧ (0x00#8).toInt = 0 ∧
    check (exec (.sdivR .byte .r0) mixed) (fun t => t.reg.a == 0x0081) = true := by
  decide

theorem test_witness_LogicalOperations :
    (Size.dword = .dword → RegField.r6 ≠ .r0) ∧
    check (exec (.andR .dword .r6 (.imm 0xFFFF1FFF)) mixed) (fun t => t.reg.sp == 0x1000) = true := by
  decide

theorem test_witness_Complement :
    (Size.dword = .dword → RegField.r6 ≠ .r0) ∧
    check (exec (.cplR .dword .r6) mixed) (fun t => t.reg.sp == 0xFFFFEFFF) = true := by
  decide

/-- The bit indices of the widest operand, the bit and its neighbours. -/
theorem test_witness_SetAndResetBit :
    31 < Size.dword.bits ∧ 0 < Size.byte.bits ∧
    check (exec (.setR .dword .r6 (.imm 31)) mixed) (fun t => t.reg.sp == 0x80001000) = true := by
  decide

theorem test_witness_ShiftsAndRotates :
    (Size.dword = .dword → RegField.r6 ≠ .r0) ∧ (Size.word = .dword → RegField.r0 ≠ .r0) ∧
    check (exec (.rlR .dword .r6 (.imm 1)) mixed) (fun t => t.reg.sp == 0x2001) = true := by
  decide

theorem test_witness_NoOperation :
    mixed.halted = false ∧ mixed.fetchBytes = 0x0F#8 :: List.replicate 9 0#8 ∧ (encode .nop).length = 1 :=
  ⟨rfl, rfl, rfl⟩

/-- The condition taken and not taken. -/
theorem test_witness_Calls : mixed.cond .z = true ∧ mixed.cond .nz = false := by decide

/-- Not taken, taken; RETI and RETN from IFF1 = 0 with the delay, and without it, IFF2 1 and 0. -/
theorem test_witness_ReturnsFromSubroutinesAndHandlers :
    mixed.cond .nz = false ∧ mixed.cond .always = true ∧
    (let s : State := { start [] bank [] with iff2 := true }
     s.cfg.retEnableDelay = true ∧ s.iff2 = true ∧ s.iff1 = false) ∧
    (let s : State := { mixed with cfg := { mixed.cfg with retEnableDelay := false } }
     s.cfg.retEnableDelay = false) ∧
    (start [] bank []).iff2 = false := by
  decide

theorem test_witness_HaltEnableAndSystemRegisters : (start [] bank []).iff1 = false := by decide

end Sys2Proof.Tests
end

section
/-! PROOFS. The decoder reads every well-formed encoding back, whatever bytes follow (R90, R92, R100): one lemma per
operand layout, from the field lemmas of `Laws/Codec.lean`, then one line per instruction. -/

namespace Sys2Proof

/-! ## The register-field codes fit their three bits -/

theorem RegField.code_lt_eight (r : RegField) : r.code < 8 := by have := r.code_lt; omega

theorem Src.code_lt (x : Src) : x.code < 8 := by
  cases x with
  | reg r => exact r.code_lt_eight
  | imm _ => exact Nat.lt_succ_self 7

theorem Count.code_lt (x : Count) : x.code < 8 := by
  cases x with
  | reg r => exact r.code_lt_eight
  | imm _ => exact Nat.lt_succ_self 7

theorem Reg16.code_lt (r : Reg16) : r.code < 8 := by cases r <;> decide

theorem Reg32.code_lt (r : Reg32) : r.code < 8 := by cases r <;> decide

theorem Port.code_lt (x : Port) : x.code < 8 := by
  cases x with
  | reg r => exact r.code_lt
  | imm _ => exact Nat.lt_succ_self 7

theorem Target.code_lt (x : Target) : x.code < 8 := by
  cases x with
  | reg r => exact r.code_lt
  | direct _ => exact Nat.lt_succ_self 7

theorem Disp8.code_lt (x : Disp8) : x.code < 8 := by
  cases x with
  | reg r => exact r.code_lt
  | imm _ => exact Nat.lt_succ_self 7

theorem Disp16.code_lt (x : Disp16) : x.code < 8 := by
  cases x with
  | reg r => exact r.code_lt
  | imm _ => exact Nat.lt_succ_self 7

/-! ## Formats R and RM -/

/-- Format R with a source of the operand's width (R104). -/
theorem decode_encodeR_src (m : Config.MltDivSS) {op : Nat} (hop : op < 64) {f : Size → RegField → Src → Instr}
    (hf : ∀ b1 tl, decodeR op b1 tl = decodeRSrc f b1 tl) {ss : Size} {d : RegField} {src : Src}
    (hfit : src.fits ss = true) (rest : List Byte) :
    decode m (encodeR op src.code d.code ss (src.bytes ss) ++ rest) = .ok (f ss d src, rest) := by
  obtain ⟨hss, hd, hsrc⟩ := byte1_fields _ src.code_lt _ d.code_lt_eight ss
  rw [encodeR_append, decode_encodeR m hop, hf]
  simp only [decodeRSrc, hss, hd, hsrc, decodeSize_code, decodeReg_code, decodeSrc_bytes hfit, Except.ok_bind]
  rfl

/-- Format R with a bit number or count (R120). -/
theorem decode_encodeR_count (m : Config.MltDivSS) {op : Nat} (hop : op < 64) {f : Size → RegField → Count → Instr}
    (hf : ∀ b1 tl, decodeR op b1 tl = decodeRCount f b1 tl) (ss : Size) (d : RegField) (n : Count)
    (rest : List Byte) :
    decode m (encodeR op n.code d.code ss n.bytes ++ rest) = .ok (f ss d n, rest) := by
  obtain ⟨hss, hd, hn⟩ := byte1_fields _ n.code_lt _ d.code_lt_eight ss
  rw [encodeR_append, decode_encodeR m hop, hf]
  simp only [decodeRCount, hss, hd, hn, decodeSize_code, decodeReg_code, decodeCount_bytes, Except.ok_bind]
  rfl

theorem decode_encode_exR (m : Config.MltDivSS) (ss : Size) (d r : RegField) (rest : List Byte) :
    decode m (encode (.exR ss d r) ++ rest) = .ok (.exR ss d r, rest) := by
  obtain ⟨hss, hd, hr⟩ := byte1_fields _ r.code_lt_eight _ d.code_lt_eight ss
  rw [encode, encodeR_append, decode_encodeR m (by decide)]
  simp only [decodeR, hss, hd, hr, decodeSize_code, decodeReg_code, Except.ok_bind]
  rfl

theorem decode_encode_inR (m : Config.MltDivSS) (z : NSize) (d : RegField) (port : Port) (rest : List Byte) :
    decode m (encode (.inR z d port) ++ rest) = .ok (.inR z d port, rest) := by
  obtain ⟨hss, hd, hport⟩ := byte1_fields _ port.code_lt _ d.code_lt_eight z.size
  rw [encode, encodeR_append, decode_encodeR m (by decide)]
  simp only [decodeR, hss, hd, hport, decodeNSize_code, decodeReg_code, decodePort_bytes, Except.ok_bind]
  rfl

theorem decode_encode_outR (m : Config.MltDivSS) (z : NSize) (port : Port) (r : RegField) (rest : List Byte) :
    decode m (encode (.outR z port r) ++ rest) = .ok (.outR z port r, rest) := by
  obtain ⟨hss, hport, hr⟩ := byte1_fields _ r.code_lt_eight _ port.code_lt z.size
  rw [encode, encodeR_append, decode_encodeR m (by decide)]
  simp only [decodeR, hss, hport, hr, decodeNSize_code, decodeReg_code, decodePort_bytes, Except.ok_bind]
  rfl

/-- Format RM with a source of the operand's width, in both directions (R107). -/
theorem decode_encodeMSrc (m : Config.MltDivSS) {op : Nat} (hop : op < 32) {f : Size → Addr → MemForm → Instr}
    (hf : ∀ d b1 tl, decodeRM op d b1 tl = decodeMSrc f d b1 tl) {ss : Size} {ea : Addr} {form : MemForm}
    (hfit : form.fits ss = true) (rest : List Byte) :
    decode m (encodeMSrc op ss ea form ++ rest) = .ok (f ss ea form, rest) := by
  cases form with
  | toMem src =>
    obtain ⟨hss, hsrc, hea⟩ := byte1_fields _ ea.code_lt _ src.code_lt ss
    rw [encodeMSrc, encodeRM_append, decode_encodeRM m hop, hf]
    simp only [decodeMSrc, decodeMemForm, hss, hsrc, hea, decodeSize_code, decodeAddr_bytes, decodeSrc_bytes hfit,
      Except.ok_bind]
    rfl
  | toReg d =>
    obtain ⟨hss, hd, hea⟩ := byte1_fields _ ea.code_lt _ d.code_lt_eight ss
    rw [encodeMSrc, encodeRM_append, decode_encodeRM m hop, hf]
    simp only [decodeMSrc, decodeMemForm, hss, hd, hea, decodeSize_code, decodeAddr_bytes, decodeReg_code,
      Except.ok_bind]
    rfl

/-- Format RM with a bit number or count, in both directions (R236). -/
theorem decode_encodeMCount (m : Config.MltDivSS) {op : Nat} (hop : op < 32) {f : Size → Addr → CountForm → Instr}
    (hf : ∀ d b1 tl, decodeRM op d b1 tl = decodeMCount f d b1 tl) (ss : Size) (ea : Addr) (form : CountForm)
    (rest : List Byte) :
    decode m (encodeMCount op ss ea form ++ rest) = .ok (f ss ea form, rest) := by
  cases form with
  | onMem n =>
    obtain ⟨hss, hn, hea⟩ := byte1_fields _ ea.code_lt _ n.code_lt ss
    rw [encodeMCount, encodeRM_append, decode_encodeRM m hop, hf]
    simp only [decodeMCount, decodeCountForm, hss, hn, hea, decodeSize_code, decodeAddr_bytes, decodeCount_bytes,
      Except.ok_bind]
    rfl
  | onReg d =>
    obtain ⟨hss, hd, hea⟩ := byte1_fields _ ea.code_lt _ d.code_lt_eight ss
    rw [encodeMCount, encodeRM_append, decode_encodeRM m hop, hf]
    simp only [decodeMCount, decodeCountForm, hss, hd, hea, decodeSize_code, decodeAddr_bytes, decodeReg_code,
      Except.ok_bind]
    rfl

theorem decode_encode_exM (m : Config.MltDivSS) (ss : Size) (ea : IndAddr) (r : RegField) (d : Bool)
    (rest : List Byte) :
    decode m (encode (.exM ss ea r d) ++ rest) = .ok (.exM ss ea r d, rest) := by
  obtain ⟨hss, hr, hea⟩ := byte1_fields _ ea.addr.code_lt _ r.code_lt_eight ss
  rw [encode, encodeRM_append, decode_encodeRM m (by decide)]
  simp only [decodeRM, hss, hr, hea, decodeSize_code, decodeReg_code, decodeIndAddr_bytes, Except.ok_bind]
  rfl

/-! ## Formats UR and UM -/

/-- Format UR of any of the three sizes (R110). -/
theorem decode_encodeUR_sized (m : Config.MltDivSS) {op fn : Nat} (hop : op < 16) (hfn : fn < 8)
    {f : Size → RegField → Instr}
    (hf : ∀ b1 tl, bitField b1 5 3 = fn → decodeUR m op b1 tl = decodeURSized f b1 tl)
    (ss : Size) (r : RegField) (rest : List Byte) :
    decode m (encodeUR op fn r.code ss [] ++ rest) = .ok (f ss r, rest) := by
  obtain ⟨hss, hr, hfield⟩ := byte1_fields _ hfn _ r.code_lt_eight ss
  rw [encodeUR_append, decode_encodeUR m hop, hf _ _ hfield]
  simp only [decodeURSized, hss, hr, decodeSize_code, decodeReg_code, Except.ok_bind]
  rfl

/-- Format UR of word or dword size (R122). -/
theorem decode_encodeUR_wide (m : Config.MltDivSS) {op fn : Nat} (hop : op < 16) (hfn : fn < 8)
    {f : WSize → RegField → Instr}
    (hf : ∀ b1 tl, bitField b1 5 3 = fn → decodeUR m op b1 tl = decodeURWide f b1 tl)
    (z : WSize) (r : RegField) (rest : List Byte) :
    decode m (encodeUR op fn r.code z.size [] ++ rest) = .ok (f z r, rest) := by
  obtain ⟨hss, hr, hfield⟩ := byte1_fields _ hfn _ r.code_lt_eight z.size
  rw [encodeUR_append, decode_encodeUR m hop, hf _ _ hfield]
  simp only [decodeURWide, hss, hr, decodeWSize_code, decodeReg_code, Except.ok_bind]
  rfl

/-- MLT, DIV and SDIV of a register, at a size that `MLTDIV_SS` lists (R123). -/
theorem decode_encodeUR_mltDiv (m : Config.MltDivSS) {op fn : Nat} (hop : op < 16) (hfn : fn < 8)
    {f : Size → RegField → Instr}
    (hf : ∀ b1 tl, bitField b1 5 3 = fn → decodeUR m op b1 tl = decodeURMltDiv m f b1 tl)
    {ss : Size} (hlegal : ss.mltDivLegal m = true) (r : RegField) (rest : List Byte) :
    decode m (encodeUR op fn r.code ss [] ++ rest) = .ok (f ss r, rest) := by
  obtain ⟨hss, hr, hfield⟩ := byte1_fields _ hfn _ r.code_lt_eight ss
  rw [encodeUR_append, decode_encodeUR m hop, hf _ _ hfield]
  simp only [decodeURMltDiv, hss, hr, decodeMltDivSize_code hlegal, decodeReg_code, Except.ok_bind]
  rfl

theorem decode_encode_push (m : Config.MltDivSS) {ss : Size} {src : Src} (hfit : src.fits ss = true)
    (rest : List Byte) :
    decode m (encode (.push ss src) ++ rest) = .ok (.push ss src, rest) := by
  obtain ⟨hss, hsrc, hfield⟩ := byte1_fields 2 (by decide) _ src.code_lt ss
  rw [encode, encodeUR_append, decode_encodeUR m (by decide)]
  simp only [decodeUR, hfield, hss, hsrc, decodeSize_code, decodeSrc_bytes hfit, Except.ok_bind]
  rfl

/-- Format UM with every addressing mode (R112). -/
theorem decode_encodeUM_sized (m : Config.MltDivSS) {op fn : Nat} (hop : op < 16) (hfn : fn < 8)
    {f : Size → Addr → Instr}
    (hf : ∀ b1 tl, bitField b1 2 3 = fn → decodeUM m op b1 tl = decodeUMSized f b1 tl)
    (ss : Size) (ea : Addr) (rest : List Byte) :
    decode m (encodeUM op fn ea ss ++ rest) = .ok (f ss ea, rest) := by
  obtain ⟨hss, hfield, hea⟩ := byte1_fields _ ea.code_lt _ hfn ss
  rw [decode_encodeUM m hop, hf _ _ hfield]
  simp only [decodeUMSized, hss, hea, decodeSize_code, decodeAddr_bytes, Except.ok_bind]
  rfl

/-- MLT, DIV and SDIV of a memory cell, at a size that `MLTDIV_SS` lists (R112, R123). -/
theorem decode_encodeUM_mltDiv (m : Config.MltDivSS) {op fn : Nat} (hop : op < 16) (hfn : fn < 8)
    {f : Size → IndAddr → Instr}
    (hf : ∀ b1 tl, bitField b1 2 3 = fn → decodeUM m op b1 tl = decodeUMMltDiv m f b1 tl)
    {ss : Size} (hlegal : ss.mltDivLegal m = true) (ea : IndAddr) (rest : List Byte) :
    decode m (encodeUM op fn ea.addr ss ++ rest) = .ok (f ss ea, rest) := by
  obtain ⟨hss, hfield, hea⟩ := byte1_fields _ ea.addr.code_lt _ hfn ss
  rw [decode_encodeUM m hop, hf _ _ hfield]
  simp only [decodeUMMltDiv, hss, hea, decodeMltDivSize_code hlegal, decodeIndAddr_bytes, Except.ok_bind]
  rfl

theorem decode_encode_exhM (m : Config.MltDivSS) (ss : Size) (ea : IndAddr) (rest : List Byte) :
    decode m (encode (.exhM ss ea) ++ rest) = .ok (.exhM ss ea, rest) := by
  obtain ⟨hss, hfield, hea⟩ := byte1_fields _ ea.addr.code_lt 1 (by decide) ss
  rw [encode, decode_encodeUM m (by decide)]
  simp only [decodeUM, hfield, hss, hea, decodeSize_code, decodeIndAddr_bytes, Except.ok_bind]
  rfl

theorem decode_encode_extM (m : Config.MltDivSS) (z : WSize) (ea : IndAddr) (rest : List Byte) :
    decode m (encode (.extM z ea) ++ rest) = .ok (.extM z ea, rest) := by
  obtain ⟨hss, hfield, hea⟩ := byte1_fields _ ea.addr.code_lt 7 (by decide) z.size
  rw [encode, decode_encodeUM m (by decide)]
  simp only [decodeUM, hfield, hss, hea, decodeWSize_code, decodeIndAddr_bytes, Except.ok_bind]
  rfl

/-! ## Format B -/

/-- JP and CALL (R115). -/
theorem decode_encodeB_target (m : Config.MltDivSS) {op : Nat} (hop : op < 16) {f : Cond → Target → Instr}
    (hf : ∀ b1 tl, bitField b1 0 1 = 0 → decodeB op b1 tl = decodeBTarget f b1 tl)
    (cc : Cond) (t : Target) (rest : List Byte) :
    decode m (encodeB op t.code cc t.bytes ++ rest) = .ok (f cc t, rest) := by
  obtain ⟨hzero, hcc, ht⟩ := branchByte_fields _ t.code_lt cc
  rw [encodeB_append, decode_encodeB m hop, hf _ _ hzero]
  simp only [decodeBTarget, hcc, ht, decodeCond_code, decodeTarget_bytes, Except.ok_bind]
  rfl

/-- JR s8 and CALLR s8 (R115). -/
theorem decode_encodeB_disp8 (m : Config.MltDivSS) {op : Nat} (hop : op < 16) {f : Cond → Disp8 → Instr}
    (hf : ∀ b1 tl, bitField b1 0 1 = 0 → decodeB op b1 tl = decodeBDisp8 f b1 tl)
    (cc : Cond) (e : Disp8) (rest : List Byte) :
    decode m (encodeB op e.code cc e.bytes ++ rest) = .ok (f cc e, rest) := by
  obtain ⟨hzero, hcc, he⟩ := branchByte_fields _ e.code_lt cc
  rw [encodeB_append, decode_encodeB m hop, hf _ _ hzero]
  simp only [decodeBDisp8, hcc, he, decodeCond_code, decodeDisp8_bytes, Except.ok_bind]
  rfl

/-- JR s16 and CALLR s16 (R115). -/
theorem decode_encodeB_disp16 (m : Config.MltDivSS) {op : Nat} (hop : op < 16) {f : Cond → Disp16 → Instr}
    (hf : ∀ b1 tl, bitField b1 0 1 = 0 → decodeB op b1 tl = decodeBDisp16 f b1 tl)
    (cc : Cond) (e : Disp16) (rest : List Byte) :
    decode m (encodeB op e.code cc e.bytes ++ rest) = .ok (f cc e, rest) := by
  obtain ⟨hzero, hcc, he⟩ := branchByte_fields _ e.code_lt cc
  rw [encodeB_append, decode_encodeB m hop, hf _ _ hzero]
  simp only [decodeBDisp16, hcc, he, decodeCond_code, decodeDisp16_bytes, Except.ok_bind]
  rfl

/-- RET, RETI and RETN (R115). -/
theorem decode_encodeB_return (m : Config.MltDivSS) {op : Nat} (hop : op < 16) {f : Cond → Instr}
    (hf : ∀ b1 tl, bitField b1 0 1 = 0 → decodeB op b1 tl = decodeBReturn f b1 tl) (cc : Cond) (rest : List Byte) :
    decode m (encodeB op 0 cc [] ++ rest) = .ok (f cc, rest) := by
  obtain ⟨hzero, hcc, hret⟩ := branchByte_fields 0 (by decide) cc
  rw [encodeB_append, decode_encodeB m hop, hf _ _ hzero]
  simp only [decodeBReturn, decodeReturn, hcc, hret, decodeCond_code, Except.ok_bind, if_true]
  rfl

/-! ## LD I, the one instruction of format N with a word after it -/

theorem decodeN_ldI (tl : List Byte) :
    decodeN 8 (BitVec.ofNat 8 7) tl = (take16 tl >>= fun (nn, tl) => .ok (.ldI nn, tl)) := rfl

theorem decode_encode_ldI (m : Config.MltDivSS) (nn : Word) (rest : List Byte) :
    decode m (encode (.ldI nn) ++ rest) = .ok (.ldI nn, rest) := by
  rw [encode, encodeN_append, decode_encodeN m (by decide), decodeN_ldI, take16_bytes16, Except.ok_bind]

/-! ## Every instruction -/

/-- A well-formed instruction is read back from its encoding, and the bytes after it are left over (R90, R100). The rest
of format N and the single-byte format spell at most one whole byte of operand, so there the decoder evaluates. -/
theorem decode_encode {m : Config.MltDivSS} {i : Instr} (h : i.wf m = true) (rest : List Byte) :
    decode m (encode i ++ rest) = .ok (i, rest) := by
  cases i with
  | ldR ss d src | addR ss d src | adcR ss d src | subR ss d src | sbcR ss d src | cpR ss d src | andR ss d src
  | orR ss d src | xorR ss d src | tstR ss d src =>
    exact decode_encodeR_src m (by decide) (fun _ _ => rfl) h rest
  | exR ss d r => exact decode_encode_exR m ss d r rest
  | inR z d port => exact decode_encode_inR m z d port rest
  | outR z port r => exact decode_encode_outR m z port r rest
  | bitR ss d n | setR ss d n | resR ss d n | rlcR ss d n | rrcR ss d n | rlR ss d n | rrR ss d n | slaR ss d n
  | sraR ss d n | srlR ss d n => exact decode_encodeR_count m (by decide) (fun _ _ => rfl) ss d n rest
  | ldM ss ea f | addM ss ea f | adcM ss ea f | subM ss ea f | sbcM ss ea f | cpM ss ea f | andM ss ea f
  | orM ss ea f | xorM ss ea f | tstM ss ea f =>
    exact decode_encodeMSrc m (by decide) (fun _ _ _ => rfl) h rest
  | exM ss ea r d => exact decode_encode_exM m ss ea r d rest
  | bitM ss ea f | setM ss ea f | resM ss ea f | rlcM ss ea f | rrcM ss ea f | rlM ss ea f | rrM ss ea f
  | slaM ss ea f | sraM ss ea f | srlM ss ea f =>
    exact decode_encodeMCount m (by decide) (fun _ _ _ => rfl) ss ea f rest
  | exAlt z r | extR z r =>
    exact decode_encodeUR_wide m (by decide) (by decide) (fun _ _ hfn => by simp only [decodeUR, hfn]) z r rest
  | exhR ss r | incR ss r | decR ss r | negR ss r | cplR ss r =>
    exact decode_encodeUR_sized m (by decide) (by decide) (fun _ _ hfn => by simp only [decodeUR, hfn]) ss r rest
  | push ss src => exact decode_encode_push m h rest
  | pop r => cases r <;> rfl
  | mltR ss r | divR ss r | sdivR ss r =>
    exact decode_encodeUR_mltDiv m (by decide) (by decide) (fun _ _ hfn => by simp only [decodeUR, hfn]) h r rest
  | exhM ss ea => exact decode_encode_exhM m ss ea rest
  | incM ss ea | decM ss ea | negM ss ea | cplM ss ea =>
    exact decode_encodeUM_sized m (by decide) (by decide) (fun _ _ hfn => by simp only [decodeUM, hfn]) ss ea rest
  | extM z ea => exact decode_encode_extM m z ea rest
  | mltM ss ea | divM ss ea | sdivM ss ea =>
    exact decode_encodeUM_mltDiv m (by decide) (by decide) (fun _ _ hfn => by simp only [decodeUM, hfn]) h ea rest
  | jp cc t | call cc t =>
    exact decode_encodeB_target m (by decide) (fun _ _ hz => by simp only [decodeB, hz]) cc t rest
  | jrS8 cc e | callrS8 cc e =>
    exact decode_encodeB_disp8 m (by decide) (fun _ _ hz => by simp only [decodeB, hz]) cc e rest
  | jrS16 cc e | callrS16 cc e =>
    exact decode_encodeB_disp16 m (by decide) (fun _ _ hz => by simp only [decodeB, hz]) cc e rest
  | ret cc | reti cc | retn cc =>
    exact decode_encodeB_return m (by decide) (fun _ _ hz => by simp only [decodeB, hz]) cc rest
  | ldI nn => exact decode_encode_ldI m nn rest
  | _ => rfl

end Sys2Proof
end

section
/-! PROOFS. What a byte read sees by region, what a step can be, the halves and the sized views of registers, the stack,
and the parts of the state that no instruction writes: each said once, for the statements settled below. -/

namespace Sys2Proof.Machine

/-! ## Byte reads by region -/

/-- A fetched or loaded byte in RAM is memory's (R62, R71). -/
theorem State.readByte_ram {s : State} {a : Dword} {k : Nat} (h : s.kindAt (cellAt a k) = .ram)
    (access : Config.Access) : s.readByte access (a + BitVec.ofNat 32 k) = s.mem.read (cellAt a k) := by
  rw [State.readByte, phys_add, h]

theorem State.readByte_rom {s : State} {a : Dword} {k : Nat} (h : s.kindAt (cellAt a k) = .rom)
    (access : Config.Access) : s.readByte access (a + BitVec.ofNat 32 k) = s.mem.read (cellAt a k) := by
  rw [State.readByte, phys_add, h]

/-- A peripheral answers with a free value (R71, log 13). -/
theorem State.readByte_device {s : State} {a : Dword} {k : Nat} (h : s.kindAt (cellAt a k) = .device)
    (access : Config.Access) :
    s.readByte access (a + BitVec.ofNat 32 k) = Config.deviceByte s.tick access (cellAt a k) := by
  rw [State.readByte, phys_add, h]

/-- Where nothing stands the bus gives a free value (U18, log 14). -/
theorem State.readByte_empty {s : State} {a : Dword} {k : Nat} (h : s.kindAt (cellAt a k) = .empty)
    (access : Config.Access) :
    s.readByte access (a + BitVec.ofNat 32 k) = Config.openBus s.tick access (cellAt a k) := by
  rw [State.readByte, phys_add, h]

/-! ## What a step can be -/

theorem step_of_halted {s : State} (h : s.halted = true) : step s = .next s.wait.sample := by
  rw [step, if_pos h]

theorem step_of_decode {s : State} {i : Instr} {rest : List Byte} (hrun : s.halted = false)
    (hdec : decode s.cfg.mltDivSS s.fetchBytes = .ok (i, rest)) :
    step s = sampled (exec i (s.enter (10 - rest.length))) := by
  rw [step, if_neg (by simp [hrun]), hdec, State.fetchBytes_length]

theorem step_of_decode_error {s : State} {why : Illegal} (hrun : s.halted = false)
    (hdec : decode s.cfg.mltDivSS s.fetchBytes = .error why) : step s = .fault (.illegal why) := by
  rw [step, if_neg (by simp [hrun]), hdec]

/-- Everything a step that goes on can have been: a wait, or an instruction that answered a state; then the sampling
point. -/
theorem step_next_cases {s t : State} (h : step s = .next t) :
    (s.halted = true ∧ t = s.wait.sample) ∨
    ∃ i rest u, s.halted = false ∧ decode s.cfg.mltDivSS s.fetchBytes = .ok (i, rest) ∧
      exec i (s.enter (10 - rest.length)) = .next u ∧ t = u.sample := by
  cases hrun : s.halted with
  | true =>
    rw [step_of_halted hrun] at h
    cases h
    exact .inl ⟨rfl, rfl⟩
  | false =>
    cases hdec : decode s.cfg.mltDivSS s.fetchBytes with
    | error why =>
      rw [step_of_decode_error hrun hdec] at h
      cases h
    | ok p =>
      obtain ⟨i, rest⟩ := p
      rw [step_of_decode hrun hdec] at h
      cases hex : exec i (s.enter (10 - rest.length)) with
      | next u =>
        rw [hex, sampled] at h
        cases h
        exact .inr ⟨i, rest, u, rfl, rfl, hex, rfl⟩
      | fault r => rw [hex, sampled] at h; cases h
      | refused r => rw [hex, sampled] at h; cases h

/-! ## Halves of words and dwords -/

theorem append_toNat (hi lo : Word) : (hi ++ lo : Dword).toNat = hi.toNat * 65536 + lo.toNat := by
  rw [BitVec.toNat_append, ← Nat.shiftLeft_add_eq_or_of_lt lo.isLt, Nat.shiftLeft_eq]

theorem hiWord_toNat (v : Dword) : (hiWord v).toNat = v.toNat / 65536 := by
  have := v.isLt
  rw [hiWord, BitVec.extractLsb'_toNat, Nat.shiftRight_eq_div_pow]
  omega

theorem loWord_toNat (v : Dword) : (loWord v).toNat = v.toNat % 65536 := BitVec.toNat_setWidth ..

theorem withLowByte_toNat (w : Word) (v : Byte) : (withLowByte w v).toNat = w.toNat / 256 * 256 + v.toNat := by
  have := w.isLt
  rw [withLowByte, BitVec.toNat_append, ← Nat.shiftLeft_add_eq_or_of_lt v.isLt, Nat.shiftLeft_eq,
    BitVec.extractLsb'_toNat, Nat.shiftRight_eq_div_pow]
  omega

/-- F's mask on the low word is the mask 0xFFFF01D7 on the pair (R31, D13). -/
theorem hiWord_append_masked (v : Dword) : hiWord v ++ (loWord v &&& 0x01D7#16) = v &&& 0xFFFF01D7#32 := by
  have hmask : (0xFFFF01D7#32 : Dword) = BitVec.allOnes 16 ++ 0x01D7#16 := rfl
  conv => rhs; rw [← hiWord_append_loWord v, hmask, BitVec.and_append, BitVec.and_allOnes]

theorem loWord_getLsbD (v : Dword) {i : Nat} (h : i < 16) : (loWord v).getLsbD i = v.getLsbD i := by
  simp [loWord, h]

/-! ## Sized views of the registers -/

/-- The three pairs of general registers: the field of the pair at dword size, and the fields of its high and low
register at word size (R23, R96). -/
def pairFields : List (RegField × RegField × RegField) := [(.r1, .r1, .r2), (.r2, .r3, .r4), (.r3, .r5, .r6)]

theorem pairFields_ne {d hi lo : RegField} (h : (d, hi, lo) ∈ pairFields) : d ≠ .r0 ∧ lo ≠ hi := by
  simp only [pairFields, List.mem_cons, Prod.mk.injEq, List.not_mem_nil, or_false] at h
  rcases h with ⟨rfl, rfl, rfl⟩ | ⟨rfl, rfl, rfl⟩ | ⟨rfl, rfl, rfl⟩ <;> decide

/-- A pair is its high register above its low one (R23). -/
theorem State.getReg_pair {d hi lo : RegField} (h : (d, hi, lo) ∈ pairFields) (s : State) :
    s.getReg .dword d = (s.getReg .word hi ++ s.getReg .word lo : Dword) := by
  simp only [pairFields, List.mem_cons, Prod.mk.injEq, List.not_mem_nil, or_false] at h
  rcases h with ⟨rfl, rfl, rfl⟩ | ⟨rfl, rfl, rfl⟩ | ⟨rfl, rfl, rfl⟩ <;> rfl

/-- A dword write of a pair puts its halves into the two registers. -/
theorem State.setReg_pair {d hi lo : RegField} (h : (d, hi, lo) ∈ pairFields) (s : State) (v : Dword) :
    (s.setReg .dword d v).getReg .word hi = hiWord v ∧ (s.setReg .dword d v).getReg .word lo = loWord v := by
  have hv : (s.setReg .dword d v).getReg .dword d = v :=
    State.getReg_setReg s (ss := .dword) (fun _ => (pairFields_ne h).1) v
  rw [State.getReg_pair h] at hv
  constructor
  · rw [← hiWord_append (State.getReg _ .word hi) (State.getReg _ .word lo), hv]
  · rw [← loWord_append (State.getReg _ .word hi) (State.getReg _ .word lo), hv]

/-- A word write of the high register of a pair shows in the pair. -/
theorem State.getReg_pair_setReg_hi {d hi lo : RegField} (h : (d, hi, lo) ∈ pairFields) (s : State) (w : Word) :
    (s.setReg .word hi w).getReg .dword d = (w ++ s.getReg .word lo : Dword) := by
  rw [State.getReg_pair h, State.getReg_setReg _ (by simp), State.getReg_setReg_other _ (by simp) (pairFields_ne h).2]

/-- A word write of the low register of a pair shows in the pair. -/
theorem State.getReg_pair_setReg_lo {d hi lo : RegField} (h : (d, hi, lo) ∈ pairFields) (s : State) (w : Word) :
    (s.setReg .word lo w).getReg .dword d = (s.getReg .word hi ++ w : Dword) := by
  rw [State.getReg_pair h, State.getReg_setReg _ (by simp),
    State.getReg_setReg_other _ (by simp) (pairFields_ne h).2.symm]

/-- A byte write keeps the upper byte of the register (R10, R21). -/
theorem State.getReg_word_setReg_byte (s : State) (d : RegField) (v : Byte) :
    (s.setReg .byte d v).getReg .word d = withLowByte (s.getReg .word d) v := by
  simp [State.getReg, State.setReg, State.get16, State.set16]

/-- AF reads back with F masked (R34, R140 (b)). -/
theorem State.getReg_setReg_af (s : State) (v : Dword) :
    (s.setReg .dword .r0 v).getReg .dword .r0 = v &&& 0xFFFF01D7#32 := by
  rw [← hiWord_append_masked, State.setReg, State.set32_af]
  rfl

theorem State.setReg_af_iff2 (s : State) (v : Dword) : (s.setReg .dword .r0 v).iff2 = v.getLsbD 8 := by
  rw [State.setReg, State.set32_af]
  exact loWord_getLsbD v (by decide)

/-! ## The stack -/

theorem State.dropStack_push32_reg (s : State) (v : Dword) : (s.push32 v).dropStack.reg = s.reg := by
  simp [State.dropStack]

theorem State.stackTop_push32 {s : State} (hwf : s.mem.wf = true) (v : Dword)
    (hram : ∀ k, k < 4 → s.kindAt (cellAt (s.reg.sp - 4) k) = .ram) : (s.push32 v).stackTop = v := by
  have hpush := s.push32_pushed v
  refine eq_of_byteOf (ss := .dword) fun k hk => ?_
  have hram' : (s.push32 v).kindAt (cellAt (s.reg.sp - 4) k) = .ram := by
    rw [State.kindAt, State.push32_cfg]
    exact hram k hk
  rw [State.stackTop, State.byteOf_load _ _ _ _ hk, State.push32_reg, State.readByte_ram hram']
  exact hpush.stored.written hwf k hk (hram k hk)

/-! ## The parts no instruction writes -/

/-- The parameters with the memory map, the step counter and the pin samples are unchanged. -/
structure SameSetting (s t : State) : Prop where
  cfg : t.cfg = s.cfg
  tick : t.tick = s.tick
  pins : t.pins = s.pins

theorem SameSetting.refl (s : State) : SameSetting s s := ⟨rfl, rfl, rfl⟩

/-- An outcome keeps the setting when it is a next state. -/
def KeepsSetting (s : State) (r : Result) : Prop := ∀ t, r = .next t → SameSetting s t

theorem keepsSetting_next {s t : State} (h : SameSetting s t) : KeepsSetting s (.next t) := by
  rintro _ ⟨⟩
  exact h

/-! ### Operations over the state -/

theorem sameSetting_setReg_setFlags (s : State) (ss : Size) (d : RegField) (v : BitVec ss.bits) (fl : Flags) :
    SameSetting s ((s.setReg ss d v).setFlags fl) := ⟨by simp, by simp, by simp⟩

theorem sameSetting_store_setFlags (s : State) (ss : Size) (a : Dword) (v : BitVec ss.bits) (fl : Flags) :
    SameSetting s ((s.store ss a v).setFlags fl) := ⟨by simp, by simp, by simp⟩

theorem sameSetting_set16 (s : State) (r : Reg16) (v : Word) : SameSetting s (s.set16 r v) := ⟨rfl, rfl, rfl⟩

theorem sameSetting_setFlags (s : State) (fl : Flags) : SameSetting s (s.setFlags fl) := ⟨rfl, rfl, rfl⟩

theorem sameSetting_setReg (s : State) (ss : Size) (d : RegField) (v : BitVec ss.bits) :
    SameSetting s (s.setReg ss d v) := ⟨by simp, by simp, by simp⟩

theorem sameSetting_store (s : State) (ss : Size) (a : Dword) (v : BitVec ss.bits) :
    SameSetting s (s.store ss a v) := ⟨by simp, by simp, by simp⟩

theorem sameSetting_interrupt (s : State) (k : Cause) (n : Byte) : SameSetting s (s.interrupt k n) := by
  cases k with
  | nmi => rw [State.interrupt_nmi]; exact ⟨rfl, rfl, rfl⟩
  | int => rw [State.interrupt_int]; exact ⟨rfl, rfl, rfl⟩
  | soft => rw [State.interrupt_soft]; exact ⟨rfl, rfl, rfl⟩

theorem sameSetting_resetSequence (s : State) : SameSetting s s.resetSequence := ⟨rfl, rfl, rfl⟩

/-! ### The shapes of instruction -/

theorem keepsSetting_writeBack (ss : Size) (d : RegField) (r : BitVec ss.bits × Flags) (s : State) :
    KeepsSetting s (writeBack ss d r s) := by
  intro t h
  unfold writeBack at h
  split at h <;> cases h
  exact sameSetting_setReg_setFlags ..

theorem keepsSetting_binM {ss : Size} (op : Flags → BitVec ss.bits → BitVec ss.bits → BitVec ss.bits × Flags)
    (ea : Addr) (f : MemForm) (s : State) : KeepsSetting s (binM op ea f s) := by
  cases f with
  | toMem src => exact keepsSetting_next (sameSetting_store_setFlags ..)
  | toReg d => exact keepsSetting_writeBack _ _ _ _

theorem keepsSetting_testM {ss : Size} (op : Flags → BitVec ss.bits → BitVec ss.bits → BitVec ss.bits × Flags)
    (ea : Addr) (f : MemForm) (s : State) : KeepsSetting s (testM op ea f s) := by
  cases f <;> exact keepsSetting_next (sameSetting_setFlags ..)

theorem keepsSetting_shiftM (kind : ShiftKind) (ss : Size) (ea : Addr) (f : CountForm) (s : State) :
    KeepsSetting s (shiftM kind ss ea f s) := by
  cases f with
  | onMem n => exact keepsSetting_next (sameSetting_store_setFlags ..)
  | onReg d => exact keepsSetting_writeBack _ _ _ _

theorem keepsSetting_changeBitM {ss : Size} (op : BitVec ss.bits → Nat → BitVec ss.bits) (ea : Addr) (f : CountForm)
    (s : State) : KeepsSetting s (changeBitM op ea f s) := by
  cases f with
  | onMem n => exact keepsSetting_next (sameSetting_store ..)
  | onReg d => exact keepsSetting_next (sameSetting_setReg ..)

theorem keepsSetting_bitM (ss : Size) (ea : Addr) (f : CountForm) (s : State) :
    KeepsSetting s (execBitM ss ea f s) := by
  cases f <;> exact keepsSetting_next (sameSetting_setFlags ..)

theorem keepsSetting_ldM (ss : Size) (ea : Addr) (f : MemForm) (s : State) : KeepsSetting s (execLdM ss ea f s) := by
  cases f with
  | toMem src => exact keepsSetting_next (sameSetting_store ..)
  | toReg d => exact keepsSetting_next (sameSetting_setReg ..)

theorem keepsSetting_mltDivR (op : (w : Nat) → Flags → Flags → BitVec w → BitVec w → BitVec w × Flags) (ss : Size)
    (r : RegField) (s : State) : KeepsSetting s (mltDivR op ss r s) := by
  unfold mltDivR
  split
  · intro t h; cases h
  · exact keepsSetting_writeBack _ _ _ _

theorem keepsSetting_mltDivM (op : (w : Nat) → Flags → Flags → BitVec w → BitVec w → BitVec w × Flags) (ss : Size)
    (ea : Addr) (s : State) : KeepsSetting s (mltDivM op ss ea s) := by
  unfold mltDivM
  split
  · intro t h; cases h
  · exact keepsSetting_next (sameSetting_store_setFlags ..)

theorem keepsSetting_extR (z : WSize) (r : RegField) (s : State) : KeepsSetting s (execExtR z r s) := by
  intro t h
  unfold execExtR at h
  split at h <;> cases h
  exact sameSetting_setReg ..

theorem keepsSetting_exAlt (z : WSize) (r : RegField) (s : State) : KeepsSetting s (execExAlt z r s) := by
  cases z with
  | word => exact keepsSetting_next ⟨rfl, rfl, rfl⟩
  | dword => exact keepsSetting_next ⟨by simp, by simp, by simp⟩

theorem keepsSetting_branch {s u : State} (h : SameSetting s u) (taken : Bool) (target : Dword) :
    KeepsSetting s (branch taken target u) := by
  rw [branch_eq]
  exact keepsSetting_next ⟨h.cfg, h.tick, h.pins⟩

theorem keepsSetting_callTo (taken : Bool) (target : Dword) (s : State) :
    KeepsSetting s (callTo taken target s) := by
  cases taken with
  | true => exact keepsSetting_next ⟨s.push32_cfg _, s.push32_tick _, s.push32_pins _⟩
  | false => exact keepsSetting_next (.refl s)

theorem keepsSetting_ret (cc : Cond) (s : State) : KeepsSetting s (execRet cc s) := by
  refine keepsSetting_next ?_
  split <;> exact ⟨rfl, rfl, rfl⟩

theorem keepsSetting_reti (cc : Cond) (s : State) : KeepsSetting s (execReti cc s) := by
  refine keepsSetting_next ?_
  split
  · exact ⟨by simp, by simp, by simp⟩
  · exact ⟨rfl, rfl, rfl⟩

theorem keepsSetting_retn (cc : Cond) (s : State) : KeepsSetting s (execRetn cc s) := by
  refine keepsSetting_next ?_
  split
  · dsimp only
    split
    · exact ⟨by simp, by simp, by simp⟩
    · exact ⟨rfl, rfl, rfl⟩
  · exact ⟨rfl, rfl, rfl⟩

/-! ### The block families -/

theorem sameSetting_ldStep (z : NSize) (step : Dword) (s : State) : SameSetting s (ldStep z step s) := by
  have h := (ldStep_copied z step s).rest
  constructor <;> rw [h]

theorem sameSetting_cpStep (z : NSize) (step : Dword) (s : State) : SameSetting s (cpStep z step s) := ⟨rfl, rfl, rfl⟩

theorem sameSetting_tsStep (z : NSize) (step : Dword) (s : State) : SameSetting s (tsStep z step s) := ⟨rfl, rfl, rfl⟩

theorem sameSetting_inStep (z : NSize) (step : Dword) (s : State) : SameSetting s (inStep z step s) := by
  constructor <;> simp [inStep, State.countB, State.moveHL]

theorem sameSetting_outStep (z : NSize) (step : Dword) (s : State) : SameSetting s (outStep z step s) := ⟨rfl, rfl, rfl⟩

theorem keepsSetting_repeatStep {s t : State} (h : SameSetting s t) (stop : Bool) (final : Flags → Flags) :
    KeepsSetting s (repeatStep stop final t) := by
  unfold repeatStep
  split <;> exact keepsSetting_next ⟨h.cfg, h.tick, h.pins⟩

/-! ### Every instruction -/

/-- No instruction changes the parameters, the step counter or the pin samples. -/
theorem exec_keepsSetting (i : Instr) (s : State) : KeepsSetting s (exec i s) := by
  cases i with
  | ldR | setR | resR | exhR => exact keepsSetting_next (sameSetting_setReg ..)
  | exR | inR | exM | push | pop | rld | rrd | ei => exact keepsSetting_next ⟨by simp, by simp, by simp⟩
  | addR | adcR | subR | sbcR | andR | orR | xorR | incR | decR | negR | cplR => exact keepsSetting_writeBack _ _ _ _
  | rlcR | rrcR | rlR | rrR | slaR | sraR | srlR => exact keepsSetting_writeBack _ _ _ _
  | cpR | tstR | bitR => exact keepsSetting_next (sameSetting_setFlags ..)
  | ldM => exact keepsSetting_ldM _ _ _ _
  | addM | adcM | subM | sbcM | andM | orM | xorM => exact keepsSetting_binM _ _ _ _
  | cpM | tstM => exact keepsSetting_testM _ _ _ _
  | bitM => exact keepsSetting_bitM _ _ _ _
  | setM | resM => exact keepsSetting_changeBitM _ _ _ _
  | rlcM | rrcM | rlM | rrM | slaM | sraM | srlM => exact keepsSetting_shiftM _ _ _ _ _
  | exAlt => exact keepsSetting_exAlt _ _ _
  | extR => exact keepsSetting_extR _ _ _
  | mltR | divR | sdivR => exact keepsSetting_mltDivR _ _ _ _
  | exhM | extM => exact keepsSetting_next (sameSetting_store ..)
  | incM | decM | negM | cplM => exact keepsSetting_next (sameSetting_store_setFlags ..)
  | mltM | divM | sdivM => exact keepsSetting_mltDivM _ _ _ _
  | jp | jrS8 | jrS16 | janz => exact keepsSetting_branch (SameSetting.refl s) _ _
  | djnz => exact keepsSetting_branch (sameSetting_set16 s .b _) _ _
  | call | callrS8 | callrS16 => exact keepsSetting_callTo _ _ _
  | ret cc => exact keepsSetting_ret cc s
  | reti cc => exact keepsSetting_reti cc s
  | retn cc => exact keepsSetting_retn cc s
  | ldiB | lddB | ldiW | lddW => exact keepsSetting_next (sameSetting_ldStep ..)
  | ldirB | lddrB | ldirW | lddrW => exact keepsSetting_repeatStep (sameSetting_ldStep ..) _ _
  | cpiB | cpdB | cpiW | cpdW => exact keepsSetting_next (sameSetting_cpStep ..)
  | cpirB | cpdrB | cpirW | cpdrW => exact keepsSetting_repeatStep (sameSetting_cpStep ..) _ _
  | tsiB | tsdB | tsiW | tsdW => exact keepsSetting_next (sameSetting_tsStep ..)
  | tsirB | tsdrB | tsirW | tsdrW => exact keepsSetting_repeatStep (sameSetting_tsStep ..) _ _
  | iniB | indB | iniW | indW => exact keepsSetting_next (sameSetting_inStep ..)
  | inirB | indrB | inirW | indrW => exact keepsSetting_repeatStep (sameSetting_inStep ..) _ _
  | outiB | outdB | outiW | outdW => exact keepsSetting_next (sameSetting_outStep ..)
  | otirB | otdrB | otirW | otdrW => exact keepsSetting_repeatStep (sameSetting_outStep ..) _ _
  | rst n => exact keepsSetting_next (sameSetting_interrupt s .soft n)
  | scf | ccf => exact keepsSetting_next (sameSetting_setFlags ..)
  | daa => exact keepsSetting_next (sameSetting_setReg_setFlags ..)
  | outR | exx | exi | halt | di | im1 | im2 | ldI | ldRA | ldAR | nop => exact keepsSetting_next ⟨rfl, rfl, rfl⟩

/-! ### The sampling point -/

/-- The sampling point consumes one pin sample; taking a request changes no parameter and no counter. -/
theorem State.sample_sameSetting (s : State) : SameSetting s.latch s.sample := by
  unfold State.sample
  dsimp only
  split
  · exact sameSetting_resetSequence _
  · split
    · exact sameSetting_interrupt ..
    · split
      · exact sameSetting_interrupt ..
      · exact ⟨rfl, rfl, rfl⟩

/-! ### The step -/

/-- A step that goes on keeps the parameters, counts one, and consumes one pin sample. -/
theorem step_setting {s t : State} (h : step s = .next t) :
    t.cfg = s.cfg ∧ t.tick = s.tick + 1 ∧ t.pins = s.pins.tail := by
  rcases step_next_cases h with ⟨-, rfl⟩ | ⟨i, rest, u, -, -, hex, rfl⟩
  · have hsample := s.wait.sample_sameSetting
    exact ⟨hsample.cfg, hsample.tick, hsample.pins⟩
  · have hexec := exec_keepsSetting i _ u hex
    have hsample := u.sample_sameSetting
    exact ⟨hsample.cfg.trans hexec.cfg, hsample.tick.trans hexec.tick,
      hsample.pins.trans (congrArg List.tail hexec.pins)⟩

end Sys2Proof.Machine
end

section
/-! PROOFS. The statements on scope: the step, the register views, the conditions and the stack. -/

namespace Sys2Proof.Machine

/-- Settles O5: the fetched bytes are read region by region, and decoding them names the instruction that runs. -/
theorem stepRunsDecodedInstruction : Obligations.StepRunsDecodedInstruction := by
  refine ⟨fun s => ⟨s.fetchBytes_length, fun k hk => ?_⟩, fun s i rest hrun hdec => ?_⟩
  · rw [s.fetchBytes_getElem? hk]
    cases hkind : s.kindAt (cellAt s.pc k) with
    | ram => exact congrArg some (State.readByte_ram hkind _)
    | rom => exact congrArg some (State.readByte_rom hkind _)
    | device => exact congrArg some (State.readByte_device hkind _)
    | empty => exact congrArg some (State.readByte_empty hkind _)
  · rw [step_of_decode hrun hdec]
    unfold State.enter
    dsimp only
    cases exec i _ <;> rfl

/-- Settles O23: four bits of F decide eight conditions, and the reserved codes are checked one by one. -/
theorem conditionsReadFlags : Obligations.ConditionsReadFlags := by
  refine ⟨fun s => ⟨rfl, rfl, rfl, rfl, rfl, rfl, rfl, rfl, rfl⟩,
    ⟨rfl, rfl, rfl, rfl, rfl, rfl, rfl, rfl, rfl⟩, fun n hlo hhi => ?_⟩
  interval_cases n <;> rfl

/-- Settles O6: the bytes at PC are the encoding and a rest, so they decode to the instruction, and ten less the length
of the rest is the length of the encoding. -/
theorem stepRunsEncodedInstruction : Obligations.StepRunsEncodedInstruction := by
  rintro s i hrun hwf ⟨rest, hbytes⟩
  have hdec : decode s.cfg.mltDivSS s.fetchBytes = .ok (i, rest) := hbytes ▸ decode_encode hwf rest
  have hlen : (encode i).length = 10 - rest.length := by
    rw [← s.fetchBytes_length, ← hbytes, List.length_append, Nat.add_sub_cancel]
  rw [step_of_decode hrun hdec, hlen]

/-- Settles O10. -/
theorem stepKeepsParametersAndCounts : Obligations.StepKeepsParametersAndCounts :=
  fun _ _ h => step_setting h

/-- Settles O21. -/
theorem sizedRegisterViews : Obligations.SizedRegisterViews := by
  refine ⟨fun s d v => ?_, fun s d hi lo h => ⟨fun v => ?_, fun w => ⟨?_, ?_⟩⟩, fun s v => ?_⟩
  · rw [State.getReg_word_setReg_byte, withLowByte_toNat]
  · obtain ⟨hhi, hlo⟩ := State.setReg_pair h s v
    rw [hhi, hlo]
    exact ⟨hiWord_toNat v, loWord_toNat v⟩
  · rw [State.getReg_pair_setReg_hi h, append_toNat]
  · rw [State.getReg_pair_setReg_lo h, append_toNat]
  · exact ⟨s.getReg_setReg_af v, s.setReg_af_iff2 v⟩

/-- Settles O24. -/
theorem popReadsWhatWasPushed : Obligations.PopReadsWhatWasPushed := fun s v hwf hram =>
  ⟨State.stackTop_push32 hwf v hram, s.dropStack_push32_reg v⟩

end Sys2Proof.Machine
end

section
/-! PROOFS. What an ordinary instruction leaves unchanged, said once for every instruction that writes no F as data, no
alternate register and no system register: the flip-flops, the inhibit, the alternate set, the system registers. -/

namespace Sys2Proof.Machine

/-! ## The ordinary effect -/

/-- What an instruction does that touches neither the flip-flops nor a system register: it writes registers,
arithmetic flags, PC, memory in its canonical form, and what the devices see. -/
structure Ordinary (s t : State) : Prop where
  memory : s.mem.wf = true → t.mem.wf = true
  status : SameStatus s t
  rest : t = { s with reg := t.reg, pc := t.pc, mem := t.mem, ioIn := t.ioIn, trace := t.trace }

theorem Ordinary.refl (s : State) : Ordinary s s := ⟨id, rfl, rfl⟩

theorem Ordinary.trans {s t u : State} (h : Ordinary s t) (g : Ordinary t u) : Ordinary s u where
  memory := g.memory ∘ h.memory
  status := g.status.trans h.status
  rest := by
    have hs := h.rest
    have gs := g.rest
    apply State.ext <;> simp <;> rw [gs, hs]

theorem Ordinary.of_regFrame {ss : Size} {d : RegField} {s t : State} (h : RegFrame ss d s t) : Ordinary s t where
  memory := by rw [h.rest]; exact id
  status := h.status
  rest := by
    have hs := h.rest
    apply State.ext <;> simp <;> rw [hs]

/-- IE is no arithmetic flag. -/
theorem Ordinary.iff1 {s t : State} (h : Ordinary s t) : t.iff1 = s.iff1 := by
  have := congrArg (·.getLsbD 8) h.status
  simpa [State.iff1] using this

/-- The reserved bits are no arithmetic flags. -/
theorem Ordinary.reserved {s t : State} (h : Ordinary s t) :
    t.reg.f &&& ~~~0x01D7#16 = s.reg.f &&& ~~~0x01D7#16 := by
  have hmask : (~~~0x01D7#16 : Word) = ~~~0x00D7#16 &&& ~~~0x01D7#16 := by decide
  rw [hmask, ← BitVec.and_assoc, ← BitVec.and_assoc, h.status]

theorem Ordinary.kept {s t : State} (h : Ordinary s t) : Kept s t where
  memory := h.memory
  reserved := by rw [h.reserved]; exact id
  enabled := by rw [h.iff1, h.rest]; exact id
  inhibited := by rw [h.iff1, h.rest]; exact id

/-- An outcome is ordinary when it is a next state. -/
def YieldsOrdinary (s : State) (r : Result) : Prop := ∀ t, r = .next t → Ordinary s t

theorem yieldsOrdinary_next {s t : State} (h : Ordinary s t) : YieldsOrdinary s (.next t) := by
  rintro _ ⟨⟩
  exact h

/-! ### Operations over the state -/

theorem ordinary_setFlags (s : State) (fl : Flags) : Ordinary s (s.setFlags fl) := ⟨id, withFlags_status _ _, rfl⟩

theorem ordinary_setReg (s : State) {ss : Size} {d : RegField} (h : ss = .dword → d ≠ .r0) (v : BitVec ss.bits) :
    Ordinary s (s.setReg ss d v) := .of_regFrame ((s.setReg_written ss d v).plain h).2.2

theorem ordinary_set16 (s : State) (r : Reg16) (v : Word) : Ordinary s (s.set16 r v) :=
  ⟨id, by simp [SameStatus, State.set16], rfl⟩

theorem ordinary_store (s : State) (ss : Size) (a : Dword) (v : BitVec ss.bits) : Ordinary s (s.store ss a v) where
  memory h := State.store_wf h ss a v
  status := by simp [SameStatus]
  rest := by apply State.ext <;> simp

theorem ordinary_store_setFlags (s : State) (ss : Size) (a : Dword) (v : BitVec ss.bits) (fl : Flags) :
    Ordinary s ((s.store ss a v).setFlags fl) := (ordinary_store s ss a v).trans (ordinary_setFlags _ fl)

theorem ordinary_push32 (s : State) (v : Dword) : Ordinary s (s.push32 v) where
  memory := (kept_push32 s v).memory
  status := by simp [SameStatus]
  rest := by apply State.ext <;> simp

theorem ordinary_interrupt_soft (s : State) (n : Byte) : Ordinary s (s.interrupt .soft n) where
  memory := (kept_push32 s s.pc).memory
  status := by rw [State.interrupt_soft]; rfl
  rest := by
    have hs := s.interrupt_soft n
    apply State.ext <;> simp <;> rw [hs]

/-! ### The shapes of instruction -/

theorem yieldsOrdinary_writeBack (ss : Size) (d : RegField) (r : BitVec ss.bits × Flags) (s : State) :
    YieldsOrdinary s (writeBack ss d r s) := by
  intro t h
  by_cases hAF : ss = .dword ∧ d = .r0
  · obtain ⟨rfl, rfl⟩ := hAF
    rw [writeBack_af] at h
    cases h
  · obtain ⟨u, hu, hframe, -, -⟩ := writeBack_next r s fun hss hd => hAF ⟨hss, hd⟩
    rw [hu] at h
    cases h
    exact .of_regFrame hframe

theorem yieldsOrdinary_binM {ss : Size} (op : Flags → BitVec ss.bits → BitVec ss.bits → BitVec ss.bits × Flags)
    (ea : Addr) (f : MemForm) (s : State) : YieldsOrdinary s (binM op ea f s) := by
  cases f with
  | toMem src => exact yieldsOrdinary_next (ordinary_store_setFlags ..)
  | toReg d => exact yieldsOrdinary_writeBack _ _ _ _

theorem yieldsOrdinary_testM {ss : Size} (op : Flags → BitVec ss.bits → BitVec ss.bits → BitVec ss.bits × Flags)
    (ea : Addr) (f : MemForm) (s : State) : YieldsOrdinary s (testM op ea f s) := by
  cases f <;> exact yieldsOrdinary_next (ordinary_setFlags ..)

theorem yieldsOrdinary_shiftM (kind : ShiftKind) (ss : Size) (ea : Addr) (f : CountForm) (s : State) :
    YieldsOrdinary s (shiftM kind ss ea f s) := by
  cases f with
  | onMem n => exact yieldsOrdinary_next (ordinary_store_setFlags ..)
  | onReg d => exact yieldsOrdinary_writeBack _ _ _ _

theorem yieldsOrdinary_bitM (ss : Size) (ea : Addr) (f : CountForm) (s : State) :
    YieldsOrdinary s (execBitM ss ea f s) := by
  cases f <;> exact yieldsOrdinary_next (ordinary_setFlags ..)

theorem yieldsOrdinary_mltDivR (op : (w : Nat) → Flags → Flags → BitVec w → BitVec w → BitVec w × Flags) (ss : Size)
    (r : RegField) (s : State) : YieldsOrdinary s (mltDivR op ss r s) := by
  unfold mltDivR
  split
  · intro t h; cases h
  · exact yieldsOrdinary_writeBack _ _ _ _

theorem yieldsOrdinary_mltDivM (op : (w : Nat) → Flags → Flags → BitVec w → BitVec w → BitVec w × Flags) (ss : Size)
    (ea : Addr) (s : State) : YieldsOrdinary s (mltDivM op ss ea s) := by
  unfold mltDivM
  split
  · intro t h; cases h
  · exact yieldsOrdinary_next (ordinary_store_setFlags ..)

theorem yieldsOrdinary_extR (z : WSize) (r : RegField) (s : State) : YieldsOrdinary s (execExtR z r s) := by
  intro t h
  unfold execExtR at h
  split at h <;> cases h
  next hAF => exact ordinary_setReg s (fun hz hr => hAF (by simp [isAF, hz, hr])) _

theorem yieldsOrdinary_inR (z : NSize) (d : RegField) (port : Port) (s : State) :
    YieldsOrdinary s (execInR z d port s) := by
  have hread : Ordinary s (s.afterIoRead z (s.portVal port)) := ⟨id, rfl, rfl⟩
  exact yieldsOrdinary_next (hread.trans (ordinary_setReg _ (by cases z <;> simp [NSize.size]) _))

theorem yieldsOrdinary_branch {s u : State} (h : Ordinary s u) (taken : Bool) (target : Dword) :
    YieldsOrdinary s (branch taken target u) := by
  rw [branch_eq]
  exact yieldsOrdinary_next (h.trans ⟨id, rfl, rfl⟩)

theorem yieldsOrdinary_callTo (taken : Bool) (target : Dword) (s : State) :
    YieldsOrdinary s (callTo taken target s) := by
  cases taken with
  | true => exact yieldsOrdinary_next ((ordinary_push32 s s.pc).trans ⟨id, rfl, rfl⟩)
  | false => exact yieldsOrdinary_next (.refl s)

theorem yieldsOrdinary_ret (cc : Cond) (s : State) : YieldsOrdinary s (execRet cc s) := by
  refine yieldsOrdinary_next ?_
  split <;> exact ⟨id, rfl, rfl⟩

/-! ### The block families -/

/-- A pointer or a counter in a pair. -/
theorem ordinary_set32 (s : State) {r : Reg32} (h : r ≠ .af) (v : Dword) : Ordinary s (s.set32 r v) := by
  cases r with
  | af => exact absurd rfl h
  | bc | de | hl | ix | iy | sp => exact ⟨id, rfl, rfl⟩

theorem ordinary_ldStep (z : NSize) (step : Dword) (s : State) : Ordinary s (ldStep z step s) :=
  (ordinary_store ..).trans <| (ordinary_set32 _ (by decide) _).trans <| (ordinary_set32 _ (by decide) _).trans <|
    (ordinary_set32 _ (by decide) _).trans <| ordinary_setFlags ..

theorem ordinary_cpStep (z : NSize) (step : Dword) (s : State) : Ordinary s (cpStep z step s) :=
  (ordinary_set32 _ (by decide) _).trans <| (ordinary_set32 _ (by decide) _).trans <| ordinary_setFlags ..

theorem ordinary_tsStep (z : NSize) (step : Dword) (s : State) : Ordinary s (tsStep z step s) :=
  (ordinary_set32 _ (by decide) _).trans <| (ordinary_set32 _ (by decide) _).trans <| ordinary_setFlags ..

theorem ordinary_inStep (z : NSize) (step : Dword) (s : State) : Ordinary s (inStep z step s) :=
  have hread : Ordinary s (s.afterIoRead z (s.get16 .c)) := ⟨id, rfl, rfl⟩
  hread.trans <| (ordinary_store ..).trans <| (ordinary_set32 _ (by decide) _).trans <|
    (ordinary_set16 ..).trans <| ordinary_setFlags ..

theorem ordinary_outStep (z : NSize) (step : Dword) (s : State) : Ordinary s (outStep z step s) :=
  have hwrite : Ordinary s (s.ioWrite z (s.get16 .c) ((s.element z).setWidth 16)) := ⟨id, rfl, rfl⟩
  hwrite.trans <| (ordinary_set32 _ (by decide) _).trans <| (ordinary_set16 ..).trans <| ordinary_setFlags ..

theorem yieldsOrdinary_repeatStep {s t : State} (h : Ordinary s t) (stop : Bool) (final : Flags → Flags) :
    YieldsOrdinary s (repeatStep stop final t) := by
  unfold repeatStep
  split
  · exact yieldsOrdinary_next (h.trans (ordinary_setFlags ..))
  · exact yieldsOrdinary_next (h.trans ⟨id, rfl, rfl⟩)

/-! ### Every ordinary instruction -/

/-- The instructions with another effect: those with a form that writes F as data, the exchanges with the alternate
set, RETI, RETN, and the system instructions but LD A,R. -/
def isSpecial : Instr → Bool
  | .ldR .. | .setR .. | .resR .. | .exhR .. | .ldM .. | .setM .. | .resM .. | .exR .. | .exM .. | .pop .. => true
  | .exAlt .. | .exx | .exi | .reti .. | .retn .. | .halt | .ei | .di | .im1 | .im2 | .ldI .. | .ldRA => true
  | _ => false

theorem exec_ordinary {i : Instr} (hi : isSpecial i = false) (s : State) : YieldsOrdinary s (exec i s) := by
  cases i with
  | ldR | setR | resR | exhR | ldM | setM | resM | exR | exM | pop => cases hi
  | exAlt | exx | exi | reti | retn | halt | ei | di | im1 | im2 | ldI | ldRA => cases hi
  | addR | adcR | subR | sbcR | andR | orR | xorR | incR | decR | negR | cplR => exact yieldsOrdinary_writeBack _ _ _ _
  | rlcR | rrcR | rlR | rrR | slaR | sraR | srlR => exact yieldsOrdinary_writeBack _ _ _ _
  | cpR | tstR | bitR | scf | ccf => exact yieldsOrdinary_next (ordinary_setFlags ..)
  | addM | adcM | subM | sbcM | andM | orM | xorM => exact yieldsOrdinary_binM _ _ _ _
  | cpM | tstM => exact yieldsOrdinary_testM _ _ _ _
  | bitM => exact yieldsOrdinary_bitM _ _ _ _
  | rlcM | rrcM | rlM | rrM | slaM | sraM | srlM => exact yieldsOrdinary_shiftM _ _ _ _ _
  | extR => exact yieldsOrdinary_extR _ _ _
  | mltR | divR | sdivR => exact yieldsOrdinary_mltDivR _ _ _ _
  | exhM | extM => exact yieldsOrdinary_next (ordinary_store ..)
  | incM | decM | negM | cplM => exact yieldsOrdinary_next (ordinary_store_setFlags ..)
  | mltM | divM | sdivM => exact yieldsOrdinary_mltDivM _ _ _ _
  | inR => exact yieldsOrdinary_inR _ _ _ _
  | outR | nop => exact yieldsOrdinary_next ⟨id, rfl, rfl⟩
  | push => exact yieldsOrdinary_next (ordinary_push32 ..)
  | jp | jrS8 | jrS16 | janz => exact yieldsOrdinary_branch (.refl s) _ _
  | djnz => exact yieldsOrdinary_branch (ordinary_set16 s .b _) _ _
  | call | callrS8 | callrS16 => exact yieldsOrdinary_callTo _ _ _
  | ret => exact yieldsOrdinary_ret _ _
  | rst => exact yieldsOrdinary_next (ordinary_interrupt_soft ..)
  | ldiB | lddB | ldiW | lddW => exact yieldsOrdinary_next (ordinary_ldStep ..)
  | ldirB | lddrB | ldirW | lddrW => exact yieldsOrdinary_repeatStep (ordinary_ldStep ..) _ _
  | cpiB | cpdB | cpiW | cpdW => exact yieldsOrdinary_next (ordinary_cpStep ..)
  | cpirB | cpdrB | cpirW | cpdrW => exact yieldsOrdinary_repeatStep (ordinary_cpStep ..) _ _
  | tsiB | tsdB | tsiW | tsdW => exact yieldsOrdinary_next (ordinary_tsStep ..)
  | tsirB | tsdrB | tsirW | tsdrW => exact yieldsOrdinary_repeatStep (ordinary_tsStep ..) _ _
  | iniB | indB | iniW | indW => exact yieldsOrdinary_next (ordinary_inStep ..)
  | inirB | indrB | inirW | indrW => exact yieldsOrdinary_repeatStep (ordinary_inStep ..) _ _
  | outiB | outdB | outiW | outdW => exact yieldsOrdinary_next (ordinary_outStep ..)
  | otirB | otdrB | otirW | otdrW => exact yieldsOrdinary_repeatStep (ordinary_outStep ..) _ _
  | daa =>
    exact yieldsOrdinary_next ((ordinary_setReg s (ss := .byte) (by simp) _).trans (ordinary_setFlags ..))
  | rld | rrd =>
    exact yieldsOrdinary_next ((ordinary_store ..).trans
      ((ordinary_setReg _ (ss := .byte) (by simp) _).trans (ordinary_setFlags ..)))
  | ldAR => exact yieldsOrdinary_next (ordinary_set16 ..)

end Sys2Proof.Machine
end

section
/-! PROOFS. Which instructions write the alternate set and the system registers, the forms that have no meaning, and
the state right after reset. -/

namespace Sys2Proof.Machine

/-! ## Alternates and system registers -/

/-- The alternate set, IVB, R, IM, halted and nmi_pending are unchanged (R22, R35 to R37, R39, R40). -/
structure SystemFrame (s t : State) : Prop where
  alt : t.alt = s.alt
  ivb : t.ivb = s.ivb
  r : t.r = s.r
  im : t.im = s.im
  halted : t.halted = s.halted
  nmiPending : t.nmiPending = s.nmiPending

theorem SystemFrame.refl (s : State) : SystemFrame s s := ⟨rfl, rfl, rfl, rfl, rfl, rfl⟩

theorem SystemFrame.trans {s t u : State} (h : SystemFrame s t) (g : SystemFrame t u) : SystemFrame s u :=
  ⟨g.alt.trans h.alt, g.ivb.trans h.ivb, g.r.trans h.r, g.im.trans h.im, g.halted.trans h.halted,
    g.nmiPending.trans h.nmiPending⟩

theorem Ordinary.systemFrame {s t : State} (h : Ordinary s t) : SystemFrame s t := by
  have hs := h.rest
  constructor <;> rw [hs]

theorem SystemFrame.set32 {s u : State} (h : SystemFrame s u) (r : Reg32) (v : Dword) : SystemFrame s (u.set32 r v) :=
  h.trans ⟨by simp, by simp, by simp, by simp, by simp, by simp⟩

theorem SystemFrame.setReg {s u : State} (h : SystemFrame s u) (ss : Size) (d : RegField) (v : BitVec ss.bits) :
    SystemFrame s (u.setReg ss d v) := h.trans ⟨by simp, by simp, by simp, by simp, by simp, by simp⟩

theorem SystemFrame.returnInhibit {s u : State} (h : SystemFrame s u) (b : Bool) :
    SystemFrame s (u.returnInhibit b) := h.trans ⟨by simp, by simp, by simp, by simp, by simp, by simp⟩

/-- The instructions that write the alternate set or a system register. -/
def writesSystem : Instr → Bool
  | .exAlt .. | .exx | .exi | .ldI .. | .ldRA | .im1 | .im2 | .halt => true
  | _ => false

/-- A write of F as data and an enabling or disabling instruction leave the system registers alone too. -/
theorem exec_systemFrame {i : Instr} (hi : writesSystem i = false) {s t : State} (h : exec i s = .next t) :
    SystemFrame s t := by
  cases i with
  | exAlt | exx | exi | ldI | ldRA | im1 | im2 | halt => cases hi
  | ldR | setR | resR | exhR => cases h; exact .setReg (.refl s) ..
  | ldM ss ea f =>
    cases f with
    | toMem src => cases h; exact (ordinary_store ..).systemFrame
    | toReg d => cases h; exact .setReg (.refl s) ..
  | setM ss ea f | resM ss ea f =>
    cases f with
    | onMem n => cases h; exact (ordinary_store ..).systemFrame
    | onReg d => cases h; exact .setReg (.refl s) ..
  | exR => cases h; exact .setReg (.setReg (.refl s) ..) ..
  | exM => cases h; exact .setReg (ordinary_store ..).systemFrame ..
  | pop =>
    cases h
    refine .set32 ?_ _ _
    exact ⟨rfl, rfl, rfl, rfl, rfl, rfl⟩
  | ei | di => cases h; exact ⟨rfl, rfl, rfl, rfl, rfl, rfl⟩
  | reti cc =>
    cases h
    split
    · refine .returnInhibit ?_ _
      exact ⟨rfl, rfl, rfl, rfl, rfl, rfl⟩
    · exact .refl s
  | retn cc =>
    cases h
    split
    · dsimp only
      split
      · refine .returnInhibit ?_ _
        exact ⟨rfl, rfl, rfl, rfl, rfl, rfl⟩
      · exact ⟨rfl, rfl, rfl, rfl, rfl, rfl⟩
    · exact .refl s
  | _ => exact (exec_ordinary rfl s t h).systemFrame

/-- An exchange with the alternate set writes no other system register (R143). -/
theorem exec_exAlt_systemFrame {z : WSize} {d : RegField} {s t : State} (h : exec (.exAlt z d) s = .next t) :
    SystemFrame { s with alt := t.alt } t := by
  cases z with
  | word => cases h; exact ⟨rfl, rfl, rfl, rfl, rfl, rfl⟩
  | dword =>
    cases h
    refine .set32 ?_ _ _
    exact ⟨(State.set32_alt ..).symm, rfl, rfl, rfl, rfl, rfl⟩

/-- Settles O11: whatever an instruction that is not listed does, it leaves all six parts alone; of a listed one the
other parts are read off its effect. -/
theorem alternatesAndSystemRegistersHaveListedWriters :
    Obligations.AlternatesAndSystemRegistersHaveListedWriters := by
  intro i s t h
  cases i with
  | exAlt z d =>
    have hf := exec_exAlt_systemFrame h
    exact ⟨fun _ => .inl ⟨z, d, rfl⟩, fun hne => absurd hf.ivb hne, fun hne => absurd hf.r hne,
      fun hne => absurd hf.im hne, fun hne => absurd hf.halted hne, hf.nmiPending⟩
  | exx | exi | ldI | ldRA | im1 | im2 | halt => cases h; simp
  | _ =>
    have hf := exec_systemFrame rfl h
    exact ⟨fun hne => absurd hf.alt hne, fun hne => absurd hf.ivb hne, fun hne => absurd hf.r hne,
      fun hne => absurd hf.im hne, fun hne => absurd hf.halted hne, hf.nmiPending⟩

/-! ## Forms with no meaning -/

theorem writeBack_of_isAF {ss : Size} {d : RegField} (h : isAF ss d = true) (r : BitVec ss.bits × Flags) (s : State) :
    writeBack ss d r s = .refused .afDestination := if_pos h

theorem mltDivR_af {ss : Size} {d : RegField} {s : State}
    (op : (w : Nat) → Flags → Flags → BitVec w → BitVec w → BitVec w × Flags)
    (h : mltDivTarget s.cfg.mltDivSS ss = some .dword ∧ d = .r0) : mltDivR op ss d s = .refused .afDestination := by
  obtain ⟨htarget, rfl⟩ := h
  simp only [mltDivR, htarget]
  exact writeBack_of_isAF rfl _ _

/-- The sizes with a target are the ones `MLTDIV_SS` lists (R122, R123). -/
theorem mltDivTarget_eq_none {m : Config.MltDivSS} {ss : Size} (h : ss.mltDivLegal m = false) :
    mltDivTarget m ss = none := by
  revert h
  cases m <;> cases ss <;> decide

theorem mltDivR_illegal {ss : Size} {s : State}
    (op : (w : Nat) → Flags → Flags → BitVec w → BitVec w → BitVec w × Flags)
    (h : ss.mltDivLegal s.cfg.mltDivSS = false) (d : RegField) : mltDivR op ss d s = .fault (.illegal .size) := by
  simp only [mltDivR, mltDivTarget_eq_none h]

theorem mltDivM_illegal {ss : Size} {s : State}
    (op : (w : Nat) → Flags → Flags → BitVec w → BitVec w → BitVec w × Flags)
    (h : ss.mltDivLegal s.cfg.mltDivSS = false) (ea : Addr) : mltDivM op ss ea s = .fault (.illegal .size) := by
  simp only [mltDivM, mltDivTarget_eq_none h]

/-- Every form that would write AF reaches the one refusal of `writeBack`, EXT its own (R24, U9). -/
theorem exec_writesAFByArithmetic {i : Instr} {s : State} (h : writesAFByArithmetic s.cfg.mltDivSS i = true) :
    exec i s = .refused .afDestination := by
  cases i with
  | addR | adcR | subR | sbcR | andR | orR | xorR | incR | decR | negR | cplR => exact writeBack_of_isAF h _ _
  | rlcR | rrcR | rlR | rrR | slaR | sraR | srlR => exact writeBack_of_isAF h _ _
  | addM ss ea f | adcM ss ea f | subM ss ea f | sbcM ss ea f | andM ss ea f | orM ss ea f | xorM ss ea f =>
    cases f with
    | toMem src => cases h
    | toReg d => exact writeBack_of_isAF h _ _
  | rlcM ss ea f | rrcM ss ea f | rlM ss ea f | rrM ss ea f | slaM ss ea f | sraM ss ea f | srlM ss ea f =>
    cases f with
    | onMem n => cases h
    | onReg d => exact writeBack_of_isAF h _ _
  | extR z d =>
    obtain ⟨rfl, rfl⟩ : z = .dword ∧ d = .r0 := of_decide_eq_true h
    rfl
  | mltR | divR | sdivR => exact mltDivR_af _ (of_decide_eq_true h)
  | _ => cases h

/-- Settles O14: AF is refused where the result is written back; a size without a target is illegal. -/
theorem undefinedFormsStop : Obligations.UndefinedFormsStop :=
  ⟨fun _ _ h => exec_writesAFByArithmetic h, fun _ r ea _ h =>
    ⟨mltDivR_illegal _ h r, mltDivR_illegal _ h r, mltDivR_illegal _ h r,
      mltDivM_illegal _ h ea.addr, mltDivM_illegal _ h ea.addr, mltDivM_illegal _ h ea.addr⟩⟩

/-! ## Reset -/

/-- Settles O1: nothing is listed in memory, and every flip-flop is 0. -/
theorem resetMeetsInvariant : Obligations.ResetMeetsInvariant where
  memory := reset_memory_wf
  reserved := by decide
  enabled := by decide
  inhibited := by decide
  waiting := by decide
  base := by decide

/-- PC after reset is the dword at address 0 (R360). -/
theorem reset_pc : State.reset.pc = State.reset.load .resetVector .dword 0#32 := rfl

/-- Settles O2: PC is the dword that memory gives at address 0, so its bytes are the bytes read there. -/
theorem resetStateHoldsStatedValues : Obligations.ResetStateHoldsStatedValues := by
  refine ⟨rfl, rfl, rfl, rfl, rfl, rfl, rfl, rfl, rfl, fun k hk => ?_⟩
  rw [reset_pc, State.byteOf_load _ _ .dword _ hk, BitVec.zero_add]

end Sys2Proof.Machine
end

section
/-! PROOFS. Every instruction, the sampling point, and so every step keep the invariant. -/

namespace Sys2Proof.Machine

/-! ## Writes of F as data -/

/-- The inhibit of the state written to may not outlive a write that clears IE; the start of an instruction has ended it
(R323). -/
theorem kept_set32 (s : State) (hs : s.inhibit = false) (r : Reg32) (v : Dword) : Kept s (s.set32 r v) := by
  by_cases h : r = .af
  · subst h
    exact kept_setAF s v fun _ => hs
  · exact (ordinary_set32 s h v).kept

/-- A write of AF that clears IE starts no inhibit. -/
theorem State.setReg_af_inhibit (s : State) {v : Dword} (h : (loWord v).getLsbD 8 = false) :
    (s.setReg .dword .r0 v).inhibit = s.inhibit := ((s.set16 .a (hiWord v)).writeF_written (loWord v)).kept h

/-- EX writes two registers: the first write can start the inhibit only if it is one of AF, and then the second is no
write of AF or, in EX AF,AF, writes the same value (log 16). -/
theorem kept_setReg_setReg (s : State) (hs : s.inhibit = false) (ss : Size) (d r : RegField) :
    Kept s ((s.setReg ss d (s.getReg ss r)).setReg ss r (s.getReg ss d)) := by
  refine (kept_setReg s hs ss d (s.getReg ss r)).trans ?_
  by_cases hr : ss = .dword ∧ r = .r0
  · obtain ⟨rfl, rfl⟩ := hr
    refine kept_setAF _ _ fun hv => ?_
    by_cases hd : d = .r0
    · subst hd
      exact (s.setReg_af_inhibit hv).trans hs
    · have hrest := (ordinary_setReg s (ss := .dword) (d := d) (fun _ => hd) (s.getReg .dword .r0)).rest
      rw [hrest]
      exact hs
  · exact (ordinary_setReg _ (fun hss hd => hr ⟨hss, hd⟩) _).kept

/-! ## The flip-flops -/

theorem State.setIff1_reserved {s : State} (b : Bool) (h : s.reg.f &&& ~~~0x01D7#16 = 0#16) :
    (s.setIff1 b).reg.f &&& ~~~0x01D7#16 = 0#16 := by
  have hmask : (~~~0x01D7#16 : Word) = ~~~0x0100#16 &&& ~~~0x01D7#16 := by decide
  rw [hmask, ← BitVec.and_assoc, s.setIff1_other b, BitVec.and_assoc, ← hmask, h]

@[simp] theorem State.startInhibit_iff1 (s : State) (b : Bool) : (s.startInhibit b).iff1 = s.iff1 := rfl

@[simp] theorem State.returnInhibit_iff1 (s : State) (b : Bool) : (s.returnInhibit b).iff1 = s.iff1 := by
  rw [State.iff1, State.returnInhibit_reg, State.iff1]

theorem kept_dropStack (s : State) : Kept s s.dropStack := .same _ _ rfl rfl rfl rfl

theorem kept_reti (s : State) :
    Kept s (({ s.popReturn with iff2 := true }.setIff1 true).returnInhibit s.iff1) where
  memory := by simp
  reserved h := by
    rw [State.returnInhibit_reg]
    exact State.setIff1_reserved true h
  enabled _ := by simp
  inhibited _ := by simp

/-- IFF1 takes IFF2, so it is 1 where the inhibit starts. -/
theorem kept_retn (s : State) (hs : s.inhibit = false) :
    Kept s (if s.iff2 then (s.popReturn.setIff1 s.iff2).returnInhibit s.iff1 else s.popReturn.setIff1 s.iff2) := by
  have hreserved : s.reg.f &&& ~~~0x01D7#16 = 0#16 →
      (s.popReturn.setIff1 s.iff2).reg.f &&& ~~~0x01D7#16 = 0#16 := State.setIff1_reserved (s := s.popReturn) s.iff2
  split
  · next h2 =>
    exact ⟨by simp, by rw [State.returnInhibit_reg]; exact hreserved, fun _ => by simp [h2], fun _ => by simp [h2]⟩
  · next h2 => exact ⟨id, hreserved, fun _ => by simp [h2], fun _ => by simp [hs]⟩

/-! ## Every instruction -/

theorem kept_withAlt (s : State) (g : Bank) : Kept s { s with alt := g } := .same _ _ rfl rfl rfl rfl

theorem keptBy_exAlt {s : State} (hs : s.inhibit = false) (z : WSize) (d : RegField) :
    KeptBy s (execExAlt z d s) := by
  cases z with
  | word => exact keptBy_next ((kept_withAlt s _).trans (ordinary_set16 ..).kept)
  | dword => exact keptBy_next ((kept_withAlt s _).trans (kept_set32 _ (by exact hs) ..))

/-- An instruction starts with the inhibit at 0 (R323); it then keeps memory's form, the reserved bits of F, and what
the flip-flops and the inhibit imply. -/
theorem exec_kept (i : Instr) {s : State} (hs : s.inhibit = false) : KeptBy s (exec i s) := by
  cases i with
  | ldR | setR | resR | exhR => exact keptBy_next (kept_setReg s hs ..)
  | ldM ss ea f =>
    cases f with
    | toMem src => exact keptBy_next (kept_store ..)
    | toReg d => exact keptBy_next (kept_setReg s hs ..)
  | setM ss ea f | resM ss ea f =>
    cases f with
    | onMem n => exact keptBy_next (kept_store ..)
    | onReg d => exact keptBy_next (kept_setReg s hs ..)
  | exR => exact keptBy_next (kept_setReg_setReg s hs ..)
  | exM => exact keptBy_next ((kept_store ..).trans (kept_setReg _ (by simp [hs]) ..))
  | pop r => exact keptBy_next ((kept_dropStack s).trans (kept_set32 s.dropStack hs r _))
  | exAlt => exact keptBy_exAlt hs _ _
  | exx | exi | halt | im1 | im2 | ldI | ldRA => exact keptBy_next (.same _ _ rfl rfl rfl rfl)
  | ei => exact keptBy_next ⟨id, State.setIff1_reserved true, fun _ => by simp, fun _ => by simp⟩
  | di => exact keptBy_next ⟨id, State.setIff1_reserved false, fun _ => by simp, fun _ => by simp⟩
  | reti cc =>
    refine keptBy_next ?_
    split
    · exact kept_reti s
    · exact .refl s
  | retn cc =>
    refine keptBy_next ?_
    split
    · exact kept_retn s hs
    · exact .refl s
  | _ => exact fun t h => (exec_ordinary rfl s t h).kept

/-- Only HALT ends an instruction waiting, and it leaves the inhibit as it was. -/
theorem exec_halted {i : Instr} {s t : State} (hrun : s.halted = false) (hs : s.inhibit = false)
    (h : exec i s = .next t) (ht : t.halted = true) : t.inhibit = false := by
  obtain ⟨-, -, -, -, hhalted, -⟩ := alternatesAndSystemRegistersHaveListedWriters i s t h
  obtain rfl : i = .halt := hhalted (by simp [hrun, ht])
  cases h
  exact hs

/-- LD I zero-extends a word, and nothing else writes IVB (R306, D27). -/
theorem exec_ivb {i : Instr} {s t : State} (hs : s.ivb.toNat < 2 ^ 16) (h : exec i s = .next t) :
    t.ivb.toNat < 2 ^ 16 := by
  obtain ⟨-, hivb, -⟩ := alternatesAndSystemRegistersHaveListedWriters i s t h
  by_cases heq : t.ivb = s.ivb
  · rw [heq]
    exact hs
  · obtain ⟨nn, rfl⟩ := hivb heq
    cases h
    have := nn.isLt
    rw [BitVec.toNat_setWidth]
    omega

theorem State.Inv.exec {i : Instr} {s t : State} (hinv : s.Inv) (hrun : s.halted = false) (hs : s.inhibit = false)
    (h : exec i s = .next t) : t.Inv := by
  have hkept := exec_kept i hs t h
  exact {
    memory := hkept.memory hinv.memory
    reserved := hkept.reserved hinv.reserved
    enabled := hkept.enabled hinv.enabled
    inhibited := hkept.inhibited hinv.inhibited
    waiting := exec_halted hrun hs h
    base := exec_ivb hinv.base h }

/-! ## The sampling point -/

theorem State.interrupt_wf {s : State} (h : s.mem.wf = true) (k : Cause) (n : Byte) :
    (s.interrupt k n).mem.wf = true := by
  cases k <;> exact (kept_push32 _ _).memory h

/-- A hardware interrupt clears IFF1 and the inhibit, and leaves IVB alone (R330, log 19). -/
theorem State.interrupt_hardware (s : State) {k : Cause} (hk : k ≠ .soft) (n : Byte) :
    (s.interrupt k n).reg.f = (s.setIff1 false).reg.f ∧ (s.interrupt k n).inhibit = false ∧
      (s.interrupt k n).ivb = s.ivb := by
  cases k with
  | soft => exact absurd rfl hk
  | nmi => rw [State.interrupt_nmi, State.setIff1_f]; exact ⟨rfl, rfl, rfl⟩
  | int => rw [State.interrupt_int, State.setIff1_f]; exact ⟨rfl, rfl, rfl⟩

theorem State.Inv.interrupt {s : State} (h : s.Inv) {k : Cause} (hk : k ≠ .soft) (n : Byte) :
    (s.interrupt k n).Inv := by
  obtain ⟨hf, hinhibit, hivb⟩ := s.interrupt_hardware hk n
  have hiff1 : (s.interrupt k n).iff1 = false := by
    rw [State.iff1, hf]
    exact s.setIff1_iff1 false
  exact {
    memory := State.interrupt_wf h.memory k n
    reserved := by rw [hf]; exact State.setIff1_reserved false h.reserved
    enabled := by simp [hiff1]
    inhibited := by simp [hinhibit]
    waiting := fun _ => hinhibit
    base := by rw [hivb]; exact h.base }

/-- Of what there was before a reset only memory's form matters (R360, R361). -/
theorem State.Inv.resetSequence {s : State} (h : s.Inv) : s.resetSequence.Inv where
  memory := unresetMemory_wf _ _ h.memory
  reserved := BitVec.zero_and
  enabled h1 := by simp [State.iff1, State.resetSequence, unresetBank] at h1
  inhibited h1 := by cases h1
  waiting _ := rfl
  base := (by decide : (0#22).toNat < 2 ^ 16)

theorem State.Inv.sample {s : State} (h : s.Inv) : s.sample.Inv := by
  have hlatch : s.latch.Inv := ⟨h.memory, h.reserved, h.enabled, h.inhibited, h.waiting, h.base⟩
  unfold State.sample
  dsimp only
  split
  · exact hlatch.resetSequence
  · split
    · exact hlatch.interrupt (by decide) _
    · split
      · exact hlatch.interrupt (by decide) _
      · exact hlatch

/-! ## The step -/

/-- An instruction's start ends the inhibit, which nothing in the invariant asks for. -/
theorem State.Inv.enter {s : State} (h : s.Inv) (len : Nat) : (s.enter len).Inv where
  memory := h.memory
  reserved := h.reserved
  enabled := h.enabled
  inhibited h1 := by cases h1
  waiting _ := rfl
  base := h.base

theorem State.Inv.wait {s : State} (h : s.Inv) : s.wait.Inv :=
  ⟨h.memory, h.reserved, h.enabled, h.inhibited, h.waiting, h.base⟩

/-- Settles O3: the invariant holds where a wait or an instruction starts, the instruction keeps it, and the sampling
point keeps it. -/
theorem stepKeepsInvariant : Obligations.StepKeepsInvariant := by
  intro s t hinv h
  rcases step_next_cases h with ⟨-, rfl⟩ | ⟨i, rest, u, hrun, -, hex, rfl⟩
  · exact hinv.wait.sample
  · exact ((hinv.enter _).exec hrun rfl hex).sample

end Sys2Proof.Machine
end

section
/-! PROOFS. The statements on memory: what a load reads by region, and what it reads after a store. -/

namespace Sys2Proof.Machine

/-! ## A byte read after a store -/

@[simp] theorem State.store_kindAt (s : State) (ss : Size) (a : Dword) (v : BitVec ss.bits) (p : Nat) :
    (s.store ss a v).kindAt p = s.kindAt p := by rw [State.kindAt, State.store_cfg, State.kindAt]

/-- Memory keeps its content where the store has no byte; the free values of peripherals and empty addresses do not
depend on memory (R63, R71, log 13, log 14). -/
theorem State.readByte_store_other (s : State) (k : Config.Access) {ss : Size} {a b : Dword} (v : BitVec ss.bits) {i : Nat}
    (h : ∀ j, j < sizeBytes ss → cellAt b i ≠ cellAt a j) :
    (s.store ss a v).readByte k (b + BitVec.ofNat 32 i) = s.readByte k (b + BitVec.ofNat 32 i) := by
  have hread : (s.store ss a v).mem.read (cellAt b i) = s.mem.read (cellAt b i) :=
    (s.store_stored ss a v).kept _ fun j hj _ => h j hj
  simp only [State.readByte, phys_add, State.store_kindAt, State.store_tick, hread]

/-- A byte in RAM reads back as the part of the value that was stored there (R62, R63). -/
theorem State.readByte_store_same {s : State} (hwf : s.mem.wf = true) (k : Config.Access) {ss : Size} {a : Dword}
    (v : BitVec ss.bits) {j : Nat} (hj : j < sizeBytes ss) (hram : s.kindAt (cellAt a j) = .ram) :
    (s.store ss a v).readByte k (a + BitVec.ofNat 32 j) = byteOf v j := by
  rw [State.readByte_ram ((s.store_kindAt ss a v _).trans hram)]
  exact (s.store_stored ss a v).written hwf j hj hram

/-! ## Loads -/

/-- Settles O18: the load is the same byte for byte, since no byte of it is one of the store's. -/
theorem storeLeavesOtherLoads : Obligations.StoreLeavesOtherLoads := by
  intro s k ss sz a b v hdisjoint
  refine eq_of_byteOf fun i hi => ?_
  rw [State.byteOf_load _ _ _ _ hi, State.byteOf_load _ _ _ _ hi]
  exact s.readByte_store_other k v (hdisjoint i hi)

/-- Settles O19: byte `j` is the byte read at `a + j`, which the kind of region there decides. -/
theorem loadReadsLittleEndian : Obligations.LoadReadsLittleEndian := by
  intro s k ss a j hj
  rw [State.byteOf_load _ _ _ _ hj]
  cases hkind : s.kindAt (cellAt a j) with
  | ram => exact State.readByte_ram hkind k
  | rom => exact State.readByte_rom hkind k
  | device => exact State.readByte_device hkind k
  | empty => exact State.readByte_empty hkind k

/-- Settles O20: each byte of the load is the byte of the value stored there; the bytes of one access stand at different
physical addresses (`State.store_stored`). -/
theorem storeThenLoadGivesValue : Obligations.StoreThenLoadGivesValue := by
  intro s k ss a v hwf hram
  refine eq_of_byteOf fun j hj => ?_
  rw [State.byteOf_load _ _ _ _ hj]
  exact State.readByte_store_same hwf k v hj (hram j hj)

end Sys2Proof.Machine
end

section
/-! PROOFS. The decoder's fields and operands read backwards: a byte is made of the fields cut from it, and a field or
operand that is accepted is the one the encoder writes (R94 to R100, R120). -/

namespace Sys2Proof

/-- Both parts of an accepted bind succeed. -/
theorem Except.of_bind_ok {α β ε : Type} {x : Except ε α} {f : α → Except ε β} {b : β} (h : x >>= f = .ok b) :
    ∃ a, x = .ok a ∧ f a = .ok b := by
  cases x with
  | ok a => exact ⟨a, rfl, h⟩
  | error e => cases h

/-! ## The bit fields of a byte -/

theorem bitField_lt (b : Byte) (lo len : Nat) : bitField b lo len < 2 ^ len := Nat.mod_lt _ (by positivity)

theorem testBit_bitField (b : Byte) (lo len i : Nat) :
    (bitField b lo len).testBit i = (decide (i < len) && b.getLsbD (lo + i)) := by
  rw [bitField, Nat.testBit_mod_two_pow, Nat.testBit_shiftRight, BitVec.testBit_toNat]

/-- Two adjacent fields are one field. -/
theorem bitField_add (b : Byte) (lo k l : Nat) :
    bitField b lo (k + l) = bitField b (lo + k) l <<< k ||| bitField b lo k := by
  apply Nat.eq_of_testBit_eq
  intro i
  simp only [Nat.testBit_or, Nat.testBit_shiftLeft, testBit_bitField]
  by_cases h : i < k
  · simp [h, show i < k + l by omega]
  · simp [h, show k ≤ i by omega, show lo + k + (i - k) = lo + i by omega, show i - k < l ↔ i < k + l by omega]

/-- A byte is its eight bits. -/
theorem ofNat_bitField (b : Byte) : BitVec.ofNat 8 (bitField b 0 8) = b := by
  rw [bitField, Nat.shiftRight_zero, Nat.mod_eq_of_lt b.isLt, BitVec.ofNat_toNat, BitVec.setWidth_eq]

theorem bitField_one (b : Byte) (lo : Nat) : bitField b lo 1 = (b.getLsbD lo).toNat := by
  apply Nat.eq_of_testBit_eq
  intro i
  rw [testBit_bitField, Nat.testBit_bool_toNat]
  by_cases h : i = 0 <;> simp [h]

/-- Byte1 of formats R, RM, UR and UM is made of its three fields (R102, R105, R109, R111). -/
theorem byte1_of_fields {b : Byte} {hi lo : Nat} {ss : Size} (hss : bitField b 0 2 = ss.code)
    (hlo : bitField b 2 3 = lo) (hhi : bitField b 5 3 = hi) : b = byte1 hi lo ss := by
  rw [byte1, ← hss, ← hlo, ← hhi, Nat.or_assoc, ← bitField_add b 0 2 3, ← bitField_add b 0 5 3, ofNat_bitField]

/-- Byte1 of format B, whose lowest bit is 0 (R113). -/
theorem branchByte_of_fields {b : Byte} {aaa : Nat} {cc : Cond} (hzero : bitField b 0 1 = 0)
    (hcc : bitField b 1 4 = cc.code) (haaa : bitField b 5 3 = aaa) :
    b = BitVec.ofNat 8 (aaa <<< 5 ||| cc.code <<< 1) := by
  have hlow : cc.code <<< 1 = bitField b 0 5 := by
    rw [bitField_add b 0 1 4, hzero, Nat.or_zero, Nat.zero_add, hcc]
  rw [hlow, ← haaa, ← bitField_add b 0 5 3, ofNat_bitField]

/-- Byte0 of formats R and of a single byte: the group and what is above it (R102, R119). -/
theorem byte0_of_group {b : Byte} {g : Nat} (hg : bitField b 0 2 = g) :
    b = BitVec.ofNat 8 (bitField b 2 6 <<< 2 ||| g) := by
  rw [← hg, ← bitField_add b 0 2 6, ofNat_bitField]

/-- Byte0 of format RM: the direction, the opcode and the group (R105). -/
theorem byte0_of_direction {b : Byte} {g : Nat} (hg : bitField b 0 2 = g) :
    b = BitVec.ofNat 8 ((b.getLsbD 7).toNat <<< 7 ||| bitField b 2 5 <<< 2 ||| g) := by
  rw [← hg, ← bitField_one, Nat.or_assoc, ← bitField_add b 0 2 5, ← bitField_add b 0 7 1, ofNat_bitField]

/-- Byte0 of formats UR, UM, B and N: the opcode, the sub-group and the group (R92). -/
theorem byte0_of_subgroup {b : Byte} {g k : Nat} (hg : bitField b 0 2 = g) (hk : bitField b 2 2 = k) :
    b = BitVec.ofNat 8 (bitField b 4 4 <<< 4 ||| (k <<< 2 ||| g)) := by
  rw [← hg, ← hk, ← bitField_add b 0 2 2, ← bitField_add b 0 4 4, ofNat_bitField]

/-! ## A field that decodes is the code of what it decodes to -/

theorem code_of_decodeSize : ∀ {n : Nat} {ss : Size}, decodeSize n = .ok ss → n = ss.code
  | 0, _, rfl | 1, _, rfl | 2, _, rfl => rfl

theorem code_of_decodeNSize : ∀ {n : Nat} {z : NSize}, decodeNSize n = .ok z → n = z.size.code
  | 0, _, rfl | 1, _, rfl => rfl

theorem code_of_decodeWSize : ∀ {n : Nat} {z : WSize}, decodeWSize n = .ok z → n = z.size.code
  | 1, _, rfl | 2, _, rfl => rfl

/-- A size of MLT, DIV or SDIV is one that `MLTDIV_SS` lists (R123). -/
theorem code_of_decodeMltDivSize {m : Config.MltDivSS} {n : Nat} {ss : Size} (h : decodeMltDivSize m n = .ok ss) :
    n = ss.code ∧ ss.mltDivLegal m = true := by
  rw [decodeMltDivSize] at h
  cases hsize : decodeSize n with
  | error e => rw [hsize] at h; cases h
  | ok z =>
    simp only [hsize] at h
    split at h
    · next hlegal => cases h; exact ⟨code_of_decodeSize hsize, hlegal⟩
    · cases h

theorem code_of_decodeField : ∀ {n : Nat} {r : RegField}, decodeField n = some r → n = r.code
  | 0, _, rfl | 1, _, rfl | 2, _, rfl | 3, _, rfl | 4, _, rfl | 5, _, rfl | 6, _, rfl => rfl

/-- The one 3-bit field that names no register is 111 (R97). -/
theorem eq_seven_of_decodeField : ∀ {n : Nat}, n < 8 → decodeField n = none → n = 7
  | 7, _, _ => rfl
  | 0, _, h | 1, _, h | 2, _, h | 3, _, h | 4, _, h | 5, _, h | 6, _, h => nomatch h

theorem code_of_decodeReg {n : Nat} {r : RegField} (h : decodeReg n = .ok r) : n = r.code := by
  rw [decodeReg] at h
  cases hfield : decodeField n with
  | none => rw [hfield] at h; cases h
  | some r' => rw [hfield] at h; cases h; exact code_of_decodeField hfield

theorem code_of_decodeCond : ∀ {n : Nat} {cc : Cond}, decodeCond n = .ok cc → n = cc.code
  | 0, _, rfl | 1, _, rfl | 2, _, rfl | 3, _, rfl | 4, _, rfl | 5, _, rfl | 6, _, rfl | 7, _, rfl | 15, _, rfl => rfl

/-! ## The operands that decode are the ones encoded -/

theorem bytes_of_take8 {tl rest : List Byte} {v : Byte} (h : take8 tl = .ok (v, rest)) : tl = v :: rest := by
  cases tl with
  | nil => cases h
  | cons b0 tl => cases h; rfl

/-- An immediate that was read fits its operand (R120). -/
theorem bytes_of_takeImm {ss : Size} {tl rest : List Byte} {v : Dword} (h : takeImm ss tl = .ok (v, rest)) :
    tl = bytesImm ss v ++ rest ∧ ss.immFits v = true := by
  cases ss with
  | byte =>
    obtain ⟨⟨n, tl'⟩, htake, h⟩ := Except.of_bind_ok h
    cases h
    have hfits : (n.setWidth 32).toNat < 2 ^ 8 := by bv_omega
    exact ⟨by simp [bytes_of_take8 htake, bytesImm], decide_eq_true hfits⟩
  | word =>
    obtain ⟨⟨n, tl'⟩, htake, h⟩ := Except.of_bind_ok h
    cases h
    have hfits : (n.setWidth 32).toNat < 2 ^ 16 := by bv_omega
    exact ⟨by simp [take16_eq htake, bytesImm], decide_eq_true hfits⟩
  | dword => exact ⟨take32_eq h, decide_eq_true v.isLt⟩

theorem bytes_of_decodeAddr {n : Nat} (hn : n < 8) {tl rest : List Byte} {ea : Addr}
    (h : decodeAddr n tl = .ok (ea, rest)) : n = ea.code ∧ tl = ea.bytes ++ rest := by
  match n, h with
  | 0, h | 1, h | 2, h | 3, h => cases h; exact ⟨rfl, rfl⟩
  | 4, h | 5, h | 6, h =>
    obtain ⟨⟨dd, tl'⟩, htake, h⟩ := Except.of_bind_ok h
    cases h
    exact ⟨rfl, take16_eq htake⟩
  | 7, h =>
    obtain ⟨⟨nnnn, tl'⟩, htake, h⟩ := Except.of_bind_ok h
    cases h
    exact ⟨rfl, take32_eq htake⟩

theorem bytes_of_decodeIndAddr {n : Nat} (hn : n < 8) {tl rest : List Byte} {ea : IndAddr}
    (h : decodeIndAddr n tl = .ok (ea, rest)) : n = ea.addr.code ∧ tl = ea.addr.bytes ++ rest := by
  obtain ⟨⟨a, tl'⟩, haddr, h⟩ := Except.of_bind_ok h
  cases a with
  | ind p => cases h; exact bytes_of_decodeAddr hn haddr
  | idx x dd => cases h; exact bytes_of_decodeAddr hn haddr
  | direct nnnn => cases h

/-- A register field or a trailing operand: the shape that a source, a count, a port, a target and a displacement share
(R97, R104, R115). -/
theorem field_or_trailing {α β : Type} {take : List Byte → Except Illegal (α × List Byte)} {ofField : RegField → β}
    {ofValue : α → β} {n : Nat} (hn : n < 8) {tl rest : List Byte} {x : β}
    (h : (match decodeField n with
      | some r => .ok (ofField r, tl)
      | none => do
        let (v, tl) ← take tl
        return (ofValue v, tl)) = (.ok (x, rest) : Except Illegal (β × List Byte))) :
    (∃ r : RegField, n = r.code ∧ x = ofField r ∧ tl = rest) ∨
      n = 7 ∧ ∃ v, x = ofValue v ∧ take tl = .ok (v, rest) := by
  cases hfield : decodeField n with
  | some r => rw [hfield] at h; cases h; exact .inl ⟨r, code_of_decodeField hfield, rfl, rfl⟩
  | none =>
    rw [hfield] at h
    obtain ⟨⟨v, tl'⟩, htake, h⟩ := Except.of_bind_ok h
    cases h
    exact .inr ⟨eq_seven_of_decodeField hn hfield, v, rfl, htake⟩

/-- A field names the same code as a word register (R94) and as an address register (R95). -/
theorem RegField.reg16_code (r : RegField) : r.reg16.code = r.code := by cases r <;> rfl

theorem RegField.reg32_code (r : RegField) : r.reg32.code = r.code := by cases r <;> rfl

theorem bytes_of_decodeSrc {ss : Size} {n : Nat} (hn : n < 8) {tl rest : List Byte} {x : Src}
    (h : decodeSrc ss n tl = .ok (x, rest)) : n = x.code ∧ tl = x.bytes ss ++ rest ∧ x.fits ss = true := by
  obtain ⟨r, rfl, rfl, rfl⟩ | ⟨rfl, v, rfl, htake⟩ := field_or_trailing hn h
  · exact ⟨rfl, rfl, rfl⟩
  · exact ⟨rfl, bytes_of_takeImm htake⟩

theorem bytes_of_decodeCount {n : Nat} (hn : n < 8) {tl rest : List Byte} {x : Count}
    (h : decodeCount n tl = .ok (x, rest)) : n = x.code ∧ tl = x.bytes ++ rest := by
  obtain ⟨r, rfl, rfl, rfl⟩ | ⟨rfl, v, rfl, htake⟩ := field_or_trailing hn h
  · exact ⟨rfl, rfl⟩
  · exact ⟨rfl, bytes_of_take8 htake⟩

theorem bytes_of_decodePort {n : Nat} (hn : n < 8) {tl rest : List Byte} {x : Port}
    (h : decodePort n tl = .ok (x, rest)) : n = x.code ∧ tl = x.bytes ++ rest := by
  obtain ⟨r, rfl, rfl, rfl⟩ | ⟨rfl, v, rfl, htake⟩ := field_or_trailing hn h
  · exact ⟨r.reg16_code.symm, rfl⟩
  · exact ⟨rfl, bytes_of_take8 htake⟩

theorem bytes_of_decodeTarget {n : Nat} (hn : n < 8) {tl rest : List Byte} {x : Target}
    (h : decodeTarget n tl = .ok (x, rest)) : n = x.code ∧ tl = x.bytes ++ rest := by
  obtain ⟨r, rfl, rfl, rfl⟩ | ⟨rfl, v, rfl, htake⟩ := field_or_trailing hn h
  · exact ⟨r.reg32_code.symm, rfl⟩
  · exact ⟨rfl, take32_eq htake⟩

theorem bytes_of_decodeDisp8 {n : Nat} (hn : n < 8) {tl rest : List Byte} {x : Disp8}
    (h : decodeDisp8 n tl = .ok (x, rest)) : n = x.code ∧ tl = x.bytes ++ rest := by
  obtain ⟨r, rfl, rfl, rfl⟩ | ⟨rfl, v, rfl, htake⟩ := field_or_trailing hn h
  · exact ⟨r.reg16_code.symm, rfl⟩
  · exact ⟨rfl, bytes_of_take8 htake⟩

theorem bytes_of_decodeDisp16 {n : Nat} (hn : n < 8) {tl rest : List Byte} {x : Disp16}
    (h : decodeDisp16 n tl = .ok (x, rest)) : n = x.code ∧ tl = x.bytes ++ rest := by
  obtain ⟨r, rfl, rfl, rfl⟩ | ⟨rfl, v, rfl, htake⟩ := field_or_trailing hn h
  · exact ⟨r.reg16_code.symm, rfl⟩
  · exact ⟨rfl, take16_eq htake⟩

/-- The register side of a format RM instruction with the bytes after the memory operand (R107). -/
theorem bytes_of_decodeMemForm {ss : Size} {d : Bool} {n : Nat} (hn : n < 8) {tl rest : List Byte} {form : MemForm}
    (h : decodeMemForm ss d n tl = .ok (form, rest)) : ∃ trailing, tl = trailing ++ rest ∧ form.fits ss = true ∧
      ∀ op ea, encodeMSrc op ss ea form = encodeRM op d ea n ss trailing := by
  cases d with
  | false =>
    obtain ⟨⟨src, tl'⟩, hsrc, h⟩ := Except.of_bind_ok h
    cases h
    obtain ⟨rfl, rfl, hfits⟩ := bytes_of_decodeSrc hn hsrc
    exact ⟨_, rfl, hfits, fun _ _ => rfl⟩
  | true =>
    obtain ⟨r, hr, h⟩ := Except.of_bind_ok h
    cases h
    cases code_of_decodeReg hr
    exact ⟨[], rfl, rfl, fun _ _ => rfl⟩

/-- The same for the bit, shift and rotate instructions (R236, R240). -/
theorem bytes_of_decodeCountForm {d : Bool} {n : Nat} (hn : n < 8) {tl rest : List Byte} {form : CountForm}
    (h : decodeCountForm d n tl = .ok (form, rest)) : ∃ trailing, tl = trailing ++ rest ∧
      ∀ op ss ea, encodeMCount op ss ea form = encodeRM op d ea n ss trailing := by
  cases d with
  | false =>
    obtain ⟨⟨x, tl'⟩, hx, h⟩ := Except.of_bind_ok h
    cases h
    obtain ⟨rfl, rfl⟩ := bytes_of_decodeCount hn hx
    exact ⟨_, rfl, fun _ _ _ => rfl⟩
  | true =>
    obtain ⟨r, hr, h⟩ := Except.of_bind_ok h
    cases h
    cases code_of_decodeReg hr
    exact ⟨[], rfl, fun _ _ _ => rfl⟩

end Sys2Proof
end

section
/-! PROOFS. Accepted bytes are the encoding of a well-formed instruction: each format from its fields, each operand
layout from its operands, each format's opcode table, then the first byte (R92, R103, R106, R110, R112, R114, R117 to R119). In
a split of an opcode table the cases stand in the order of the table's rows, the last being the unassigned ones. -/

namespace Sys2Proof

/-! ## Bytes that spell an instruction -/

/-- The bytes are the encoding of a well-formed instruction, and the rest. -/
structure Spells (m : Config.MltDivSS) (bytes : List Byte) (i : Instr) (rest : List Byte) : Prop where
  bytes_eq : bytes = encode i ++ rest
  wf : i.wf m = true

section Formats

variable {m : Config.MltDivSS} {b1 : Byte} {i : Instr} {ss : Size} {trailing rest : List Byte}

/-- Format R (R102). -/
theorem spells_encodeR {op sss ddd : Nat} (henc : encode i = encodeR op sss ddd ss trailing) (hwf : i.wf m = true)
    (hss : bitField b1 0 2 = ss.code) (hlo : bitField b1 2 3 = ddd) (hhi : bitField b1 5 3 = sss) :
    Spells m (BitVec.ofNat 8 (op <<< 2) :: b1 :: (trailing ++ rest)) i rest :=
  ⟨by rw [henc, encodeR_append, encodeR, ← byte1_of_fields hss hlo hhi], hwf⟩

/-- Format RM (R105). -/
theorem spells_encodeRM {op rrr : Nat} {d : Bool} {ea : Addr} (henc : encode i = encodeRM op d ea rrr ss trailing)
    (hwf : i.wf m = true) (hss : bitField b1 0 2 = ss.code) (hlo : bitField b1 2 3 = rrr)
    (hhi : bitField b1 5 3 = ea.code) :
    Spells m (BitVec.ofNat 8 (d.toNat <<< 7 ||| op <<< 2 ||| 1) :: b1 :: (ea.bytes ++ (trailing ++ rest))) i rest :=
  ⟨by rw [henc, encodeRM_append, encodeRM, ← byte1_of_fields hss hlo hhi], hwf⟩

/-- Format UR (R109). -/
theorem spells_encodeUR {op fn rrr : Nat} (henc : encode i = encodeUR op fn rrr ss trailing) (hwf : i.wf m = true)
    (hss : bitField b1 0 2 = ss.code) (hlo : bitField b1 2 3 = rrr) (hhi : bitField b1 5 3 = fn) :
    Spells m (BitVec.ofNat 8 (op <<< 4 ||| 0x02) :: b1 :: (trailing ++ rest)) i rest :=
  ⟨by rw [henc, encodeUR_append, encodeUR, ← byte1_of_fields hss hlo hhi], hwf⟩

/-- Format UM (R111). -/
theorem spells_encodeUM {op fn : Nat} {ea : Addr} (henc : encode i = encodeUM op fn ea ss) (hwf : i.wf m = true)
    (hss : bitField b1 0 2 = ss.code) (hlo : bitField b1 2 3 = fn) (hhi : bitField b1 5 3 = ea.code) :
    Spells m (BitVec.ofNat 8 (op <<< 4 ||| 0x06) :: b1 :: (ea.bytes ++ rest)) i rest :=
  ⟨by rw [henc, encodeUM, ← byte1_of_fields hss hlo hhi]; rfl, hwf⟩

/-- Format B (R113). -/
theorem spells_encodeB {op aaa : Nat} {cc : Cond} (henc : encode i = encodeB op aaa cc trailing) (hwf : i.wf m = true)
    (hzero : bitField b1 0 1 = 0) (hcc : bitField b1 1 4 = cc.code) (haaa : bitField b1 5 3 = aaa) :
    Spells m (BitVec.ofNat 8 (op <<< 4 ||| 0x0A) :: b1 :: (trailing ++ rest)) i rest :=
  ⟨by rw [henc, encodeB_append, encodeB, ← branchByte_of_fields hzero hcc haaa], hwf⟩

/-- Format N (R116). -/
theorem spells_encodeN {op fn : Nat} (henc : encode i = encodeN op fn trailing) (hwf : i.wf m = true)
    (hfn : b1.toNat = fn) : Spells m (BitVec.ofNat 8 (op <<< 4 ||| 0x0E) :: b1 :: (trailing ++ rest)) i rest :=
  ⟨by rw [henc, encodeN_append, encodeN, ← hfn, BitVec.ofNat_toNat, BitVec.setWidth_eq], hwf⟩

end Formats

/-! ## Operand layouts

For a constructor `f` whose encoding has the layout, whatever the layout's decoder accepts spells an instruction. -/

section Layouts

variable {m : Config.MltDivSS} {b1 : Byte} {tl rest : List Byte} {i : Instr}

theorem spells_of_decodeRSrc {op : Nat} {f : Size → RegField → Src → Instr}
    (h : decodeRSrc f b1 tl = .ok (i, rest))
    (henc : ∀ ss d src, encode (f ss d src) = encodeR op src.code d.code ss (src.bytes ss))
    (hwf : ∀ ss d src, (f ss d src).wf m = src.fits ss) :
    Spells m (BitVec.ofNat 8 (op <<< 2) :: b1 :: tl) i rest := by
  obtain ⟨ss, hss, h⟩ := Except.of_bind_ok h
  obtain ⟨d, hd, h⟩ := Except.of_bind_ok h
  obtain ⟨⟨src, tl'⟩, hsrc, h⟩ := Except.of_bind_ok h
  cases h
  obtain ⟨hcode, rfl, hfits⟩ := bytes_of_decodeSrc (bitField_lt ..) hsrc
  exact spells_encodeR (henc ..) ((hwf ..).trans hfits) (code_of_decodeSize hss) (code_of_decodeReg hd) hcode

theorem spells_of_decodeRCount {op : Nat} {f : Size → RegField → Count → Instr}
    (h : decodeRCount f b1 tl = .ok (i, rest))
    (henc : ∀ ss d n, encode (f ss d n) = encodeR op n.code d.code ss n.bytes)
    (hwf : ∀ ss d n, (f ss d n).wf m = true) :
    Spells m (BitVec.ofNat 8 (op <<< 2) :: b1 :: tl) i rest := by
  obtain ⟨ss, hss, h⟩ := Except.of_bind_ok h
  obtain ⟨d, hd, h⟩ := Except.of_bind_ok h
  obtain ⟨⟨n, tl'⟩, hn, h⟩ := Except.of_bind_ok h
  cases h
  obtain ⟨hcode, rfl⟩ := bytes_of_decodeCount (bitField_lt ..) hn
  exact spells_encodeR (henc ..) (hwf ..) (code_of_decodeSize hss) (code_of_decodeReg hd) hcode

theorem spells_of_decodeMSrc {op : Nat} {d : Bool} {f : Size → Addr → MemForm → Instr}
    (h : decodeMSrc f d b1 tl = .ok (i, rest))
    (henc : ∀ ss ea form, encode (f ss ea form) = encodeMSrc op ss ea form)
    (hwf : ∀ ss ea form, (f ss ea form).wf m = form.fits ss) :
    Spells m (BitVec.ofNat 8 (d.toNat <<< 7 ||| op <<< 2 ||| 1) :: b1 :: tl) i rest := by
  obtain ⟨ss, hss, h⟩ := Except.of_bind_ok h
  obtain ⟨⟨ea, tl'⟩, hea, h⟩ := Except.of_bind_ok h
  obtain ⟨⟨form, tl''⟩, hform, h⟩ := Except.of_bind_ok h
  cases h
  obtain ⟨hcode, rfl⟩ := bytes_of_decodeAddr (bitField_lt ..) hea
  obtain ⟨trailing, rfl, hfits, hencM⟩ := bytes_of_decodeMemForm (bitField_lt ..) hform
  exact spells_encodeRM ((henc ..).trans (hencM ..)) ((hwf ..).trans hfits) (code_of_decodeSize hss) rfl hcode

theorem spells_of_decodeMCount {op : Nat} {d : Bool} {f : Size → Addr → CountForm → Instr}
    (h : decodeMCount f d b1 tl = .ok (i, rest))
    (henc : ∀ ss ea form, encode (f ss ea form) = encodeMCount op ss ea form)
    (hwf : ∀ ss ea form, (f ss ea form).wf m = true) :
    Spells m (BitVec.ofNat 8 (d.toNat <<< 7 ||| op <<< 2 ||| 1) :: b1 :: tl) i rest := by
  obtain ⟨ss, hss, h⟩ := Except.of_bind_ok h
  obtain ⟨⟨ea, tl'⟩, hea, h⟩ := Except.of_bind_ok h
  obtain ⟨⟨form, tl''⟩, hform, h⟩ := Except.of_bind_ok h
  cases h
  obtain ⟨hcode, rfl⟩ := bytes_of_decodeAddr (bitField_lt ..) hea
  obtain ⟨trailing, rfl, hencM⟩ := bytes_of_decodeCountForm (bitField_lt ..) hform
  exact spells_encodeRM ((henc ..).trans (hencM ..)) (hwf ..) (code_of_decodeSize hss) rfl hcode

theorem spells_of_decodeURSized {op fn : Nat} {f : Size → RegField → Instr} (h : decodeURSized f b1 tl = .ok (i, rest))
    (hfn : bitField b1 5 3 = fn) (henc : ∀ ss r, encode (f ss r) = encodeUR op fn r.code ss [])
    (hwf : ∀ ss r, (f ss r).wf m = true) :
    Spells m (BitVec.ofNat 8 (op <<< 4 ||| 0x02) :: b1 :: tl) i rest := by
  obtain ⟨ss, hss, h⟩ := Except.of_bind_ok h
  obtain ⟨r, hr, h⟩ := Except.of_bind_ok h
  cases h
  exact spells_encodeUR (henc ..) (hwf ..) (code_of_decodeSize hss) (code_of_decodeReg hr) hfn

theorem spells_of_decodeURWide {op fn : Nat} {f : WSize → RegField → Instr} (h : decodeURWide f b1 tl = .ok (i, rest))
    (hfn : bitField b1 5 3 = fn) (henc : ∀ z r, encode (f z r) = encodeUR op fn r.code z.size [])
    (hwf : ∀ z r, (f z r).wf m = true) :
    Spells m (BitVec.ofNat 8 (op <<< 4 ||| 0x02) :: b1 :: tl) i rest := by
  obtain ⟨z, hz, h⟩ := Except.of_bind_ok h
  obtain ⟨r, hr, h⟩ := Except.of_bind_ok h
  cases h
  exact spells_encodeUR (henc ..) (hwf ..) (code_of_decodeWSize hz) (code_of_decodeReg hr) hfn

theorem spells_of_decodeURMltDiv {op fn : Nat} {f : Size → RegField → Instr}
    (h : decodeURMltDiv m f b1 tl = .ok (i, rest)) (hfn : bitField b1 5 3 = fn)
    (henc : ∀ ss r, encode (f ss r) = encodeUR op fn r.code ss [])
    (hwf : ∀ ss r, (f ss r).wf m = ss.mltDivLegal m) :
    Spells m (BitVec.ofNat 8 (op <<< 4 ||| 0x02) :: b1 :: tl) i rest := by
  obtain ⟨ss, hss, h⟩ := Except.of_bind_ok h
  obtain ⟨r, hr, h⟩ := Except.of_bind_ok h
  cases h
  obtain ⟨hsize, hlegal⟩ := code_of_decodeMltDivSize hss
  exact spells_encodeUR (henc ..) ((hwf ..).trans hlegal) hsize (code_of_decodeReg hr) hfn

theorem spells_of_decodeUMSized {op fn : Nat} {f : Size → Addr → Instr} (h : decodeUMSized f b1 tl = .ok (i, rest))
    (hfn : bitField b1 2 3 = fn) (henc : ∀ ss ea, encode (f ss ea) = encodeUM op fn ea ss)
    (hwf : ∀ ss ea, (f ss ea).wf m = true) :
    Spells m (BitVec.ofNat 8 (op <<< 4 ||| 0x06) :: b1 :: tl) i rest := by
  obtain ⟨ss, hss, h⟩ := Except.of_bind_ok h
  obtain ⟨⟨ea, tl'⟩, hea, h⟩ := Except.of_bind_ok h
  cases h
  obtain ⟨hcode, rfl⟩ := bytes_of_decodeAddr (bitField_lt ..) hea
  exact spells_encodeUM (henc ..) (hwf ..) (code_of_decodeSize hss) hfn hcode

theorem spells_of_decodeUMMltDiv {op fn : Nat} {f : Size → IndAddr → Instr}
    (h : decodeUMMltDiv m f b1 tl = .ok (i, rest)) (hfn : bitField b1 2 3 = fn)
    (henc : ∀ ss ea, encode (f ss ea) = encodeUM op fn ea.addr ss)
    (hwf : ∀ ss ea, (f ss ea).wf m = ss.mltDivLegal m) :
    Spells m (BitVec.ofNat 8 (op <<< 4 ||| 0x06) :: b1 :: tl) i rest := by
  obtain ⟨ss, hss, h⟩ := Except.of_bind_ok h
  obtain ⟨⟨ea, tl'⟩, hea, h⟩ := Except.of_bind_ok h
  cases h
  obtain ⟨hsize, hlegal⟩ := code_of_decodeMltDivSize hss
  obtain ⟨hcode, rfl⟩ := bytes_of_decodeIndAddr (bitField_lt ..) hea
  exact spells_encodeUM (henc ..) ((hwf ..).trans hlegal) hsize hfn hcode

theorem spells_of_decodeBTarget {op : Nat} {f : Cond → Target → Instr} (h : decodeBTarget f b1 tl = .ok (i, rest))
    (hzero : bitField b1 0 1 = 0) (henc : ∀ cc t, encode (f cc t) = encodeB op t.code cc t.bytes)
    (hwf : ∀ cc t, (f cc t).wf m = true) :
    Spells m (BitVec.ofNat 8 (op <<< 4 ||| 0x0A) :: b1 :: tl) i rest := by
  obtain ⟨cc, hcc, h⟩ := Except.of_bind_ok h
  obtain ⟨⟨t, tl'⟩, ht, h⟩ := Except.of_bind_ok h
  cases h
  obtain ⟨hcode, rfl⟩ := bytes_of_decodeTarget (bitField_lt ..) ht
  exact spells_encodeB (henc ..) (hwf ..) hzero (code_of_decodeCond hcc) hcode

theorem spells_of_decodeBDisp8 {op : Nat} {f : Cond → Disp8 → Instr} (h : decodeBDisp8 f b1 tl = .ok (i, rest))
    (hzero : bitField b1 0 1 = 0) (henc : ∀ cc e, encode (f cc e) = encodeB op e.code cc e.bytes)
    (hwf : ∀ cc e, (f cc e).wf m = true) :
    Spells m (BitVec.ofNat 8 (op <<< 4 ||| 0x0A) :: b1 :: tl) i rest := by
  obtain ⟨cc, hcc, h⟩ := Except.of_bind_ok h
  obtain ⟨⟨e, tl'⟩, he, h⟩ := Except.of_bind_ok h
  cases h
  obtain ⟨hcode, rfl⟩ := bytes_of_decodeDisp8 (bitField_lt ..) he
  exact spells_encodeB (henc ..) (hwf ..) hzero (code_of_decodeCond hcc) hcode

theorem spells_of_decodeBDisp16 {op : Nat} {f : Cond → Disp16 → Instr} (h : decodeBDisp16 f b1 tl = .ok (i, rest))
    (hzero : bitField b1 0 1 = 0) (henc : ∀ cc e, encode (f cc e) = encodeB op e.code cc e.bytes)
    (hwf : ∀ cc e, (f cc e).wf m = true) :
    Spells m (BitVec.ofNat 8 (op <<< 4 ||| 0x0A) :: b1 :: tl) i rest := by
  obtain ⟨cc, hcc, h⟩ := Except.of_bind_ok h
  obtain ⟨⟨e, tl'⟩, he, h⟩ := Except.of_bind_ok h
  cases h
  obtain ⟨hcode, rfl⟩ := bytes_of_decodeDisp16 (bitField_lt ..) he
  exact spells_encodeB (henc ..) (hwf ..) hzero (code_of_decodeCond hcc) hcode

theorem spells_of_decodeBReturn {op : Nat} {f : Cond → Instr} (h : decodeBReturn f b1 tl = .ok (i, rest))
    (hzero : bitField b1 0 1 = 0) (henc : ∀ cc, encode (f cc) = encodeB op 0 cc [])
    (hwf : ∀ cc, (f cc).wf m = true) :
    Spells m (BitVec.ofNat 8 (op <<< 4 ||| 0x0A) :: b1 :: tl) i rest := by
  obtain ⟨cc, hcc, h⟩ := Except.of_bind_ok h
  rw [decodeReturn] at h
  split at h
  · next haaa => cases h; exact spells_encodeB (henc ..) (hwf ..) hzero (code_of_decodeCond hcc) haaa
  · cases h

/-! ## The formats by opcode -/

theorem spells_of_decodeR : ∀ {op : Nat}, decodeR op b1 tl = .ok (i, rest) →
    Spells m (BitVec.ofNat 8 (op <<< 2) :: b1 :: tl) i rest
  | 0, h | 4, h | 5, h | 6, h | 7, h | 8, h | 9, h | 10, h | 11, h | 12, h =>
    spells_of_decodeRSrc h (fun _ _ _ => rfl) (fun _ _ _ => rfl)
  | 1, h => by -- EX
    obtain ⟨ss, hss, h⟩ := Except.of_bind_ok h
    obtain ⟨d, hd, h⟩ := Except.of_bind_ok h
    obtain ⟨r, hr, h⟩ := Except.of_bind_ok h
    cases h
    exact spells_encodeR (trailing := []) rfl rfl (code_of_decodeSize hss) (code_of_decodeReg hd) (code_of_decodeReg hr)
  | 2, h => by -- IN
    obtain ⟨z, hz, h⟩ := Except.of_bind_ok h
    obtain ⟨d, hd, h⟩ := Except.of_bind_ok h
    obtain ⟨⟨port, tl'⟩, hport, h⟩ := Except.of_bind_ok h
    cases h
    obtain ⟨hcode, rfl⟩ := bytes_of_decodePort (bitField_lt ..) hport
    exact spells_encodeR rfl rfl (code_of_decodeNSize hz) (code_of_decodeReg hd) hcode
  | 3, h => by -- OUT
    obtain ⟨z, hz, h⟩ := Except.of_bind_ok h
    obtain ⟨r, hr, h⟩ := Except.of_bind_ok h
    obtain ⟨⟨port, tl'⟩, hport, h⟩ := Except.of_bind_ok h
    cases h
    obtain ⟨hcode, rfl⟩ := bytes_of_decodePort (bitField_lt ..) hport
    exact spells_encodeR rfl rfl (code_of_decodeNSize hz) hcode (code_of_decodeReg hr)
  | 13, h | 14, h | 15, h | 16, h | 17, h | 18, h | 19, h | 20, h | 21, h | 22, h =>
    spells_of_decodeRCount h (fun _ _ _ => rfl) (fun _ _ _ => rfl)
  | _ + 23, h => nomatch h

theorem spells_of_decodeRM {d : Bool} : ∀ {op : Nat}, decodeRM op d b1 tl = .ok (i, rest) →
    Spells m (BitVec.ofNat 8 (d.toNat <<< 7 ||| op <<< 2 ||| 1) :: b1 :: tl) i rest
  | 0, h | 4, h | 5, h | 6, h | 7, h | 8, h | 9, h | 10, h | 11, h | 12, h =>
    spells_of_decodeMSrc h (fun _ _ _ => rfl) (fun _ _ _ => rfl)
  | 1, h => by -- EX
    obtain ⟨ss, hss, h⟩ := Except.of_bind_ok h
    obtain ⟨r, hr, h⟩ := Except.of_bind_ok h
    obtain ⟨⟨ea, tl'⟩, hea, h⟩ := Except.of_bind_ok h
    cases h
    obtain ⟨hcode, rfl⟩ := bytes_of_decodeIndAddr (bitField_lt ..) hea
    exact spells_encodeRM (trailing := []) rfl rfl (code_of_decodeSize hss) (code_of_decodeReg hr) hcode
  | 13, h | 14, h | 15, h | 16, h | 17, h | 18, h | 19, h | 20, h | 21, h | 22, h =>
    spells_of_decodeMCount h (fun _ _ _ => rfl) (fun _ _ _ => rfl)
  | 2, h | 3, h | _ + 23, h => nomatch h

theorem spells_of_decodeUR {op : Nat} (h : decodeUR m op b1 tl = .ok (i, rest)) :
    Spells m (BitVec.ofNat 8 (op <<< 4 ||| 0x02) :: b1 :: tl) i rest := by
  unfold decodeUR at h
  split at h
  case h_1 hfn | h_8 hfn => exact spells_of_decodeURWide h hfn (fun _ _ => rfl) (fun _ _ => rfl)
  case h_2 hfn | h_5 hfn | h_6 hfn | h_7 hfn | h_12 hfn =>
    exact spells_of_decodeURSized h hfn (fun _ _ => rfl) (fun _ _ => rfl)
  case h_3 hfn => -- PUSH
    obtain ⟨ss, hss, h⟩ := Except.of_bind_ok h
    obtain ⟨⟨src, tl'⟩, hsrc, h⟩ := Except.of_bind_ok h
    cases h
    obtain ⟨hcode, rfl, hfits⟩ := bytes_of_decodeSrc (bitField_lt ..) hsrc
    exact spells_encodeUR rfl hfits (code_of_decodeSize hss) hcode hfn
  case h_4 hfn => -- POP, of dword size alone (R122)
    split at h
    · next hsize =>
      obtain ⟨r, hr, h⟩ := Except.of_bind_ok h
      cases h
      exact spells_encodeUR (ss := .dword) (trailing := []) rfl rfl hsize
        ((code_of_decodeReg hr).trans r.reg32_code.symm) hfn
    · cases h
  case h_9 hfn | h_10 hfn | h_11 hfn => exact spells_of_decodeURMltDiv h hfn (fun _ _ => rfl) (fun _ _ => rfl)
  case h_13 => cases h

theorem spells_of_decodeUM {op : Nat} (h : decodeUM m op b1 tl = .ok (i, rest)) :
    Spells m (BitVec.ofNat 8 (op <<< 4 ||| 0x06) :: b1 :: tl) i rest := by
  unfold decodeUM at h
  split at h
  case h_1 hfn => -- EXH
    obtain ⟨ss, hss, h⟩ := Except.of_bind_ok h
    obtain ⟨⟨ea, tl'⟩, hea, h⟩ := Except.of_bind_ok h
    cases h
    obtain ⟨hcode, rfl⟩ := bytes_of_decodeIndAddr (bitField_lt ..) hea
    exact spells_encodeUM rfl rfl (code_of_decodeSize hss) hfn hcode
  case h_2 hfn | h_3 hfn | h_4 hfn | h_9 hfn => exact spells_of_decodeUMSized h hfn (fun _ _ => rfl) (fun _ _ => rfl)
  case h_5 hfn => -- EXT
    obtain ⟨z, hz, h⟩ := Except.of_bind_ok h
    obtain ⟨⟨ea, tl'⟩, hea, h⟩ := Except.of_bind_ok h
    cases h
    obtain ⟨hcode, rfl⟩ := bytes_of_decodeIndAddr (bitField_lt ..) hea
    exact spells_encodeUM rfl rfl (code_of_decodeWSize hz) hfn hcode
  case h_6 hfn | h_7 hfn | h_8 hfn => exact spells_of_decodeUMMltDiv h hfn (fun _ _ => rfl) (fun _ _ => rfl)
  case h_10 => cases h

theorem spells_of_decodeB {op : Nat} (h : decodeB op b1 tl = .ok (i, rest)) :
    Spells m (BitVec.ofNat 8 (op <<< 4 ||| 0x0A) :: b1 :: tl) i rest := by
  unfold decodeB at h
  split at h
  case h_1 hzero | h_4 hzero => exact spells_of_decodeBTarget h hzero (fun _ _ => rfl) (fun _ _ => rfl)
  case h_2 hzero | h_5 hzero => exact spells_of_decodeBDisp8 h hzero (fun _ _ => rfl) (fun _ _ => rfl)
  case h_3 hzero | h_6 hzero => exact spells_of_decodeBDisp16 h hzero (fun _ _ => rfl) (fun _ _ => rfl)
  case h_7 hzero | h_8 hzero | h_9 hzero => exact spells_of_decodeBReturn h hzero (fun _ => rfl) (fun _ => rfl)
  case h_10 => cases h

/-- The twenty byte block operations stand in the list at their function codes (R117). -/
theorem encode_of_byteBlock {fn : Nat} (h : byteBlock[fn]? = some i) : encode i = encodeN 0 fn [] ∧ i.wf m = true := by
  have hlt : fn < 20 := (List.getElem?_eq_some_iff.mp h).1
  interval_cases fn <;> (cases h; exact ⟨rfl, rfl⟩)

theorem encode_of_wordBlock {fn : Nat} (h : wordBlock[fn]? = some i) : encode i = encodeN 1 fn [] ∧ i.wf m = true := by
  have hlt : fn < 20 := (List.getElem?_eq_some_iff.mp h).1
  interval_cases fn <;> (cases h; exact ⟨rfl, rfl⟩)

theorem spells_of_decodeN {op : Nat} (h : decodeN op b1 tl = .ok (i, rest)) :
    Spells m (BitVec.ofNat 8 (op <<< 4 ||| 0x0E) :: b1 :: tl) i rest := by
  unfold decodeN at h
  split at h
  case h_1 =>
    split at h
    · next hblock =>
      cases h
      obtain ⟨henc, hwf⟩ := encode_of_byteBlock hblock
      exact spells_encodeN (trailing := []) henc hwf rfl
    · cases h
  case h_2 =>
    split at h
    · next hblock =>
      cases h
      obtain ⟨henc, hwf⟩ := encode_of_wordBlock hblock
      exact spells_encodeN (trailing := []) henc hwf rfl
    · cases h
  case h_5 hfn => -- RST
    obtain ⟨⟨n, tl'⟩, htake, h⟩ := Except.of_bind_ok h
    cases h
    cases bytes_of_take8 htake
    exact spells_encodeN (trailing := [n]) rfl rfl hfn
  case h_16 hfn => -- LD I
    obtain ⟨⟨nn, tl'⟩, htake, h⟩ := Except.of_bind_ok h
    cases h
    cases take16_eq htake
    exact spells_encodeN rfl rfl hfn
  case h_19 => cases h
  all_goals -- the operations without an operand
    next hfn =>
      cases h
      exact spells_encodeN (trailing := []) rfl rfl hfn

/-- The single-byte format, by the bits above the group (R119). -/
theorem spells_of_decodeSB : ∀ {op : Nat}, decodeSB op tl = .ok (i, rest) →
    Spells m (BitVec.ofNat 8 (op <<< 2 ||| 3) :: tl) i rest
  | 3, h => by cases h; exact ⟨rfl, rfl⟩
  | 7, h | 11, h => by
    obtain ⟨⟨e, tl'⟩, htake, h⟩ := Except.of_bind_ok h
    cases h
    cases bytes_of_take8 htake
    exact ⟨rfl, rfl⟩
  | 0, h | 1, h | 2, h | 4, h | 5, h | 6, h | 8, h | 9, h | 10, h | _ + 12, h => nomatch h

/-! ## The first byte -/

/-- A group and sub-group select one format, whose first byte is the one that was read (R92). -/
theorem spells_of_decodeWord {b0 : Byte} (hg : bitField b0 0 2 ≠ 3) (h : decodeWord m b0 b1 tl = .ok (i, rest)) :
    Spells m (b0 :: b1 :: tl) i rest := by
  have htwo : bitField b0 0 2 ≠ 0 → bitField b0 0 2 ≠ 1 → bitField b0 0 2 = 2 := by
    have := bitField_lt b0 0 2
    omega
  have hthree : bitField b0 2 2 ≠ 0 → bitField b0 2 2 ≠ 1 → bitField b0 2 2 ≠ 2 → bitField b0 2 2 = 3 := by
    have := bitField_lt b0 2 2
    omega
  unfold decodeWord at h
  split at h
  case h_1 h0 => rw [byte0_of_group h0, Nat.or_zero]; exact spells_of_decodeR h
  case h_2 h1 => rw [byte0_of_direction h1]; exact spells_of_decodeRM h
  case h_3 hk h0 h1 =>
    rw [byte0_of_subgroup (htwo h0 h1) hk]; exact spells_of_decodeUR h
  case h_4 hk h0 h1 =>
    rw [byte0_of_subgroup (htwo h0 h1) hk]; exact spells_of_decodeUM h
  case h_5 hk h0 h1 =>
    rw [byte0_of_subgroup (htwo h0 h1) hk]; exact spells_of_decodeB h
  case h_6 h0 h1 hk0 hk1 hk2 =>
    rw [byte0_of_subgroup (htwo h0 h1) (hthree hk0 hk1 hk2)]; exact spells_of_decodeN h

/-- Every accepted byte sequence is the encoding of a well-formed instruction, and the rest (R90). -/
theorem spells_of_decode : ∀ {bytes : List Byte}, decode m bytes = .ok (i, rest) → Spells m bytes i rest
  | [], h => nomatch h
  | b0 :: tl, h => by
    simp only [decode] at h
    split at h
    · next hg => rw [byte0_of_group hg]; exact spells_of_decodeSB h
    · next hg =>
      cases tl with
      | nil => cases h
      | cons b1 tl => exact spells_of_decodeWord hg h

end Layouts

end Sys2Proof
end

section
/-! PROOFS. The statements on the encoding: the codec's round trip, bytes that spell no instruction, the words of the
manual, and the values of the operands. -/

namespace Sys2Proof.Machine

/-! ## The decoder -/

/-- Settles O15: `decode_encode`, by cases on the instruction. -/
theorem decodeOfEncode : Obligations.DecodeOfEncode := fun _ _ rest hwf => decode_encode hwf rest

/-- Settles O16: `spells_of_decode`, by the first byte's group, then each format's opcode table. -/
theorem decodedBytesAreTheEncoding : Obligations.DecodedBytesAreTheEncoding := fun _ _ _ _ h =>
  have hspells := spells_of_decode h
  ⟨hspells.bytes_eq, hspells.wf⟩

/-- Settles O17: eleven closed words, each evaluated. -/
theorem manualExamplesDecode : Obligations.ManualExamplesDecode :=
  ⟨rfl, rfl, rfl, rfl, rfl, rfl, rfl, rfl, rfl, rfl, rfl⟩

/-! ## The step -/

/-- Settles O7. -/
theorem stepWithoutInstruction : Obligations.StepWithoutInstruction :=
  ⟨fun _ _ hrun hdec => step_of_decode_error hrun hdec, fun _ hhalt => step_of_halted hhalt⟩

/-! ## Operands -/

/-- An immediate is the number its low `W` bits spell (R120). -/
theorem State.srcVal_imm_toNat (s : State) (ss : Size) (v : Dword) :
    (s.srcVal ss (.imm v)).toNat = v.toNat % 2 ^ ss.bits := BitVec.toNat_setWidth ..

/-- A port number is zero-extended (R104, D32). -/
theorem State.portVal_imm_toNat (s : State) (n : Byte) : (s.portVal (.imm n)).toNat = n.toNat :=
  BitVec.toNat_setWidth_of_le (by decide)

/-- Settles O22: sign extension before the sum is the sum of integers modulo 2^32 (`add_signExtend`), an immediate is
cut and a port number zero-extended; everything else is the register or the operand itself. -/
theorem operandValues : Obligations.OperandValues := by
  intro s
  refine ⟨fun dd => ⟨add_signExtend _ dd, add_signExtend _ dd, add_signExtend _ dd⟩, rfl, rfl, rfl, rfl,
    fun _ => ⟨rfl, rfl⟩, fun _ => rfl, fun _ => rfl, s.srcVal_imm_toNat, fun _ _ => ⟨rfl, rfl⟩, fun _ _ => rfl,
    s.portVal_imm_toNat, rfl⟩

end Sys2Proof.Machine
end

section
/-! PROOFS. The statements on data transfer (R140 to R150): loads, exchanges, the stack and the ports. What a register
write, a store, a push and a port access do is said by `State.setReg_written`, `State.store_stored`,
`State.push32_pushed`, `State.ioRead_eq` and `ioPart_setWidth`; here stands which of them each instruction makes. -/

namespace Sys2Proof.Machine

/-! ## Loads -/

/-- Settles O26: each form is one register write or one store, of the source value. -/
theorem loadCopies : Obligations.LoadCopies := by
  refine ⟨fun ss d src s => ?toRegister, fun ss ea d s => ?fromMemory, fun ss ea src s => ?toMemory⟩
  case toRegister => exact ⟨_, rfl, s.setReg_written ss d (s.srcVal ss src)⟩
  case fromMemory => exact ⟨_, rfl, s.setReg_written ss d (s.load .data ss (s.ea ea))⟩
  case toMemory =>
    have hstored := s.store_stored ss (s.ea ea) (s.srcVal ss src)
    exact ⟨_, rfl, hstored, s.store_rest ss (s.ea ea) (s.srcVal ss src)⟩

/-! ## Exchanges of two registers, and of a register with memory -/

/-- Two writes that exchange registers other than AF read back exchanged (R142): the second write is to another
register, or to the same one and of its own value. -/
theorem State.getReg_exchanged (s : State) {ss : Size} {d r : RegField} (h : ss = .dword → d ≠ .r0 ∧ r ≠ .r0) :
    ((s.setReg ss d (s.getReg ss r)).setReg ss r (s.getReg ss d)).getReg ss d = s.getReg ss r ∧
    ((s.setReg ss d (s.getReg ss r)).setReg ss r (s.getReg ss d)).getReg ss r = s.getReg ss d := by
  have hd : ss = .dword → d ≠ .r0 := fun hss => (h hss).1
  have hr : ss = .dword → r ≠ .r0 := fun hss => (h hss).2
  refine ⟨?_, State.getReg_setReg _ hr _⟩
  by_cases hsame : d = r
  · subst hsame
    exact State.getReg_setReg _ hr _
  · rw [State.getReg_setReg_other _ hr hsame, State.getReg_setReg _ hd]

/-- Settles O27: the state between the two writes is the one after the first of them. -/
theorem exchangeSwaps : Obligations.ExchangeSwaps := by
  refine ⟨fun ss d r s => ?registers, fun ss ea r dir s => ?memory⟩
  case registers =>
    have hfirst := s.setReg_written ss d (s.getReg ss r)
    have hsecond := (s.setReg ss d (s.getReg ss r)).setReg_written ss r (s.getReg ss d)
    exact ⟨_, _, rfl, hfirst, hsecond, s.getReg_exchanged⟩
  case memory =>
    have hstored := s.store_stored ss (s.ea ea.addr) (s.getReg ss r)
    have hwritten := (s.store ss (s.ea ea.addr) (s.getReg ss r)).setReg_written ss r (s.load .data ss (s.ea ea.addr))
    exact ⟨_, _, rfl, hstored, s.store_rest ss (s.ea ea.addr) (s.getReg ss r), hwritten⟩

/-! ## Exchanges with the alternate set -/

/-- A write of one 16-bit register of either set leaves the other registers of that set. -/
theorem Bank.set16_bankFrame (g : Bank) (r : Reg16) (v : Word) : BankFrame [r] [] g (g.set16 r v) :=
  State.set16_bankFrame { State.reset with reg := g } r v

/-- The halves of AF written to a set as plain storage (R31). -/
theorem Bank.set32_af_append (g : Bank) (a f : Word) : g.set32 .af (a ++ f : Dword) = { g with a := a, f := f } := by
  rw [Bank.set32, hiWord_append, loWord_append]

/-- AF written with a pair: A takes the first word, F the second as data, and nothing else changes (R34, R140 (b)). -/
theorem State.set32_af_append (s : State) (a f : Word) :
    FWritten f s (s.set32 .af (a ++ f : Dword)) ∧
    s.set32 .af (a ++ f : Dword) = { s with
      reg := { s.reg with a := a, f := (s.set32 .af (a ++ f : Dword)).reg.f }
      iff2 := (s.set32 .af (a ++ f : Dword)).iff2, inhibit := (s.set32 .af (a ++ f : Dword)).inhibit } := by
  obtain ⟨ha, hf, hrest⟩ := (s.setReg_written .dword .r0 (a ++ f)).af rfl rfl
  rw [show (a ++ f : Dword).setWidth 16 = f from loWord_append a f] at hf
  rw [BitVec.setWidth_eq, show (a ++ f : Dword).extractLsb' 16 16 = a from hiWord_append a f] at ha
  exact ⟨hf, by rw [ha] at hrest; exact hrest⟩

/-- Settles O28: the alternate register is written as plain storage, then the primary one; only as part of AF is that a
write of F as data. -/
theorem exchangeWithAlternate : Obligations.ExchangeWithAlternate := by
  refine ⟨fun r s => ?word, fun r s hr => ?dword, fun s => ?af⟩
  case word =>
    exact ⟨_, rfl, Bank.get16_set16_same .., Bank.get16_set16_same .., Bank.f_set16 .., Bank.f_set16 ..,
      Bank.set16_bankFrame .., Bank.set16_bankFrame .., rfl⟩
  case dword =>
    have hplain := State.set32_plain { s with alt := s.alt.set32 r.reg32 (s.get32 r.reg32) } hr (s.alt.get32 r.reg32)
    exact ⟨_, congrArg Host.Outcome.next hplain, Bank.get32_set32 .., Bank.get32_set32 .., Bank.f_set32 _ hr _,
      Bank.f_set32 _ hr _, Bank.set32_bankFrame _ hr _, Bank.set32_bankFrame _ hr _, rfl⟩
  case af =>
    have halt : s.alt.set32 .af (s.get32 .af) = { s.alt with a := s.reg.a, f := s.reg.f } :=
      Bank.set32_af_append s.alt s.reg.a s.reg.f
    obtain ⟨hf, hrest⟩ :=
      State.set32_af_append { s with alt := s.alt.set32 .af (s.get32 .af) } s.alt.a s.alt.f
    refine ⟨_, rfl, ⟨hf.value, hf.iff2, hf.started, hf.kept⟩, ?_⟩
    rw [← halt]
    exact hrest

/-- Settles O29: twice EXX gives every register back to the set it came from. -/
theorem exxAndExiSwapTheirRegisters : Obligations.ExxAndExiSwapTheirRegisters := by
  refine ⟨rfl, rfl, fun _ => rfl, fun _ => rfl, fun s t h => ?_⟩
  cases h
  rfl

/-! ## Halves -/

/-- Settles O30: the value written is `swapHalves` of the operand, whose bits `swapHalves_getLsbD` gives. -/
theorem exchangeHalves : Obligations.ExchangeHalves := by
  refine ⟨fun ss r s => ?register, fun ss ea s => ?memory⟩
  case register =>
    have hwritten := s.setReg_written ss r (swapHalves (s.getReg ss r))
    exact ⟨_, _, rfl, fun _ => swapHalves_getLsbD ss _, hwritten⟩
  case memory =>
    have hstored := s.store_stored ss (s.ea ea.addr) (swapHalves (s.load .data ss (s.ea ea.addr)))
    exact ⟨_, _, rfl, fun _ => swapHalves_getLsbD ss _, hstored, s.store_rest ss (s.ea ea.addr) _⟩

/-! ## The stack -/

/-- An operand of any size extended to a dword keeps its two's complement value (R147). -/
theorem signExtend_dword_toInt (ss : Size) (v : BitVec ss.bits) : (v.signExtend 32).toInt = v.toInt :=
  BitVec.toInt_signExtend_of_le (by cases ss <;> decide)

/-- Settles O31: POP writes the register in the state where SP has been raised (D36), so POP SP leaves the popped
value. -/
theorem pushAndPop : Obligations.PushAndPop := by
  refine ⟨fun ss src s => ?push, fun d s => ?pop⟩
  case push =>
    exact ⟨_, _, rfl, signExtend_dword_toInt ss (s.srcVal ss src), s.push32_pushed _⟩
  case pop =>
    exact ⟨_, rfl, s.dropStack.setReg_written .dword d s.stackTop⟩

/-! ## Ports -/

/-- The state after an I/O read: the answer consumed and, at the operand size, recorded (R70). -/
theorem State.afterIoRead_eq (s : State) (z : NSize) (port : Word) : s.afterIoRead z port =
    { s with ioIn := s.ioIn.tail,
             trace := s.trace ++ [.ioRead z port ((s.nextInput.setWidth z.size.bits).setWidth 16)] } := by
  rw [State.afterIoRead, State.ioRead_eq]

/-- The state after an I/O write of a value of the operand size (R70). -/
theorem State.ioWrite_setWidth (s : State) (z : NSize) (port : Word) (v : BitVec z.size.bits) :
    s.ioWrite z port (v.setWidth 16) = { s with trace := s.trace ++ [.ioWrite z port (v.setWidth 16)] } := by
  rw [State.ioWrite, ioPart_setWidth]

/-- Settles O32: IN writes the register in the state after the port was read. -/
theorem inputAndOutputOfAPort : Obligations.InputAndOutputOfAPort := by
  refine ⟨fun z d port s => ?input, fun z port r s => ?output⟩
  case input =>
    have hread : exec (.inR z d port) s =
        .next ((s.afterIoRead z (s.portVal port)).setReg z.size d (s.nextInput.setWidth z.size.bits)) := by
      rw [← s.ioRead_part z]
      rfl
    refine ⟨_, hread, ?_⟩
    rw [← s.afterIoRead_eq]
    exact State.setReg_written ..
  case output =>
    exact congrArg Host.Outcome.next (s.ioWrite_setWidth z (s.portVal port) (s.getReg z.size r))

end Sys2Proof.Machine
end

section
/-! PROOFS. The statements on the block instructions (R170 to R191). What one iteration does to pointers, counter, flags
and memory is said by `ldStep_copied`, `scanned_moves`, `cpStep_flags`, `tsStep_flags` and `transferred_moves`; here
stands what RepeatStep (R171) makes of it, and which family, size and direction each of the forty instructions is. -/

namespace Sys2Proof.Machine

/-! ## RepeatStep -/

/-- The LD, input and output families: without a final-flag rule only PC depends on whether the repetition goes on. -/
theorem repeatStep_id {s t : State} {stop more : Bool} (hstop : stop = !more) (hpc : t.pc = s.pc)
    (hpc0 : t.pc0 = s.pc0) : repeatStep stop id t = .next { t with pc := if more then s.pc0 else s.pc } := by
  rw [hstop, ← hpc, ← hpc0]
  cases more with
  | true => rfl
  | false => exact congrArg Host.Outcome.next t.setFlags_self

/-- The CP and TS families: P/V says that there was no match, whether the repetition goes on or not, since an iteration
after which it goes on had no match, and its P/V already says that BC is not 0 (R177, D20). -/
theorem repeatStep_endByMatch {step : Dword} {s t : State} (h : ScannedOne step s t) (hpv : t.flags.pv = s.countLeft)
    (isMatch : Bool) : ∃ u, repeatStep (t.doneBC || isMatch) (endByMatch isMatch) t = .next u ∧ ScannedOne step s u ∧
      u.flags = { t.flags with pv := !isMatch } ∧ u.pc = if s.countLeft && !isMatch then t.pc0 else t.pc := by
  have hends : ScannedOne step s (t.setFlags (endByMatch isMatch t.flags)) := h.withFlags _
  have hflags := t.flags_setFlags (endByMatch isMatch t.flags)
  rw [State.doneBC_eq h.bc]
  cases isMatch with
  | true => cases s.countLeft <;> exact ⟨_, rfl, hends, hflags, rfl⟩
  | false =>
    cases hleft : s.countLeft with
    | false => exact ⟨_, rfl, hends, hflags, rfl⟩
    | true =>
      refine ⟨{ t with pc := t.pc0 }, rfl, h.withPc _, ?_, rfl⟩
      rw [Bool.not_false, ← hleft, ← hpv]
      rfl

section Families
variable {i : Instr} {z : NSize} {step : Dword}

/-! ## Copying -/

theorem ldRepeat_eq (z : NSize) (step : Dword) (s : State) : ldRepeat z step s =
    .next { ldStep z step s with pc := if s.countLeft then s.pc0 else s.pc } :=
  have ⟨hpc, hpc0⟩ := ldStep_pc z step s
  repeatStep_id (State.doneBC_eq (ldStep_copied z step s).bc) hpc hpc0

theorem copies_of_ldStep (h : ∀ s, exec i s = .next (ldStep z step s)) : Copies i z step false := fun s =>
  ⟨_, h s, ldStep_copied z step s, (ldStep_pc z step s).1⟩

theorem copies_of_ldRepeat (h : ∀ s, exec i s = ldRepeat z step s) : Copies i z step true := fun s =>
  ⟨_, (h s).trans (ldRepeat_eq z step s), (ldStep_copied z step s).withPc _, rfl⟩

/-! ## Comparing -/

/-- The flags of A minus the element at (HL), before C and P/V are replaced. -/
theorem element_difference (z : NSize) (s : State) :
    DifferenceFlags (s.getReg z.size .r0) (s.load .data z.size (s.reg.h ++ s.reg.l)) false
      (subFlags (s.getReg z.size .r0) (s.load .data z.size (s.reg.h ++ s.reg.l)) false).2 :=
  subFlags_flags (by cases z <;> decide) _ _ _

theorem cpStep_scanned (z : NSize) (step : Dword) (s : State) : ScannedOne step s (cpStep z step s) :=
  (scanned_moves step s).withFlags _

/-- Z of the comparison is the match of R177. -/
theorem cpStep_z (z : NSize) (step : Dword) (s : State) : (cpStep z step s).flags.z =
    decide (s.getReg z.size .r0 = s.load .data z.size (s.reg.h ++ s.reg.l)) := by
  rw [cpStep_flags, Bool.eq_iff_iff, (element_difference z s).z]
  simp [sub_eq_zero_iff]

theorem compares_of_cpStep (h : ∀ s, exec i s = .next (cpStep z step s)) : Compares i z step false := fun s =>
  ⟨_, _, h s, cpStep_scanned z step s, element_difference z s, cpStep_flags z step s, rfl⟩

theorem compares_of_cpRepeat (h : ∀ s, exec i s = cpRepeat z step s) : Compares i z step true := fun s => by
  have hpv : (cpStep z step s).flags.pv = s.countLeft := by rw [cpStep_flags]
  obtain ⟨t, hnext, hscanned, hflags, hpc⟩ := repeatStep_endByMatch (cpStep_scanned z step s) hpv
    (cpStep z step s).flags.z
  rw [cpStep_z] at hflags hpc
  rw [cpStep_flags] at hflags
  exact ⟨t, _, (h s).trans hnext, hscanned, element_difference z s, hflags, hpc⟩

/-! ## Testing -/

theorem tsStep_scanned (z : NSize) (step : Dword) (s : State) : ScannedOne step s (tsStep z step s) :=
  (scanned_moves step s).withFlags _

/-- The model's match is the statement's, for each value of TSXR_STOP (R181). -/
theorem tsMatch_eq (z : NSize) (s : State) :
    tsMatch z s = s.testMatches z (s.load .data z.size (s.reg.h ++ s.reg.l)) := by
  unfold tsMatch State.testMatches
  cases s.cfg.tsxrStop with
  | equal | andZero => rfl
  | andNonzero => exact (decide_not ..).symm

theorem tests_of_tsStep (h : ∀ s, exec i s = .next (tsStep z step s)) : Tests i z step false := fun s => by
  refine ⟨_, h s, tsStep_scanned z step s, ?flags, rfl⟩
  case flags => rw [tsStep_flags]; rfl

theorem tests_of_tsRepeat (h : ∀ s, exec i s = tsRepeat z step s) : Tests i z step true := fun s => by
  have hpv : (tsStep z step s).flags.pv = s.countLeft := by rw [tsStep_flags]
  obtain ⟨t, hnext, hscanned, hflags, hpc⟩ := repeatStep_endByMatch (tsStep_scanned z step s) hpv (tsMatch z s)
  rw [tsMatch_eq] at hflags hpc
  rw [tsStep_flags] at hflags
  refine ⟨t, (h s).trans hnext, hscanned, ?flags, hpc⟩
  case flags => rw [hflags]; rfl

/-! ## Input and output -/

theorem TransferredOne.withPc {s t : State} (h : TransferredOne step s t) (p : Dword) :
    TransferredOne step s { t with pc := p } := ⟨h.hl, h.b, h.flags, h.bank, h.status⟩

theorem Stored.withPc {ss : Size} {a : Dword} {v : BitVec ss.bits} {s t : State} (h : Stored ss a v s t) (p : Dword) :
    Stored ss a v s { t with pc := p } := ⟨h.written, h.kept, h.events⟩

theorem inStep_transferred (z : NSize) (step : Dword) (s : State) : TransferredOne step s (inStep z step s) :=
  transferred_moves step (by simp)

/-- The element stored is the device's answer, at (HL), in the state after the port was read (R184). -/
theorem inStep_stored (z : NSize) (step : Dword) (s : State) :
    Stored z.size (s.reg.h ++ s.reg.l) (s.nextInput.setWidth z.size.bits) (s.afterIoRead z s.reg.c)
      (inStep z step s) := by
  have hstored := (s.afterIoRead z s.reg.c).store_stored z.size (s.reg.h ++ s.reg.l)
    ((s.ioRead z).setWidth z.size.bits)
  rw [← s.ioRead_part z]
  exact ⟨hstored.written, hstored.kept, hstored.events⟩

theorem inStep_pc (z : NSize) (step : Dword) (s : State) :
    (inStep z step s).pc = s.pc ∧ (inStep z step s).pc0 = s.pc0 := by
  simp [inStep, State.countB, State.moveHL]

/-- Memory, record and registers apart, an iteration of the input family leaves the state as the port read left it. -/
theorem inStep_rest (z : NSize) (step : Dword) (s : State) : inStep z step s =
    { s.afterIoRead z s.reg.c with
      reg := (inStep z step s).reg, mem := (inStep z step s).mem
      trace := (inStep z step s).trace, pc := (inStep z step s).pc } := by
  apply State.ext <;> simp [inStep, State.countB, State.moveHL, State.set32, State.get16, Bank.get16]

theorem inRepeat_eq (z : NSize) (step : Dword) (s : State) : inRepeat z step s =
    .next { inStep z step s with pc := if s.transfersLeft then s.pc0 else s.pc } :=
  have ⟨hpc, hpc0⟩ := inStep_pc z step s
  repeatStep_id (State.doneB_eq (inStep_transferred z step s).b) hpc hpc0

theorem inputs_of_inStep (h : ∀ s, exec i s = .next (inStep z step s)) : Inputs i z step false := fun s =>
  ⟨_, _, h s, s.afterIoRead_eq z s.reg.c, inStep_stored z step s, inStep_transferred z step s, inStep_rest z step s,
    (inStep_pc z step s).1⟩

theorem inputs_of_inRepeat (h : ∀ s, exec i s = inRepeat z step s) : Inputs i z step true := fun s => by
  refine ⟨_, _, (h s).trans (inRepeat_eq z step s), s.afterIoRead_eq z s.reg.c, (inStep_stored z step s).withPc _,
    (inStep_transferred z step s).withPc _, ?rest, rfl⟩
  case rest => rw [inStep_rest]

theorem outStep_transferred (z : NSize) (step : Dword) (s : State) : TransferredOne step s (outStep z step s) :=
  transferred_moves step rfl

/-- Registers apart, an iteration of the output family only records the transfer (R188). -/
theorem outStep_rest (z : NSize) (step : Dword) (s : State) : outStep z step s =
    { s with
      reg := (outStep z step s).reg
      trace := s.trace ++ [.ioWrite z s.reg.c ((s.load .data z.size (s.reg.h ++ s.reg.l)).setWidth 16)] } := by
  have hwrite := s.ioWrite_setWidth z s.reg.c (s.element z)
  exact congrArg (fun u : State => { u with reg := (outStep z step s).reg }) hwrite

theorem outRepeat_eq (z : NSize) (step : Dword) (s : State) : outRepeat z step s =
    .next { outStep z step s with pc := if s.transfersLeft then s.pc0 else s.pc } :=
  repeatStep_id (State.doneB_eq (outStep_transferred z step s).b) rfl rfl

theorem outputs_of_outStep (h : ∀ s, exec i s = .next (outStep z step s)) : Outputs i z step false := fun s =>
  ⟨_, h s, outStep_transferred z step s, outStep_rest z step s, rfl⟩

theorem outputs_of_outRepeat (h : ∀ s, exec i s = outRepeat z step s) : Outputs i z step true := fun s => by
  refine ⟨_, (h s).trans (outRepeat_eq z step s), (outStep_transferred z step s).withPc _, ?rest, rfl⟩
  case rest => rw [outStep_rest]

end Families

/-! ## The forty instructions -/

/-- Settles O33: `copies_of_ldStep` and `copies_of_ldRepeat` at each size and direction. -/
theorem blockCopy : Obligations.BlockCopy :=
  ⟨copies_of_ldStep fun _ => rfl, copies_of_ldStep fun _ => rfl,
    copies_of_ldStep fun _ => rfl, copies_of_ldStep fun _ => rfl,
    copies_of_ldRepeat fun _ => rfl, copies_of_ldRepeat fun _ => rfl,
    copies_of_ldRepeat fun _ => rfl, copies_of_ldRepeat fun _ => rfl⟩

/-- Settles O34: the match of the repeating forms is Z of the comparison (`cpStep_z`). -/
theorem blockCompare : Obligations.BlockCompare :=
  ⟨compares_of_cpStep fun _ => rfl, compares_of_cpStep fun _ => rfl,
    compares_of_cpStep fun _ => rfl, compares_of_cpStep fun _ => rfl,
    compares_of_cpRepeat fun _ => rfl, compares_of_cpRepeat fun _ => rfl,
    compares_of_cpRepeat fun _ => rfl, compares_of_cpRepeat fun _ => rfl⟩

/-- Settles O35: as the comparison, with the match that TSXR_STOP names (`tsMatch_eq`). -/
theorem blockTest : Obligations.BlockTest :=
  ⟨tests_of_tsStep fun _ => rfl, tests_of_tsStep fun _ => rfl,
    tests_of_tsStep fun _ => rfl, tests_of_tsStep fun _ => rfl,
    tests_of_tsRepeat fun _ => rfl, tests_of_tsRepeat fun _ => rfl,
    tests_of_tsRepeat fun _ => rfl, tests_of_tsRepeat fun _ => rfl⟩

/-- Settles O36: the store happens in the state after the port was read (`inStep_stored`). -/
theorem blockInput : Obligations.BlockInput :=
  ⟨inputs_of_inStep fun _ => rfl, inputs_of_inStep fun _ => rfl,
    inputs_of_inStep fun _ => rfl, inputs_of_inStep fun _ => rfl,
    inputs_of_inRepeat fun _ => rfl, inputs_of_inRepeat fun _ => rfl,
    inputs_of_inRepeat fun _ => rfl, inputs_of_inRepeat fun _ => rfl⟩

/-- Settles O37: registers apart, only the record of the transfer is added (`outStep_rest`). -/
theorem blockOutput : Obligations.BlockOutput :=
  ⟨outputs_of_outStep fun _ => rfl, outputs_of_outStep fun _ => rfl,
    outputs_of_outStep fun _ => rfl, outputs_of_outStep fun _ => rfl,
    outputs_of_outRepeat fun _ => rfl, outputs_of_outRepeat fun _ => rfl,
    outputs_of_outRepeat fun _ => rfl, outputs_of_outRepeat fun _ => rfl⟩

end Sys2Proof.Machine
end

section
/-! PROOFS. The statements on arithmetic (R200 to R216). What each shape of instruction does with an operation is said
by `binR_next`, `unR_next`, `writeBack_next`, `mltDivR_next` and their memory forms; here stands what each operation
computes, and the statements join the two. -/

namespace Sys2Proof.Machine

/-! ## Operations on two operands -/

/-- The operation computes `value` and leaves the flags that `Sets` describes; both may depend on the flags before. -/
structure Computes {ss : Size} (op : Flags → BitVec ss.bits → BitVec ss.bits → BitVec ss.bits × Flags)
    (value : Flags → BitVec ss.bits → BitVec ss.bits → BitVec ss.bits)
    (Sets : Flags → BitVec ss.bits → BitVec ss.bits → Flags → Prop) : Prop where
  value : ∀ f a b, (op f a b).1 = value f a b
  flags : ∀ f a b, Sets f a b (op f a b).2

section TwoOperands
variable {ss : Size} {op : Flags → BitVec ss.bits → BitVec ss.bits → BitVec ss.bits × Flags}
  {value : Flags → BitVec ss.bits → BitVec ss.bits → BitVec ss.bits}
  {Sets : Flags → BitVec ss.bits → BitVec ss.bits → Flags → Prop}

theorem Computes.binR (h : Computes op value Sets) {d : RegField} (src : Src) (s : State) (hd : ss = .dword → d ≠ .r0) :
    ∃ t, binR op d src s = .next t ∧ RegFrame ss d s t ∧
      t.getReg ss d = value s.flags (s.getReg ss d) (s.srcVal ss src) ∧
      Sets s.flags (s.getReg ss d) (s.srcVal ss src) t.flags := by
  obtain ⟨t, hnext, hframe, hvalue, hflags⟩ := binR_next op src s hd
  exact ⟨t, hnext, hframe, hvalue.trans (h.value ..), hflags ▸ h.flags ..⟩

theorem Computes.binM_toReg (h : Computes op value Sets) (ea : Addr) {d : RegField} (s : State)
    (hd : ss = .dword → d ≠ .r0) :
    ∃ t, binM op ea (.toReg d) s = .next t ∧ RegFrame ss d s t ∧
      t.getReg ss d = value s.flags (s.getReg ss d) (s.load .data ss (s.ea ea)) ∧
      Sets s.flags (s.getReg ss d) (s.load .data ss (s.ea ea)) t.flags := by
  obtain ⟨t, hnext, hframe, hvalue, hflags⟩ := Machine.binM_toReg op ea s hd
  exact ⟨t, hnext, hframe, hvalue.trans (h.value ..), hflags ▸ h.flags ..⟩

theorem Computes.binM_toMem (h : Computes op value Sets) (ea : Addr) (src : Src) (s : State) :
    ∃ t, binM op ea (.toMem src) s = .next t ∧
      MemFrame ss (s.ea ea) (value s.flags (s.load .data ss (s.ea ea)) (s.srcVal ss src)) s t ∧
      Sets s.flags (s.load .data ss (s.ea ea)) (s.srcVal ss src) t.flags := by
  obtain ⟨t, hnext, hframe, hflags⟩ := Machine.binM_toMem op ea src s
  rw [h.value] at hframe
  exact ⟨t, hnext, hframe, hflags ▸ h.flags ..⟩

/-- An instruction that only sets flags, on whatever two operands it reads (R205, R234). -/
theorem Computes.setFlags (h : Computes op value Sets) (a b : BitVec ss.bits) (s : State) :
    FlagFrame s (s.setFlags (op s.flags a b).2) ∧ Sets s.flags a b (s.setFlags (op s.flags a b).2).flags :=
  ⟨s.setFlags_frame _, by rw [State.flags_setFlags]; exact h.flags ..⟩

end TwoOperands

theorem addOp_computes (ss : Size) :
    Computes (ss := ss) addOp (fun _ a b => a + b) (fun _ a b => SumFlags a b false) where
  value _ a b := (addFlags_value a b false).trans (BitVec.add_zero _)
  flags _ a b := addFlags_flags (four_lt_bits ss) a b false

theorem adcOp_computes (ss : Size) :
    Computes (ss := ss) adcOp (fun f a b => a + b + BitVec.ofNat ss.bits f.c.toNat)
      (fun f a b => SumFlags a b f.c) where
  value f a b := addFlags_value a b f.c
  flags f a b := addFlags_flags (four_lt_bits ss) a b f.c

theorem subOp_computes (ss : Size) :
    Computes (ss := ss) subOp (fun _ a b => a - b) (fun _ a b => DifferenceFlags a b false) where
  value _ a b := (subFlags_value a b false).trans (BitVec.sub_zero _)
  flags _ a b := subFlags_flags (four_lt_bits ss) a b false

theorem sbcOp_computes (ss : Size) :
    Computes (ss := ss) sbcOp (fun f a b => a - b - BitVec.ofNat ss.bits f.c.toNat)
      (fun f a b => DifferenceFlags a b f.c) where
  value f a b := subFlags_value a b f.c
  flags f a b := subFlags_flags (four_lt_bits ss) a b f.c

/-- Settles O38: each form joins the operation's result and flags (`addOp_computes`, `adcOp_computes`) to its shape. -/
theorem addAndAddWithCarry : Obligations.AddAndAddWithCarry :=
  ⟨fun ss _ src s hd => (addOp_computes ss).binR src s hd, fun ss ea _ s hd => (addOp_computes ss).binM_toReg ea s hd,
    fun ss ea src s => (addOp_computes ss).binM_toMem ea src s,
    fun ss _ src s hd => (adcOp_computes ss).binR src s hd, fun ss ea _ s hd => (adcOp_computes ss).binM_toReg ea s hd,
    fun ss ea src s => (adcOp_computes ss).binM_toMem ea src s⟩

/-- Settles O39: as the sums, with `subOp_computes` and `sbcOp_computes`. -/
theorem subtractAndSubtractWithCarry : Obligations.SubtractAndSubtractWithCarry :=
  ⟨fun ss _ src s hd => (subOp_computes ss).binR src s hd, fun ss ea _ s hd => (subOp_computes ss).binM_toReg ea s hd,
    fun ss ea src s => (subOp_computes ss).binM_toMem ea src s,
    fun ss _ src s hd => (sbcOp_computes ss).binR src s hd, fun ss ea _ s hd => (sbcOp_computes ss).binM_toReg ea s hd,
    fun ss ea src s => (sbcOp_computes ss).binM_toMem ea src s⟩

/-- Settles O40: the flags are those SUB would set, and setting them is all that happens (`Computes.setFlags`). -/
theorem compareOnlySetsFlags : Obligations.CompareOnlySetsFlags :=
  ⟨fun ss _ _ s => ⟨_, rfl, (subOp_computes ss).setFlags _ _ s⟩,
    fun ss _ _ s => ⟨_, rfl, (subOp_computes ss).setFlags _ _ s⟩,
    fun ss _ _ s => ⟨_, rfl, (subOp_computes ss).setFlags _ _ s⟩⟩

/-! ## Operations on one operand -/

/-- The operation computes `value`, and its flags are what `final` makes, with the flags before, of flags that `Sets`
describes. -/
def ComputesUnary {ss : Size} (op : Flags → BitVec ss.bits → BitVec ss.bits × Flags)
    (value : BitVec ss.bits → BitVec ss.bits) (Sets : BitVec ss.bits → Flags → Prop) (final : Flags → Flags → Flags) :
    Prop := ∀ f v, ∃ g, (op f v).1 = value v ∧ Sets v g ∧ (op f v).2 = final f g

section OneOperand
variable {ss : Size} {op : Flags → BitVec ss.bits → BitVec ss.bits × Flags} {value : BitVec ss.bits → BitVec ss.bits}
  {Sets : BitVec ss.bits → Flags → Prop} {final : Flags → Flags → Flags}

theorem ComputesUnary.unR (h : ComputesUnary op value Sets final) {d : RegField} (s : State)
    (hd : ss = .dword → d ≠ .r0) :
    ∃ t g, unR op d s = .next t ∧ RegFrame ss d s t ∧ t.getReg ss d = value (s.getReg ss d) ∧ Sets (s.getReg ss d) g ∧
      t.flags = final s.flags g := by
  obtain ⟨t, hnext, hframe, hvalue, hflags⟩ := unR_next op s hd
  obtain ⟨g, hop, hsets, hfinal⟩ := h s.flags (s.getReg ss d)
  exact ⟨t, g, hnext, hframe, hvalue.trans hop, hsets, hflags.trans hfinal⟩

theorem ComputesUnary.unM (h : ComputesUnary op value Sets final) (ea : Addr) (s : State) :
    ∃ t g, unM op ea s = .next t ∧ MemFrame ss (s.ea ea) (value (s.load .data ss (s.ea ea))) s t ∧
      Sets (s.load .data ss (s.ea ea)) g ∧ t.flags = final s.flags g := by
  obtain ⟨t, hnext, hframe, hflags⟩ := unM_next op ea s
  obtain ⟨g, hop, hsets, hfinal⟩ := h s.flags (s.load .data ss (s.ea ea))
  rw [hop] at hframe
  exact ⟨t, g, hnext, hframe, hsets, hflags.trans hfinal⟩

end OneOperand

theorem incOp_computes (ss : Size) : ComputesUnary (ss := ss) incOp (· + 1) (fun v => SumFlags v 1 false)
    (fun f g => { g with c := f.c }) := fun f v =>
  ⟨_, (addOp_computes ss).value f v 1, (addOp_computes ss).flags f v 1, rfl⟩

theorem decOp_computes (ss : Size) : ComputesUnary (ss := ss) decOp (· - 1) (fun v => DifferenceFlags v 1 false)
    (fun f g => { g with c := f.c }) := fun f v =>
  ⟨_, (subOp_computes ss).value f v 1, (subOp_computes ss).flags f v 1, rfl⟩

theorem negOp_computes (ss : Size) : ComputesUnary (ss := ss) negOp (0 - ·) (fun v => DifferenceFlags 0 v false)
    (fun _ g => g) := fun f v =>
  ⟨_, (subOp_computes ss).value f 0 v, (subOp_computes ss).flags f 0 v, rfl⟩

/-- Settles O41: INC and DEC are the sum and the difference with 1, C kept; NEG is the difference from 0. -/
theorem incrementDecrementNegate : Obligations.IncrementDecrementNegate :=
  ⟨fun ss _ s hd => (incOp_computes ss).unR s hd, fun ss ea s => (incOp_computes ss).unM ea s,
    fun ss _ s hd => (decOp_computes ss).unR s hd, fun ss ea s => (decOp_computes ss).unM ea s,
    fun ss _ s hd => (negOp_computes ss).unR s hd, fun ss ea s => (negOp_computes ss).unM ea s⟩

/-! ## BCD -/

/-- The two corrections have no bit in common, so joining their bits adds them (R208). -/
theorem daa_correction_toNat (low high : Bool) :
    ((if low then 0x06#8 else 0#8) ||| (if high then 0x60#8 else 0#8)).toNat =
      (if low then 6 else 0) + (if high then 96 else 0) := by
  cases low <;> cases high <;> rfl

/-- A byte corrected up or down, by arithmetic modulo 256. -/
theorem corrected_eq_ofNat (down : Bool) (a corr : Byte) : (if down then a - corr else a + corr) =
    BitVec.ofNat 8 (if down then a.toNat + 256 - corr.toNat else a.toNat + corr.toNat) := by
  apply BitVec.eq_of_toNat_eq
  cases down with
  | true => simp only [if_true, BitVec.toNat_sub, BitVec.toNat_ofNat]; omega
  | false => simp [BitVec.toNat_add]

theorem daaOp_value (f : Flags) (a : Byte) : (daaOp f a).1 =
    (let corr := (if f.h || decide (9 < a.toNat % 16) then 6 else 0) +
       (if f.c || decide (0x99 < a.toNat) then 96 else 0)
     BitVec.ofNat 8 (if f.n then a.toNat + 256 - corr else a.toNat + corr)) := by
  rw [← daa_correction_toNat]
  exact corrected_eq_ofNat ..

theorem daaOp_flags (f : Flags) (a : Byte) :
    let r := (daaOp f a).1
    let g := (daaOp f a).2
    g.c = (f.c || decide (0x99 < a.toNat)) ∧ g.n = f.n ∧ g.s = r.msb ∧ (g.z = true ↔ r = 0#8) ∧
      (g.pv = true ↔ ones r % 2 = 0) ∧
      g.h = if f.n then f.h && decide (a.toNat % 16 < 6) else decide (9 < a.toNat % 16) :=
  ⟨rfl, rfl, rfl, beq_iff_eq, parityEven_iff _, rfl⟩

/-- Settles O42: DAA writes back the low byte of A and the flags as `daaOp_value` and `daaOp_flags` give them. -/
theorem decimalAdjust : Obligations.DecimalAdjust := by
  intro s
  obtain ⟨t, hnext, hframe, hvalue, hflags⟩ := writeBack_next (ss := .byte) (d := .r0)
    (daaOp s.flags (s.getReg .byte .r0)) s nofun
  have hadjusted := daaOp_flags s.flags (s.getReg .byte .r0)
  rw [← hflags, daaOp_value] at hadjusted
  exact ⟨t, hnext, hframe, hvalue.trans (daaOp_value ..), hadjusted⟩

/-! ## Sign extension -/

/-- EXT of a register other than AF is a register write (R210). -/
theorem execExtR_next {z : WSize} {d : RegField} (s : State) (hd : z = .dword → d ≠ .r0) :
    execExtR z d s = .next (s.setReg z.size d (extHalf (s.getReg z.size d))) := by
  have hAF : isAF z.size d = false := isAF_false fun h => hd (by cases z with | word => cases h | dword => rfl)
  rw [execExtR, hAF]
  rfl

/-- Settles O43: what is written is `extHalf` of the operand, whose value `extHalf_toInt` gives. -/
theorem signExtendHalf : Obligations.SignExtendHalf := by
  refine ⟨fun z d s hd => ?register, fun z ea s => ?memory⟩
  case register =>
    have hwritten := s.setReg_written z.size d (extHalf (s.getReg z.size d))
    exact ⟨_, _, execExtR_next s hd, extHalf_toInt z _, hwritten⟩
  case memory =>
    have hstored := s.store_stored z.size (s.ea ea.addr) (extHalf (s.load .data z.size (s.ea ea.addr)))
    exact ⟨_, _, rfl, extHalf_toInt z _, hstored, s.store_rest z.size (s.ea ea.addr) _⟩

/-! ## Multiplication and division -/

section MultiplyDivide
variable {op : (w : Nat) → Flags → Flags → BitVec w → BitVec w → BitVec w × Flags} {z : WSize}
  {Meets : Flags → BitVec z.size.bits → BitVec z.size.bits → Flags → Prop}

/-- A relation of the flags before, the target before, the target after and the flags after that an operation meets
whatever the free values are, the instruction meets on a register. -/
theorem mltDivR_meets (hop : ∀ free f t v, Meets f v (op z.size.bits free f t v).1 (op z.size.bits free f t v).2)
    {ss : Size} {s : State} {d : RegField} (h : mltDivTarget s.cfg.mltDivSS ss = some z) (hd : z = .dword → d ≠ .r0) :
    ∃ t, mltDivR op ss d s = .next t ∧ RegFrame z.size d s t ∧
      Meets s.flags (s.getReg z.size d) (t.getReg z.size d) t.flags := by
  obtain ⟨t, free, hnext, hframe, hvalue, hflags⟩ := mltDivR_next op h hd
  refine ⟨t, hnext, hframe, ?_⟩
  rw [hvalue, hflags]
  exact hop ..

/-- The same on memory. -/
theorem mltDivM_meets (hop : ∀ free f t v, Meets f v (op z.size.bits free f t v).1 (op z.size.bits free f t v).2)
    {ss : Size} {s : State} {ea : Addr} (h : mltDivTarget s.cfg.mltDivSS ss = some z) :
    ∃ t r, mltDivM op ss ea s = .next t ∧ MemFrame z.size (s.ea ea) r s t ∧
      Meets s.flags (s.load .data z.size (s.ea ea)) r t.flags := by
  obtain ⟨t, free, hnext, hframe, hflags⟩ := mltDivM_next op h
  refine ⟨t, _, hnext, hframe, ?_⟩
  rw [hflags]
  exact hop ..

end MultiplyDivide

/-- What MLT makes of a target `v` and flags `f`: the target `r` and the flags `g` (R214). -/
def Multiplied (z : WSize) (f : Flags) (v r : BitVec z.size.bits) (g : Flags) : Prop :=
  r.toNat = (v.toNat / 2 ^ (z.size.bits / 2)) * (v.toNat % 2 ^ (z.size.bits / 2)) ∧ g.s = f.s ∧ g.z = f.z ∧
    g.pv = r.msb ∧ (g.c = true ↔ 2 ^ (z.size.bits / 2) ≤ r.toNat)

/-- What DIV makes of a target `v` (R215). -/
def Divided (z : WSize) (v r : BitVec z.size.bits) (g : Flags) : Prop :=
  let hi := v.toNat / 2 ^ (z.size.bits / 2)
  let lo := v.toNat % 2 ^ (z.size.bits / 2)
  (g.pv = true ↔ lo = 0) ∧ (lo ≠ 0 → r.toNat = hi % lo * 2 ^ (z.size.bits / 2) + hi / lo)

/-- What SDIV makes of a target `v` (R216). -/
def DividedSigned (z : WSize) (v r : BitVec z.size.bits) (g : Flags) : Prop :=
  let a := (highHalf v).toInt
  let b := (lowHalf v).toInt
  (g.pv = true ↔ b = 0) ∧
    (b ≠ 0 → ¬(a = -2 ^ (z.size.bits / 2 - 1) ∧ b = -1) →
      (highHalf r).toInt = a - b * a.tdiv b ∧ (lowHalf r).toInt = a.tdiv b)

theorem mltOp_multiplied (z : WSize) (u f : Flags) (t v : BitVec z.size.bits) :
    Multiplied z f v (mltOp z.size.bits u f t v).1 (mltOp z.size.bits u f t v).2 := by
  have hvalue := mltOp_toNat z u f t v
  have hcarry : (mltOp z.size.bits u f t v).2.c = true ↔
      2 ^ (z.size.bits / 2) ≤ (highHalf v).toNat * (lowHalf v).toNat := decide_eq_true_iff
  rw [← hvalue] at hcarry
  rw [highHalf_toNat (wide_bits z), lowHalf_toNat] at hvalue
  exact ⟨hvalue, rfl, rfl, rfl, hcarry⟩

theorem divOp_divided (z : WSize) (u f : Flags) (t v : BitVec z.size.bits) :
    Divided z v (divOp z.size.bits u f t v).1 (divOp z.size.bits u f t v).2 := by
  have hzero : lowHalf v = 0 ↔ v.toNat % 2 ^ (z.size.bits / 2) = 0 := by
    rw [← lowHalf_toNat, ← BitVec.toNat_inj]; rfl
  unfold divOp Divided
  split
  case isTrue h => exact ⟨iff_of_true rfl (hzero.mp h), fun hne => absurd (hzero.mp h) hne⟩
  case isFalse h =>
    refine ⟨iff_of_false Bool.false_ne_true (h ∘ hzero.mpr), fun _ => ?_⟩
    rw [joinHalves_toNat (wide_bits z), BitVec.toNat_umod, BitVec.toNat_udiv, highHalf_toNat (wide_bits z),
      lowHalf_toNat]

/-- The halves of a target joined from two integers that fit are those integers (R216). -/
theorem joinHalves_ofInt_toInt (z : WSize) {hi lo : Int}
    (hhi : -2 ^ (z.size.bits / 2 - 1) ≤ hi ∧ hi < 2 ^ (z.size.bits / 2 - 1))
    (hlo : -2 ^ (z.size.bits / 2 - 1) ≤ lo ∧ lo < 2 ^ (z.size.bits / 2 - 1)) :
    (highHalf (joinHalves z.size.bits (BitVec.ofInt _ hi) (BitVec.ofInt _ lo))).toInt = hi ∧
    (lowHalf (joinHalves z.size.bits (BitVec.ofInt _ hi) (BitVec.ofInt _ lo))).toInt = lo := by
  have hpos : 0 < z.size.bits / 2 := by cases z <;> decide
  rw [highHalf_joinHalves (wide_bits z), lowHalf_joinHalves (wide_bits z)]
  exact ⟨BitVec.toInt_ofInt_eq_self hpos hhi.1 hhi.2, BitVec.toInt_ofInt_eq_self hpos hlo.1 hlo.2⟩

theorem sdivOp_dividedSigned (z : WSize) (u f : Flags) (t v : BitVec z.size.bits) :
    DividedSigned z v (sdivOp z.size.bits u f t v).1 (sdivOp z.size.bits u f t v).2 := by
  unfold sdivOp DividedSigned
  have ha := BitVec.le_toInt (highHalf v)
  have ha' := BitVec.toInt_lt (x := highHalf v)
  have hb := BitVec.le_toInt (lowHalf v)
  have hb' := BitVec.toInt_lt (x := lowHalf v)
  generalize (highHalf v).toInt = a at *
  generalize (lowHalf v).toInt = b at *
  have hcast : ((2 ^ (z.size.bits / 2 - 1) : Nat) : Int) = 2 ^ (z.size.bits / 2 - 1) := by push_cast; rfl
  have hpos : (0 : Int) < 2 ^ (z.size.bits / 2 - 1) := by positivity
  simp only [hcast]
  split
  case isTrue hzero => exact ⟨iff_of_true rfl hzero, fun hne => absurd hzero hne⟩
  case isFalse hne =>
    split
    case isTrue hover => exact ⟨iff_of_false Bool.false_ne_true hne, fun _ hfits => absurd hover hfits⟩
    case isFalse hfits =>
      refine ⟨iff_of_false Bool.false_ne_true hne, fun _ _ => ?_⟩
      rw [← Int.tmod_def]
      exact joinHalves_ofInt_toInt z (tmod_bounds hb hb' hne) (tdiv_bounds hpos ha ha' hne hfits)

/-- Settles O44, by `mltOp_multiplied`. -/
theorem multiply : Obligations.Multiply :=
  ⟨fun _ z _ _ h hd => mltDivR_meets (mltOp_multiplied z) h hd, fun _ z _ _ h => mltDivM_meets (mltOp_multiplied z) h⟩

/-- Settles O45, by `divOp_divided`: P/V alone tells whether the target is the quotient and remainder or free. -/
theorem divideUnsigned : Obligations.DivideUnsigned :=
  ⟨fun _ z _ _ h hd => mltDivR_meets (Meets := fun _ => Divided z) (divOp_divided z) h hd,
    fun _ z _ _ h => mltDivM_meets (Meets := fun _ => Divided z) (divOp_divided z) h⟩

/-- Settles O46, by `sdivOp_dividedSigned`: the remainder and the quotient that do not overflow fit their halves. -/
theorem divideSigned : Obligations.DivideSigned :=
  ⟨fun _ z _ _ h hd => mltDivR_meets (Meets := fun _ => DividedSigned z) (sdivOp_dividedSigned z) h hd,
    fun _ z _ _ h => mltDivM_meets (Meets := fun _ => DividedSigned z) (sdivOp_dividedSigned z) h⟩

end Sys2Proof.Machine
end

section
/-! PROOFS. The closed forms of the shifts and rotates are the repetition of the one-position step (R240 to R247): one
more position in the closed form is one more step, kind by kind, on any positive width. -/

namespace Sys2Proof.Machine

section ClosedForms
variable {w : Nat}

/-! ## Rotations: bits move round the width -/

/-- Every position is `k` places, round the width, above some position. -/
theorem exists_add_mod {j : Nat} (hj : j < w) (k : Nat) : ∃ i, i < w ∧ (i + k) % w = j := by
  refine ⟨(j + k * (w - 1)) % w, Nat.mod_lt _ (Nat.zero_lt_of_lt hj), ?_⟩
  have hround : j + k * (w - 1) + k = j + k * w := by
    rw [Nat.add_assoc, ← Nat.mul_succ, Nat.succ_eq_add_one, Nat.sub_add_cancel (Nat.zero_lt_of_lt hj)]
  rw [Nat.mod_add_mod, hround, Nat.add_mul_mod_self_right, Nat.mod_eq_of_lt hj]

/-- A rotation left by `k` moves bit `i` to bit `i + k`, round the width. -/
theorem rotateLeft_getLsbD_add_mod (v : BitVec w) (k : Nat) {i : Nat} (hi : i < w) :
    (v.rotateLeft k).getLsbD ((i + k) % w) = v.getLsbD i := by
  have hk := Nat.mod_lt k (Nat.zero_lt_of_lt hi)
  rw [← BitVec.rotateLeft_mod_eq_rotateLeft, BitVec.getLsbD_rotateLeft_of_le hk, ← Nat.add_mod_mod]
  generalize k % w = m at *
  rcases Nat.lt_or_ge (i + m) w with h | h
  · rw [Nat.mod_eq_of_lt h]
    simp [h]
  · rw [Nat.mod_eq_sub_mod h, Nat.mod_eq_of_lt (by omega)]
    simp [show i + m - w < m by omega, show w - m + (i + m - w) = i by omega]

/-- A rotation right by `k` moves bit `i + k`, round the width, to bit `i`. -/
theorem rotateRight_getLsbD (v : BitVec w) (k : Nat) {i : Nat} (hi : i < w) :
    (v.rotateRight k).getLsbD i = v.getLsbD ((i + k) % w) := by
  have hk := Nat.mod_lt k (Nat.zero_lt_of_lt hi)
  rw [← BitVec.rotateRight_mod_eq_rotateRight, BitVec.getLsbD_rotateRight_of_lt hk, ← Nat.add_mod_mod]
  generalize k % w = m at *
  rcases Nat.lt_or_ge (i + m) w with h | h
  · rw [Nat.mod_eq_of_lt h]
    simp [show i < w - m by omega, Nat.add_comm]
  · rw [Nat.mod_eq_sub_mod h, Nat.mod_eq_of_lt (by omega)]
    simp [show ¬ i < w - m by omega, show i - (w - m) = i + m - w by omega, hi]

theorem rotateLeft_succ (v : BitVec w) (k : Nat) : v.rotateLeft (k + 1) = (v.rotateLeft k).rotateLeft 1 := by
  apply BitVec.eq_of_getLsbD_eq
  intro j hj
  obtain ⟨i, hi, rfl⟩ := exists_add_mod hj (k + 1)
  rw [rotateLeft_getLsbD_add_mod v _ hi, ← Nat.add_assoc, ← Nat.mod_add_mod,
    rotateLeft_getLsbD_add_mod _ _ (Nat.mod_lt _ (Nat.zero_lt_of_lt hi)), rotateLeft_getLsbD_add_mod v _ hi]

theorem rotateRight_succ (v : BitVec w) (k : Nat) : v.rotateRight (k + 1) = (v.rotateRight k).rotateRight 1 := by
  apply BitVec.eq_of_getLsbD_eq
  intro i hi
  rw [rotateRight_getLsbD v _ hi, rotateRight_getLsbD _ _ hi,
    rotateRight_getLsbD v _ (Nat.mod_lt _ (Nat.zero_lt_of_lt hi)), Nat.mod_add_mod, Nat.add_right_comm, Nat.add_assoc]

theorem rotateLeft_one_getLsbD (v : BitVec w) {i : Nat} (hi : i < w) :
    (v.rotateLeft 1).getLsbD i = if i = 0 then v.msb else v.getLsbD (i - 1) := by
  split
  case isTrue hzero =>
    have hlast := rotateLeft_getLsbD_add_mod v 1 (i := w - 1) (by omega)
    rw [Nat.sub_add_cancel (by omega), Nat.mod_self] at hlast
    rw [hzero, hlast, BitVec.msb_eq_getLsbD_last]
  case isFalse hpos =>
    have hprev := rotateLeft_getLsbD_add_mod v 1 (i := i - 1) (by omega)
    rwa [Nat.sub_add_cancel (by omega), Nat.mod_eq_of_lt hi] at hprev

theorem rotateRight_one_getLsbD (v : BitVec w) {i : Nat} (hi : i < w) :
    (v.rotateRight 1).getLsbD i = if i = w - 1 then v.getLsbD 0 else v.getLsbD (i + 1) := by
  rw [rotateRight_getLsbD v 1 hi]
  split
  case isTrue hlast => rw [hlast, Nat.sub_add_cancel (by omega), Nat.mod_self]
  case isFalse hlt => rw [Nat.mod_eq_of_lt (by omega)]

/-! ## One position -/

/-- A shift left by one with `b` shifted in. -/
theorem shiftLeft_one_or_ofBool_getLsbD (b : Bool) (v : BitVec w) {i : Nat} (hi : i < w) :
    ((v <<< 1) ||| (BitVec.ofBool b).setWidth w).getLsbD i = if i = 0 then b else v.getLsbD (i - 1) := by
  simp only [BitVec.getLsbD_or, BitVec.getLsbD_shiftLeft, BitVec.getLsbD_setWidth, BitVec.getLsbD_ofBool, hi]
  by_cases hzero : i = 0
  · simp [hzero]
  · simp [hzero, show ¬ i < 1 by omega]

/-- A shift right by one with `b` shifted in. -/
theorem ushiftRight_one_or_ofBool_getLsbD (b : Bool) (v : BitVec w) {i : Nat} (hi : i < w) :
    ((v >>> 1) ||| ((BitVec.ofBool b).setWidth w <<< (w - 1))).getLsbD i =
      if i = w - 1 then b else v.getLsbD (i + 1) := by
  simp only [BitVec.getLsbD_or, BitVec.getLsbD_ushiftRight, BitVec.getLsbD_shiftLeft, BitVec.getLsbD_setWidth,
    BitVec.getLsbD_ofBool, hi]
  by_cases hlast : i = w - 1
  · have hout : v.getLsbD (1 + i) = false := BitVec.getLsbD_of_ge _ _ (by omega)
    simp [hlast ▸ hout, hlast]
    omega
  · simp [hlast, show i < w - 1 by omega, Nat.add_comm]

/-- RLC turns the value left; the bit that came round is the carry (R241). -/
theorem shiftOnce_rlc (hw : 0 < w) (c : Bool) (v : BitVec w) :
    shiftOnce .rlc c v = (v.rotateLeft 1, (v.rotateLeft 1).getLsbD 0) := by
  refine Prod.ext (BitVec.eq_of_getLsbD_eq fun i hi => ?_) ?_
  · rw [rotateLeft_one_getLsbD v hi]
    exact shiftLeft_one_or_ofBool_getLsbD v.msb v hi
  · exact (rotateLeft_one_getLsbD v hw).symm

/-- RRC turns the value right; the bit that came round is the carry (R242). -/
theorem shiftOnce_rrc (hw : 0 < w) (c : Bool) (v : BitVec w) :
    shiftOnce .rrc c v = (v.rotateRight 1, (v.rotateRight 1).msb) := by
  refine Prod.ext (BitVec.eq_of_getLsbD_eq fun i hi => ?_) ?_
  · rw [rotateRight_one_getLsbD v hi]
    exact ushiftRight_one_or_ofBool_getLsbD (v.getLsbD 0) v hi
  · rw [BitVec.msb_eq_getLsbD_last, rotateRight_one_getLsbD v (by omega), if_pos rfl]
    rfl

/-- RL turns the value with C above it left (R243). -/
theorem shiftOnce_rl (hw : 0 < w) (x : BitVec (w + 1)) :
    shiftOnce .rl x.msb (x.setWidth w) = ((x.rotateLeft 1).setWidth w, (x.rotateLeft 1).msb) := by
  refine Prod.ext (BitVec.eq_of_getLsbD_eq fun i hi => ?value) ?carry
  case value =>
    have hin := shiftLeft_one_or_ofBool_getLsbD x.msb (x.setWidth w) hi
    rw [BitVec.getLsbD_setWidth, rotateLeft_one_getLsbD x (by omega), decide_eq_true hi, Bool.true_and]
    rwa [BitVec.getLsbD_setWidth, decide_eq_true (show i - 1 < w by omega), Bool.true_and] at hin
  case carry =>
    show (x.setWidth w).msb = (x.rotateLeft 1).msb
    rw [BitVec.msb_setWidth, decide_eq_true hw, Bool.true_and, BitVec.msb_eq_getLsbD_last (x.rotateLeft 1),
      rotateLeft_one_getLsbD x (by omega), if_neg (by omega)]
    rfl

/-- RR turns the value with C below it right (R244). -/
theorem shiftOnce_rr (hw : 0 < w) (x : BitVec (w + 1)) :
    shiftOnce .rr (x.getLsbD 0) (x.extractLsb' 1 w) =
      ((x.rotateRight 1).extractLsb' 1 w, (x.rotateRight 1).getLsbD 0) := by
  refine Prod.ext (BitVec.eq_of_getLsbD_eq fun i hi => ?value) ?carry
  case value =>
    have hin := ushiftRight_one_or_ofBool_getLsbD (x.getLsbD 0) (x.extractLsb' 1 w) hi
    rw [BitVec.getLsbD_extractLsb', rotateRight_one_getLsbD x (by omega), decide_eq_true hi, Bool.true_and]
    refine hin.trans ?_
    by_cases hlast : i = w - 1
    · rw [if_pos hlast, if_pos (by omega)]
    · rw [if_neg hlast, if_neg (by omega), BitVec.getLsbD_extractLsb', decide_eq_true (by omega), Bool.true_and]
      rfl
  case carry =>
    rw [rotateRight_one_getLsbD x (by omega), if_neg (by omega)]
    exact (BitVec.getLsbD_extractLsb' ..).trans (by simp [hw])

/-! ## The closed forms -/

theorem rotateLeft_zero (v : BitVec w) : v.rotateLeft 0 = v := by
  apply BitVec.eq_of_getLsbD_eq
  intro i hi
  have h := rotateLeft_getLsbD_add_mod v 0 hi
  rwa [Nat.add_zero, Nat.mod_eq_of_lt hi] at h

theorem rotateRight_zero (v : BitVec w) : v.rotateRight 0 = v := by
  apply BitVec.eq_of_getLsbD_eq
  intro i hi
  rw [rotateRight_getLsbD v 0 hi, Nat.add_zero, Nat.mod_eq_of_lt hi]

theorem shiftMany_rlc_succ (k : Nat) (c : Bool) (v : BitVec w) :
    shiftMany .rlc (k + 1) c v = (v.rotateLeft (k + 1), (v.rotateLeft (k + 1)).getLsbD 0) := by
  rw [← BitVec.rotateLeft_mod_eq_rotateLeft]
  rfl

theorem shiftMany_rlc_fst (k : Nat) (c : Bool) (v : BitVec w) : (shiftMany .rlc k c v).1 = v.rotateLeft k := by
  cases k with
  | zero => exact (rotateLeft_zero v).symm
  | succ k => rw [shiftMany_rlc_succ]

theorem shiftMany_rrc_succ (k : Nat) (c : Bool) (v : BitVec w) :
    shiftMany .rrc (k + 1) c v = (v.rotateRight (k + 1), (v.rotateRight (k + 1)).msb) := by
  rw [← BitVec.rotateRight_mod_eq_rotateRight]
  rfl

theorem shiftMany_rrc_fst (k : Nat) (c : Bool) (v : BitVec w) : (shiftMany .rrc k c v).1 = v.rotateRight k := by
  cases k with
  | zero => exact (rotateRight_zero v).symm
  | succ k => rw [shiftMany_rrc_succ]

theorem shiftMany_rl (k : Nat) (c : Bool) (v : BitVec w) :
    shiftMany .rl k c v =
      (((BitVec.cons c v).rotateLeft k).setWidth w, ((BitVec.cons c v).rotateLeft k).msb) := by
  cases k with
  | zero => rw [rotateLeft_zero, BitVec.setWidth_cons, BitVec.msb_cons]; rfl
  | succ k => rw [← BitVec.rotateLeft_mod_eq_rotateLeft]; rfl

theorem shiftMany_rr (k : Nat) (c : Bool) (v : BitVec w) :
    shiftMany .rr k c v =
      (((BitVec.concat v c).rotateRight k).extractLsb' 1 w, ((BitVec.concat v c).rotateRight k).getLsbD 0) := by
  cases k with
  | zero =>
    rw [rotateRight_zero, BitVec.getLsbD_concat_zero]
    refine Prod.ext (BitVec.eq_of_getLsbD_eq fun i hi => ?_) rfl
    simp [shiftMany, hi, Nat.add_comm 1]
  | succ k => rw [← BitVec.rotateRight_mod_eq_rotateRight]; rfl

/-- SLA moves out last what one position less has brought to the top (R245). -/
theorem shiftMany_sla_succ (k : Nat) (c : Bool) (v : BitVec w) :
    shiftMany .sla (k + 1) c v = (v <<< (k + 1), (v <<< k).msb) := by
  rw [shiftMany, if_neg k.succ_ne_zero, BitVec.msb_shiftLeft, BitVec.getMsbD_eq_getLsbD]
  split
  case isTrue hle => rw [decide_eq_true (by omega), Bool.true_and, show w - 1 - k = w - (k + 1) by omega]
  case isFalse hgt => rw [decide_eq_false (by omega), Bool.false_and, BitVec.shiftLeft_eq_zero (by omega)]

theorem shiftMany_sla_fst (k : Nat) (c : Bool) (v : BitVec w) : (shiftMany .sla k c v).1 = v <<< k := by
  cases k with
  | zero => exact (BitVec.shiftLeft_zero v).symm
  | succ k => rw [shiftMany_sla_succ]

/-- SRL moves out last what one position less has brought to the bottom (R247). -/
theorem shiftMany_srl_succ (k : Nat) (c : Bool) (v : BitVec w) :
    shiftMany .srl (k + 1) c v = (v >>> (k + 1), (v >>> k).getLsbD 0) := by
  rw [shiftMany, if_neg k.succ_ne_zero, BitVec.getLsbD_ushiftRight]
  split
  case isTrue hle => rfl
  case isFalse hgt => rw [BitVec.getLsbD_of_ge _ _ (by omega), BitVec.ushiftRight_eq_zero (by omega)]

theorem shiftMany_srl_fst (k : Nat) (c : Bool) (v : BitVec w) : (shiftMany .srl k c v).1 = v >>> k := by
  cases k with
  | zero => exact (BitVec.ushiftRight_zero v).symm
  | succ k => rw [shiftMany_srl_succ]

/-- Past the width the sign fills the value, so a longer arithmetic shift does no more. -/
theorem sshiftRight_of_width_le (v : BitVec w) {k : Nat} (hk : w ≤ k) : v.sshiftRight k = v.sshiftRight (w - 1) := by
  apply BitVec.eq_of_getLsbD_eq
  intro i hi
  rw [BitVec.getLsbD_sshiftRight, BitVec.getLsbD_sshiftRight, if_neg (show ¬ k + i < w by omega)]
  split
  case isTrue hlast => rw [BitVec.msb_eq_getLsbD_last, show w - 1 + i = w - 1 by omega]
  case isFalse => rfl

/-- SRA moves out last what one position less has brought to the bottom (R246). -/
theorem shiftMany_sra_succ (hw : 0 < w) (k : Nat) (c : Bool) (v : BitVec w) :
    shiftMany .sra (k + 1) c v = (v.sshiftRight (k + 1), (v.sshiftRight k).getLsbD 0) := by
  rw [shiftMany, if_neg k.succ_ne_zero, BitVec.getLsbD_sshiftRight, decide_eq_false (by omega), Bool.not_false,
    Bool.true_and, Nat.add_zero k]
  split
  case isTrue hlt => rw [if_pos (by omega), Nat.add_sub_cancel]
  case isFalse hge =>
    rw [sshiftRight_of_width_le v (k := k + 1) (by omega)]
    split
    case isTrue hlast => rw [show k = w - 1 by omega, BitVec.msb_eq_getLsbD_last]
    case isFalse => rfl

theorem shiftMany_sra_fst (hw : 0 < w) (k : Nat) (c : Bool) (v : BitVec w) :
    (shiftMany .sra k c v).1 = v.sshiftRight k := by
  cases k with
  | zero => exact BitVec.sshiftRight_zero.symm
  | succ k => rw [shiftMany_sra_succ hw]

/-! ## The repetition -/

/-- One position more in the closed form is one more step. -/
theorem shiftMany_succ (hw : 0 < w) (kind : ShiftKind) (k : Nat) (c : Bool) (v : BitVec w) :
    shiftMany kind (k + 1) c v = shiftOnce kind (shiftMany kind k c v).2 (shiftMany kind k c v).1 := by
  cases kind with
  | rlc => rw [shiftOnce_rlc hw, shiftMany_rlc_fst, shiftMany_rlc_succ, rotateLeft_succ]
  | rrc => rw [shiftOnce_rrc hw, shiftMany_rrc_fst, shiftMany_rrc_succ, rotateRight_succ]
  | rl => rw [shiftMany_rl, shiftMany_rl, shiftOnce_rl hw, rotateLeft_succ]
  | rr => rw [shiftMany_rr, shiftMany_rr, shiftOnce_rr hw, rotateRight_succ]
  | sla => rw [shiftOnce, shiftMany_sla_fst, shiftMany_sla_succ, BitVec.shiftLeft_add]
  | sra => rw [shiftOnce, shiftMany_sra_fst hw, shiftMany_sra_succ hw, BitVec.sshiftRight_add]
  | srl => rw [shiftOnce, shiftMany_srl_fst, shiftMany_srl_succ, BitVec.shiftRight_add]

/-- The repetition read from its end: one more step after the others. -/
theorem shiftRepeat_succ (kind : ShiftKind) (k : Nat) (c : Bool) (v : BitVec w) :
    shiftRepeat kind (k + 1) c v = shiftOnce kind (shiftRepeat kind k c v).2 (shiftRepeat kind k c v).1 := by
  induction k generalizing c v with
  | zero => rfl
  | succ k ih => exact ih (shiftOnce kind c v).2 (shiftOnce kind c v).1

end ClosedForms

/-- Settles O25, by induction on the count: the closed form and the repetition both grow by one step. -/
theorem shiftClosedForms : Obligations.ShiftClosedForms := by
  intro kind w k c v hw
  induction k with
  | zero => rfl
  | succ k ih => rw [shiftMany_succ hw, ih, shiftRepeat_succ]

end Sys2Proof.Machine
end

section
/-! PROOFS. The statements on the logical, bit, shift and digit instructions (R230 to R249). What each shape of
instruction does with an operation is said by `binR_next`, `unR_next`, `shiftR_next` and their memory forms; here stands
what each operation computes, and the statements join the two. -/

namespace Sys2Proof.Machine

/-! ## Bitwise operations -/

theorem andOp_computes (ss : Size) :
    Computes (ss := ss) andOp (fun _ a b => a &&& b) (fun _ a b => LogicalFlags (a &&& b) true) where
  value _ _ _ := rfl
  flags _ a b := logicFlags_flags (a &&& b) true

theorem orOp_computes (ss : Size) :
    Computes (ss := ss) orOp (fun _ a b => a ||| b) (fun _ a b => LogicalFlags (a ||| b) false) where
  value _ _ _ := rfl
  flags _ a b := logicFlags_flags (a ||| b) false

theorem xorOp_computes (ss : Size) :
    Computes (ss := ss) xorOp (fun _ a b => a ^^^ b) (fun _ a b => LogicalFlags (a ^^^ b) false) where
  value _ _ _ := rfl
  flags _ a b := logicFlags_flags (a ^^^ b) false

/-- CPL sets the flags of the complement as a logical result with H, but N too, and keeps C (R235). -/
theorem cplOp_computes (ss : Size) : ComputesUnary (ss := ss) cplOp (~~~·) (fun v => LogicalFlags (~~~v) true)
    (fun f g => { g with n := true, c := f.c }) := fun _ v =>
  ⟨_, rfl, logicFlags_flags (~~~v) true, rfl⟩

/-- Settles O47: each form joins the operation's result and flags to its shape. -/
theorem logicalOperations : Obligations.LogicalOperations :=
  ⟨fun ss _ src s hd => (andOp_computes ss).binR src s hd, fun ss ea _ s hd => (andOp_computes ss).binM_toReg ea s hd,
    fun ss ea src s => (andOp_computes ss).binM_toMem ea src s,
    fun ss _ src s hd => (orOp_computes ss).binR src s hd, fun ss ea _ s hd => (orOp_computes ss).binM_toReg ea s hd,
    fun ss ea src s => (orOp_computes ss).binM_toMem ea src s,
    fun ss _ src s hd => (xorOp_computes ss).binR src s hd, fun ss ea _ s hd => (xorOp_computes ss).binM_toReg ea s hd,
    fun ss ea src s => (xorOp_computes ss).binM_toMem ea src s⟩

/-- Settles O48: the flags are those AND would set, and setting them is all that happens (`Computes.setFlags`). -/
theorem testOnlySetsFlags : Obligations.TestOnlySetsFlags :=
  ⟨fun ss _ _ s => ⟨_, rfl, (andOp_computes ss).setFlags _ _ s⟩,
    fun ss _ _ s => ⟨_, rfl, (andOp_computes ss).setFlags _ _ s⟩,
    fun ss _ _ s => ⟨_, rfl, (andOp_computes ss).setFlags _ _ s⟩⟩

/-- Settles O49: the complement and its flags (`cplOp_computes`), on a register and on memory. -/
theorem complement : Obligations.Complement :=
  ⟨fun ss _ s hd => (cplOp_computes ss).unR s hd, fun ss ea s => (cplOp_computes ss).unM ea s⟩

/-! ## Single bits -/

/-- A bit test of a value sets its flags, with the number reduced by the width, and does nothing else (R237). -/
theorem State.setFlags_bitFlags {w : Nat} (s : State) (v : BitVec w) (n : Nat) :
    FlagFrame s (s.setFlags (bitFlags s.flags v n)) ∧
      (s.setFlags (bitFlags s.flags v n)).flags =
        { s.flags with z := !v.getLsbD (n % w), h := true, n := false } :=
  ⟨s.setFlags_frame _, s.flags_setFlags _⟩

/-- Settles O50: every form is a bit test of one operand by the other (`State.setFlags_bitFlags`). -/
theorem bitTest : Obligations.BitTest :=
  ⟨fun _ _ _ s => ⟨_, rfl, s.setFlags_bitFlags _ _⟩, fun _ _ _ s => ⟨_, rfl, s.setFlags_bitFlags _ _⟩,
    fun _ _ _ s => ⟨_, rfl, s.setFlags_bitFlags _ _⟩⟩

section ChangeBit
variable {ss : Size} {op : BitVec ss.bits → Nat → BitVec ss.bits} {b : Bool}

/-- The operation gives the bit with the number, reduced by the width, the value `b`, and keeps every other. -/
def WritesBit (op : BitVec ss.bits → Nat → BitVec ss.bits) (b : Bool) : Prop :=
  ∀ v n i, i < ss.bits → (op v n).getLsbD i = if i = n % ss.bits then b else v.getLsbD i

theorem WritesBit.changeBitR (h : WritesBit op b) (d : RegField) (n : Count) (s : State) :
    ∃ t v, changeBitR op d n s = .next t ∧
      (∀ i, i < ss.bits → v.getLsbD i = if i = s.countVal ss n % ss.bits then b else (s.getReg ss d).getLsbD i) ∧
      RegWritten ss d v s t :=
  ⟨_, _, rfl, h _ _, s.setReg_written ss d _⟩

theorem WritesBit.changeBitM_onMem (h : WritesBit op b) (ea : Addr) (n : Count) (s : State) :
    ∃ t v, changeBitM op ea (.onMem n) s = .next t ∧
      (∀ i, i < ss.bits → v.getLsbD i =
        if i = s.countVal ss n % ss.bits then b else (s.load .data ss (s.ea ea)).getLsbD i) ∧
      Stored ss (s.ea ea) v s t ∧ t = { s with mem := t.mem, trace := t.trace } :=
  ⟨_, _, rfl, h _ _, s.store_stored ss (s.ea ea) _, s.store_rest ss (s.ea ea) _⟩

theorem WritesBit.changeBitM_onReg (h : WritesBit op b) (ea : Addr) (d : RegField) (s : State) :
    ∃ t v, changeBitM op ea (.onReg d) s = .next t ∧
      (∀ i, i < ss.bits → v.getLsbD i =
        if i = (s.load .data ss (s.ea ea)).toNat % ss.bits then b else (s.getReg ss d).getLsbD i) ∧
      RegWritten ss d v s t :=
  ⟨_, _, rfl, h _ _, s.setReg_written ss d _⟩

end ChangeBit

theorem setBitOp_writesBit (ss : Size) : WritesBit (ss := ss) setBitOp true := fun v n _ hi =>
  setBitOp_getLsbD (Nat.zero_lt_of_lt hi) v n hi

theorem resBitOp_writesBit (ss : Size) : WritesBit (ss := ss) resBitOp false := fun v n _ hi =>
  resBitOp_getLsbD (Nat.zero_lt_of_lt hi) v n hi

/-- Settles O51: the value written differs from the operand in the one bit (`setBitOp_writesBit`,
`resBitOp_writesBit`), and the write is a register write or a store. -/
theorem setAndResetBit : Obligations.SetAndResetBit :=
  ⟨fun ss d n s => (setBitOp_writesBit ss).changeBitR d n s,
    fun ss ea n s => (setBitOp_writesBit ss).changeBitM_onMem ea n s,
    fun ss ea d s => (setBitOp_writesBit ss).changeBitM_onReg ea d s,
    fun ss d n s => (resBitOp_writesBit ss).changeBitR d n s,
    fun ss ea n s => (resBitOp_writesBit ss).changeBitM_onMem ea n s,
    fun ss ea d s => (resBitOp_writesBit ss).changeBitM_onReg ea d s⟩

/-! ## Shifts and rotates -/

/-- The result is that of the repetition (`shiftClosedForms`). -/
theorem shiftOp_value {ss : Size} (kind : ShiftKind) (k : Nat) (f : Flags) (v : BitVec ss.bits) :
    (shiftOp kind k f v).1 = (shiftRepeat kind k f.c v).1 := by
  rw [← shiftClosedForms kind ss.bits k f.c v (Nat.zero_lt_of_lt (four_lt_bits ss))]
  rfl

theorem shiftOp_flags {ss : Size} (kind : ShiftKind) (k : Nat) (f : Flags) (v : BitVec ss.bits) :
    ShiftFlags (shiftRepeat kind k f.c v).1 (shiftRepeat kind k f.c v).2 (shiftOp kind k f v).2 := by
  rw [← shiftClosedForms kind ss.bits k f.c v (Nat.zero_lt_of_lt (four_lt_bits ss))]
  have hlogic := logicFlags_flags (shiftMany kind k f.c v).1 false
  exact ⟨hlogic.s, hlogic.z, hlogic.h, hlogic.pv, hlogic.n, rfl⟩

/-- Instructions that run as the shift of one kind shift by that kind. -/
theorem shiftsBy_of_exec {kind : ShiftKind} {onReg : Size → RegField → Count → Instr}
    {onMem : Size → Addr → CountForm → Instr} (hreg : ∀ ss d n s, exec (onReg ss d n) s = shiftR kind ss d n s)
    (hmem : ∀ ss ea f s, exec (onMem ss ea f) s = shiftM kind ss ea f s) : ShiftsBy kind onReg onMem := by
  refine ⟨fun ss d n s hd => ?register, fun ss ea n s => ?memory, fun ss ea d s hd => ?countInMemory⟩
  case register =>
    obtain ⟨t, hnext, hframe, hvalue, hflags⟩ := shiftR_next kind n s hd
    exact ⟨t, (hreg ..).trans hnext, hframe, hvalue.trans (shiftOp_value ..), hflags ▸ shiftOp_flags ..⟩
  case memory =>
    obtain ⟨t, hnext, hframe, hflags⟩ := shiftM_onMem kind ss ea n s
    rw [shiftOp_value] at hframe
    exact ⟨t, (hmem ..).trans hnext, hframe, hflags ▸ shiftOp_flags ..⟩
  case countInMemory =>
    obtain ⟨t, hnext, hframe, hvalue, hflags⟩ := shiftM_onReg kind ea s hd
    exact ⟨t, (hmem ..).trans hnext, hframe, hvalue.trans (shiftOp_value ..), hflags ▸ shiftOp_flags ..⟩

/-- Settles O52: each mnemonic runs as the shift of its kind (`shiftsBy_of_exec`). -/
theorem shiftsAndRotates : Obligations.ShiftsAndRotates :=
  ⟨shiftsBy_of_exec (fun _ _ _ _ => rfl) fun _ _ _ _ => rfl,
    shiftsBy_of_exec (fun _ _ _ _ => rfl) fun _ _ _ _ => rfl,
    shiftsBy_of_exec (fun _ _ _ _ => rfl) fun _ _ _ _ => rfl,
    shiftsBy_of_exec (fun _ _ _ _ => rfl) fun _ _ _ _ => rfl,
    shiftsBy_of_exec (fun _ _ _ _ => rfl) fun _ _ _ _ => rfl,
    shiftsBy_of_exec (fun _ _ _ _ => rfl) fun _ _ _ _ => rfl,
    shiftsBy_of_exec (fun _ _ _ _ => rfl) fun _ _ _ _ => rfl⟩

/-! ## Digits -/

theorem lowDigit_toNat (v : Byte) : (lowDigit v).toNat = v.toNat % 16 := BitVec.toNat_setWidth ..

theorem highDigit_toNat (v : Byte) : (highDigit v).toNat = v.toNat / 16 := by
  have := v.isLt
  simp [highDigit, BitVec.extractLsb'_toNat, Nat.shiftRight_eq_div_pow]
  omega

/-- A byte of two digits, as a number. -/
theorem digits_eq_ofNat (hi lo : BitVec 4) : digits hi lo = BitVec.ofNat 8 (hi.toNat * 16 + lo.toNat) := by
  apply BitVec.eq_of_toNat_eq
  have hhi := hi.isLt
  have hlo := lo.isLt
  rw [digits, BitVec.toNat_append, BitVec.toNat_ofNat, ← Nat.shiftLeft_add_eq_or_of_lt hlo, Nat.shiftLeft_eq]
  omega

theorem digitFlags_kept (f : Flags) (a : Byte) :
    ∃ g, LogicalFlags a false g ∧ digitFlags f a = { g with c := f.c } :=
  ⟨logicFlags a false, logicFlags_flags a false, rfl⟩

/-- A byte stored at (HL), a byte written to the low byte of A, and the flags of that byte with C kept: the whole
effect (R248, R249). -/
theorem State.digitsRotated (s : State) (m a : Nat) : DigitsRotated m a s
    (((s.store .byte (s.get32 .hl) (BitVec.ofNat 8 m)).setReg .byte .r0 (BitVec.ofNat 8 a)).setFlags
      (digitFlags s.flags (BitVec.ofNat 8 a))) := by
  have hmem := s.store_setFlags .byte (s.get32 .hl) (BitVec.ofNat 8 m) (digitFlags s.flags (BitVec.ofNat 8 a))
  obtain ⟨hlow, -, hframe⟩ := ((s.store .byte (s.get32 .hl) (BitVec.ofNat 8 m)).setReg_written .byte .r0
    (BitVec.ofNat 8 a)).plain nofun
  refine ⟨⟨hmem.stored.written, hmem.stored.kept, hmem.stored.events⟩, hlow, ?high, ?flags, hmem.status, ?rest⟩
  case high =>
    have hupper := hframe.upper rfl
    rwa [State.upperByte, State.upperByte, State.get16, State.get16, State.store_reg] at hupper
  case flags =>
    rw [State.flags_setFlags]
    exact digitFlags_kept ..
  case rest =>
    apply State.ext <;> simp [State.setFlags, State.setReg, State.set16, Bank.set16]

/-- Settles O53: the bytes made of the digits are the numbers the statement names (`digits_eq_ofNat`). -/
theorem digitRotates : Obligations.DigitRotates := by
  refine ⟨fun s => ⟨_, rfl, ?rld⟩, fun s => ⟨_, rfl, ?rrd⟩⟩
  case rld =>
    simp only [digits_eq_ofNat, lowDigit_toNat, highDigit_toNat]
    exact s.digitsRotated _ _
  case rrd =>
    simp only [digits_eq_ofNat, lowDigit_toNat, highDigit_toNat]
    exact s.digitsRotated _ _

end Sys2Proof.Machine
end

section
/-! PROOFS. The statements on flow control (R270 to R283). What a branch, a push, a change of the flip-flops and a change
of the flags do is said by `branch_eq`, `State.push32_pushed`, `State.setIff1_f` and `State.setFlags_frame`; here stands
which of them each instruction makes. -/

namespace Sys2Proof.Machine

/-! ## NOP -/

theorem two_le_encodeMSrc_length (op : Nat) (ss : Size) (ea : Addr) (f : MemForm) :
    2 ≤ (encodeMSrc op ss ea f).length := by
  cases f <;> exact Nat.le_add_left 2 _

theorem two_le_encodeMCount_length (op : Nat) (ss : Size) (ea : Addr) (f : CountForm) :
    2 ≤ (encodeMCount op ss ea f).length := by
  cases f <;> exact Nat.le_add_left 2 _

/-- Every format but SB starts with two bytes, and of the three instructions of format SB two have an operand byte
(R119). -/
theorem two_le_encode_length {i : Instr} (h : i ≠ .nop) : 2 ≤ (encode i).length := by
  cases i with
  | nop => exact absurd rfl h
  | djnz | janz => exact Nat.le_refl 2
  | ldM | addM | adcM | subM | sbcM | cpM | andM | orM | xorM | tstM => exact two_le_encodeMSrc_length ..
  | bitM | setM | resM | rlcM | rrcM | rlM | rrM | slaM | sraM | srlM => exact two_le_encodeMCount_length ..
  | _ => exact Nat.le_add_left 2 _

/-- Settles O54: the step is that of an encoding of one byte (`stepRunsEncodedInstruction`), which no other instruction
has (`two_le_encode_length`). -/
theorem noOperation : Obligations.NoOperation := by
  refine ⟨rfl, fun _ => rfl, fun s rest hrun hbytes => ?step, fun i hlen => ?oneByte⟩
  case step => exact stepRunsEncodedInstruction s .nop hrun rfl ⟨rest, hbytes.symm⟩
  case oneByte =>
    by_contra hne
    have := two_le_encode_length hne
    omega

/-! ## Jumps -/

/-- A branch by a displacement of any width goes to the base plus its signed value (R270 (c)). -/
theorem branch_signExtend (taken : Bool) {w : Nat} (e : BitVec w) (s : State) :
    branch taken (s.relTarget (e.signExtend 32)) s =
      .next { s with pc := if taken then s.branchTarget e.toInt else s.pc } := by
  rw [branch_eq, State.relTarget_signExtend]

/-- A branch made when a word is not 0: DJNZ and JANZ test so (R274, R275). -/
theorem branch_ne_zero (x : Word) (e : Byte) (s : State) :
    branch (decide (x ≠ 0)) (s.relTarget (e.signExtend 32)) s =
      .next { s with pc := if x = 0 then s.pc else s.branchTarget e.toInt } := by
  rw [branch_signExtend]
  simp only [ne_eq, decide_eq_true_eq, ite_not]

/-- Settles O55: each is a branch (`branch_eq`), the relative ones by a displacement (`branch_signExtend`), and DJNZ
branches in the state where B has been decremented, from the same base. -/
theorem jumps : Obligations.Jumps := by
  refine ⟨fun cc x s => branch_eq .., fun cc e s => branch_signExtend .., fun cc r s => branch_signExtend ..,
    fun cc e s => branch_signExtend .., fun cc r s => branch_signExtend .., fun e s => ?djnz,
    fun e s => branch_ne_zero s.reg.a e s⟩
  have hbranch := branch_ne_zero (s.reg.b - 1) e (s.set16 .b (s.reg.b - 1))
  simp only [word_sub_one_eq_zero] at hbranch
  exact hbranch

/-! ## Calls -/

/-- A call pushes the address of the next instruction and goes to the target, or does nothing (R276, R277). -/
theorem callTo_pushed (taken : Bool) (target : Dword) (s : State) : ∃ t, callTo taken target s = .next t ∧
    (taken = false → t = s) ∧ (taken = true → ∃ u, Pushed s.pc s u ∧ t = { u with pc := target }) := by
  cases taken with
  | false => exact ⟨s, rfl, fun _ => rfl, nofun⟩
  | true => exact ⟨_, rfl, nofun, fun _ => ⟨_, s.push32_pushed s.pc, rfl⟩⟩

theorem callTo_signExtend (taken : Bool) {w : Nat} (e : BitVec w) (s : State) :
    ∃ t, callTo taken (s.relTarget (e.signExtend 32)) s = .next t ∧ (taken = false → t = s) ∧
      (taken = true → ∃ u, Pushed s.pc s u ∧ t = { u with pc := s.branchTarget e.toInt }) :=
  s.relTarget_signExtend e ▸ callTo_pushed ..

/-- Settles O56: CALL and CALLR are calls (`callTo_pushed`, `callTo_signExtend`), and RST reads its vector in the state
after the push. -/
theorem calls : Obligations.Calls := by
  refine ⟨fun cc x s => callTo_pushed .., fun cc e s => callTo_signExtend .., fun cc r s => callTo_signExtend ..,
    fun cc e s => callTo_signExtend .., fun cc r s => callTo_signExtend .., fun n s => ?rst⟩
  refine ⟨s.push32 s.pc, s.interrupt .soft n, rfl, s.push32_pushed s.pc, ?_⟩
  rw [← vecAddr_ofNat, ← s.push32_ivb s.pc]
  rfl

/-! ## Returns -/

/-- The state after a return that leaves both flip-flops set: RETI, and RETN when IFF2 was 1 (R279, R280). -/
def State.enabledReturn (s : State) : State :=
  ({ s.popReturn with iff2 := true }.setIff1 true).returnInhibit s.iff1

theorem State.enabledReturn_returned (s : State) : Returned s s.enabledReturn :=
  ⟨State.returnInhibit_pc .., by rw [State.enabledReturn, State.returnInhibit_rest]; rfl⟩

theorem State.enabledReturn_f (s : State) : s.enabledReturn.reg.f = s.reg.f ||| 0x0100#16 := by
  rw [State.enabledReturn, State.returnInhibit_reg]
  exact State.setIff1_f _ true

theorem State.enabledReturn_iff2 (s : State) : s.enabledReturn.iff2 = true := State.returnInhibit_iff2 ..

/-- With the delay, an enabling return starts the inhibit when IFF1 was 0 (D15, R323). -/
theorem State.enabledReturn_started {s : State} (hdelay : s.cfg.retEnableDelay = true) (hdisabled : s.iff1 = false) :
    s.enabledReturn.inhibit = true := by
  rw [State.enabledReturn, hdisabled]
  exact State.returnInhibit_started hdelay

theorem State.enabledReturn_off {s : State} (hdelay : s.cfg.retEnableDelay = false) :
    s.enabledReturn.inhibit = s.inhibit := by
  rw [State.enabledReturn, State.returnInhibit_off]
  · rfl
  · exact hdelay

section Taken
variable {cc : Cond} {s : State}

theorem execRet_taken (hcond : s.cond cc = true) : execRet cc s = .next s.popReturn :=
  congrArg Host.Outcome.next (if_pos hcond)

theorem execReti_taken (hcond : s.cond cc = true) : execReti cc s = .next s.enabledReturn :=
  congrArg Host.Outcome.next (if_pos hcond)

/-- RETN with IFF2 = 1 sets IFF1, and IFF2 stays set. -/
theorem execRetn_enabled (hcond : s.cond cc = true) (h2 : s.iff2 = true) :
    execRetn cc s = .next s.enabledReturn := by
  have hsame : { s.popReturn with iff2 := true } = s.popReturn := by rw [← h2]; rfl
  rw [execRetn, if_pos hcond, if_pos h2, State.enabledReturn, hsame, h2]

theorem execRetn_disabled (hcond : s.cond cc = true) (h2 : s.iff2 = false) :
    execRetn cc s = .next (s.popReturn.setIff1 false) := by
  rw [execRetn, if_pos hcond, h2]
  rfl

end Taken

/-- Settles O57: RETI, and RETN when IFF2 is 1, are the return that enables; RETN otherwise clears IFF1. -/
theorem returnsFromSubroutinesAndHandlers : Obligations.ReturnsFromSubroutinesAndHandlers := by
  refine ⟨fun cc s hcond => ?notTaken, fun cc s hcond => ?ret, fun cc s hcond => ?reti, fun cc s hcond => ?retn⟩
  case notTaken =>
    have hstay (t : State) : (if s.cond cc then t else s) = s := if_neg (by simp [hcond])
    exact ⟨congrArg _ (hstay _), congrArg _ (hstay _), congrArg _ (hstay _)⟩
  case ret => exact ⟨_, execRet_taken hcond, ⟨rfl, rfl⟩, rfl, rfl, rfl⟩
  case reti =>
    exact ⟨_, execReti_taken hcond, s.enabledReturn_returned, s.enabledReturn_f, s.enabledReturn_iff2,
      State.enabledReturn_started, State.enabledReturn_off⟩
  case retn =>
    cases h2 : s.iff2 with
    | true =>
      exact ⟨_, execRetn_enabled hcond h2, s.enabledReturn_returned, s.enabledReturn_f, s.enabledReturn_iff2,
        fun hdelay _ => State.enabledReturn_started hdelay,
        fun hoff => State.enabledReturn_off (hoff.resolve_right nofun)⟩
    | false =>
      exact ⟨_, execRetn_disabled hcond h2, ⟨rfl, rfl⟩, s.popReturn.setIff1_f false, h2, fun _ => nofun,
        fun _ => rfl⟩

/-! ## The carry flag -/

/-- Settles O58: each sets flags and nothing else (`State.setFlags_frame`). -/
theorem carryFlagInstructions : Obligations.CarryFlagInstructions := by
  refine ⟨rfl, rfl, fun s => ⟨_, rfl, s.setFlags_frame _, s.flags_setFlags _⟩, fun s => ?ccf⟩
  refine ⟨_, rfl, s.setFlags_frame _, s.flags_setFlags _, _, rfl, ?carry, ?half⟩
  case carry => simp
  case half => simp

end Sys2Proof.Machine
end

section
/-! PROOFS. The statements on the system instructions (R300 to R308): DI and EI through what a change of IFF1 does to F
(`State.setIff1_f`), and the functions of format N that name no instruction (`decode_encodeN`). -/

namespace Sys2Proof.Machine

/-! ## Enabling and disabling -/

/-- Setting IFF1, as an update of the one field it is a bit of. -/
theorem State.setIff1_eq (s : State) (b : Bool) : s.setIff1 b =
    { s with reg := { s.reg with f := if b then s.reg.f ||| 0x0100#16 else s.reg.f &&& ~~~0x0100#16 } } := by
  rw [← s.setIff1_f b]
  rfl

theorem execDi_eq (s : State) : execDi s =
    .next { s with reg := { s.reg with f := s.reg.f &&& ~~~0x0100#16 }, iff2 := false, inhibit := false } :=
  congrArg Host.Outcome.next (State.setIff1_eq _ false)

/-- EI takes the value of the inhibit from IFF1 as it was before (D14). -/
theorem execEi_eq (s : State) : execEi s =
    .next (State.startInhibit { s with reg := { s.reg with f := s.reg.f ||| 0x0100#16 }, iff2 := true } s.iff1) :=
  congrArg (fun t => Host.Outcome.next (State.startInhibit t s.iff1)) (State.setIff1_eq _ true)

/-! ## The interrupt modes -/

/-- The system functions 03 and 04 are not assigned (R305): format N leads to a table without them. -/
theorem decode_system_unassigned (m : Config.MltDivSS) {fn : Nat} (hfn : fn = 3 ∨ fn = 4) (rest : List Byte) :
    decode m (encodeN 8 fn rest) = .error .unassignedOpcode := by
  rw [decode_encodeN m (by decide)]
  obtain rfl | rfl := hfn <;> rfl

/-- Settles O59: DI is `execDi_eq`, the mode chooses the vector, and no table row has the functions 03 and 04
(`decode_system_unassigned`). -/
theorem disableAndModes : Obligations.DisableAndModes := by
  refine ⟨rfl, rfl, rfl, execDi_eq, fun s => ⟨rfl, rfl⟩, fun s v => ⟨rfl, rfl⟩,
    fun m rest => ⟨?function3, ?function4⟩⟩
  case function3 => exact decode_system_unassigned m (.inl rfl) rest
  case function4 => exact decode_system_unassigned m (.inr rfl) rest

/-! ## HALT, EI and the system registers -/

/-- Settles O60: EI is `execEi_eq`, the word LD I writes fits the 22 bits of IVB, and what LD A, R reads from R reaches
only A. -/
theorem haltEnableAndSystemRegisters : Obligations.HaltEnableAndSystemRegisters := by
  refine ⟨fun s => rfl, fun s => ?ei, fun nn s => ?ldI, fun s => rfl, fun s => ?ldAR⟩
  case ei => exact ⟨_, execEi_eq s, fun hdisabled => by rw [hdisabled, State.startInhibit_of_disabled], rfl⟩
  case ldI => exact ⟨_, rfl, BitVec.toNat_setWidth_of_le (by decide), rfl⟩
  case ldAR => exact ⟨_, rfl, rfl⟩

end Sys2Proof.Machine
end

section
/-! PROOFS. The statements on exceptions and interrupts (R320 to R338): the sampling point, the entry of NMI and INT,
what may change the flip-flops, and that no instruction but a refused one stops the machine. -/

namespace Sys2Proof.Machine

/-! ## The sampling point -/

/-- Settles O8: the statement is `State.sample` with the pin sample (`State.pinsNow`) and the latch (`State.latch`)
written out. The latch leaves IFF1 and the inhibit alone, so INT is masked by those of the state before it. -/
theorem samplingTakesHighestPriority : Obligations.SamplingTakesHighestPriority := fun _ => rfl

/-! ## The entry of NMI and INT -/

section HardwareEntry
variable (s : State) {k : Cause} (hk : k ≠ .soft) (n : Byte)
include hk

/-- Entry clears IFF1 in F and keeps every other bit, the six flags among them (R329, R330). -/
theorem State.interrupt_hardware_f : (s.interrupt k n).iff1 = false ∧ (s.interrupt k n).flags = s.flags ∧
    (s.interrupt k n).reg.f &&& ~~~0x0100#16 = s.reg.f &&& ~~~0x0100#16 := by
  obtain ⟨hf, -, -⟩ := s.interrupt_hardware hk n
  refine ⟨?iff1, ?flags, ?other⟩
  case iff1 => exact (congrArg (·.getLsbD 8) hf).trans (s.setIff1_iff1 false)
  case flags => exact (congrArg flagsOf hf).trans (s.setIff1_flags false)
  case other => exact hf ▸ s.setIff1_other false

/-- The vector is read as an interrupt's, not as RST's (R325, R330). -/
theorem State.interrupt_hardware_pc : (s.interrupt k n).pc =
    (s.interrupt k n).load .intVector .dword (BitVec.ofNat 32 (s.ivb.toNat * 1024 + 4 * n.toNat)) := by
  have hpc := s.interrupt_pc k n
  cases k with
  | soft => exact absurd rfl hk
  | nmi | int => exact hpc

/-- Nothing changes but F, SP, PC, the flip-flops, the inhibit, halted, nmi_pending and what the push writes. -/
theorem State.interrupt_hardware_rest : s.interrupt k n =
    { s with
      reg := { s.reg with f := (s.interrupt k n).reg.f, sp := s.reg.sp - 4 }, pc := (s.interrupt k n).pc
      iff2 := (s.interrupt k n).iff2, inhibit := false, halted := false
      nmiPending := (s.interrupt k n).nmiPending, mem := (s.interrupt k n).mem, trace := (s.interrupt k n).trace } := by
  cases k with
  | soft => exact absurd rfl hk
  | nmi => rw [State.interrupt_nmi]
  | int => rw [State.interrupt_int]

end HardwareEntry

/-- INT takes vector 1 in IM 1 and the device's byte in IM 2 (R326). -/
theorem State.enterInt_eq (s : State) (v : Byte) :
    ∃ n : Byte, s.enterInt v = s.interrupt .int n ∧ n.toNat = if s.im = .im1 then 1 else v.toNat := by
  cases him : s.im with
  | im1 => exact ⟨1#8, by rw [State.enterInt, him], rfl⟩
  | im2 => exact ⟨v, by rw [State.enterInt, him], rfl⟩

/-- Settles O9: what NMI and INT share is said of every hardware interrupt; IFF2 and nmi_pending are read off the effect
of each (`State.interrupt_nmi`, `State.interrupt_int`). -/
theorem hardwareInterruptEntry : Obligations.HardwareInterruptEntry := by
  refine ⟨fun s => ?nmi, fun s v => ?int⟩
  case nmi =>
    obtain ⟨hiff1, hflags, hother⟩ := s.interrupt_hardware_f (k := .nmi) (by decide) 2#8
    rw [State.enterNmi]
    exact ⟨hiff1, by rw [State.interrupt_nmi], by rw [State.interrupt_nmi], hflags, hother,
      s.interrupt_stored .nmi 2#8, s.interrupt_hardware_pc (by decide) 2#8, s.interrupt_hardware_rest (by decide) 2#8⟩
  case int =>
    obtain ⟨n, henter, hn⟩ := s.enterInt_eq v
    obtain ⟨hiff1, hflags, hother⟩ := s.interrupt_hardware_f (k := .int) (by decide) n
    rw [henter, ← hn]
    exact ⟨hiff1, by rw [State.interrupt_int], by rw [State.interrupt_int], hflags, hother,
      s.interrupt_stored .int n, s.interrupt_hardware_pc (by decide) n, s.interrupt_hardware_rest (by decide) n⟩

/-! ## The flip-flops -/

/-- IFF1, IFF2 and the inhibit are unchanged (R33, R38). -/
structure SameEnable (s t : State) : Prop where
  iff1 : t.iff1 = s.iff1
  iff2 : t.iff2 = s.iff2
  inhibit : t.inhibit = s.inhibit

theorem SameEnable.trans {s t u : State} (h : SameEnable s t) (g : SameEnable t u) : SameEnable s u :=
  ⟨g.iff1.trans h.iff1, g.iff2.trans h.iff2, g.inhibit.trans h.inhibit⟩

theorem Ordinary.sameEnable {s t : State} (h : Ordinary s t) : SameEnable s t where
  iff1 := h.iff1
  iff2 := by rw [h.rest]
  inhibit := by rw [h.rest]

/-- A test for AF as the destination that fails, as the lemmas about register writes ask for it. -/
theorem ne_af_of_decide {z : Type} [DecidableEq z] {ss dword : z} {d : RegField}
    (h : decide (ss = dword ∧ d = .r0) = false) : ss = dword → d ≠ .r0 := not_and.mp (of_decide_eq_false h)

theorem RegField.reg32_ne_af {d : RegField} (h : d ≠ .r0) : d.reg32 ≠ .af := RegField.reg32_ne h

/-- EI, DI, RETI and RETN, which set the flip-flops themselves (R324). -/
def switchesEnable : Instr → Bool
  | .ei | .di | .reti .. | .retn .. => true
  | _ => false

theorem execExAlt_sameEnable {z : WSize} {d : RegField} (hd : z = .dword → d ≠ .r0) {s t : State}
    (h : execExAlt z d s = .next t) : SameEnable s t := by
  have halt (g : Bank) : SameEnable s { s with alt := g } := ⟨rfl, rfl, rfl⟩
  cases z with
  | word => cases h; exact (halt _).trans (ordinary_set16 ..).sameEnable
  | dword => cases h; exact (halt _).trans (ordinary_set32 _ (RegField.reg32_ne_af (hd rfl)) _).sameEnable

/-- An instruction that is not ordinary and does not switch the flip-flops reaches them only by a write of AF. -/
theorem exec_sameEnable {i : Instr} (hi : switchesEnable i = false) (hF : writesFAsData i = false) {s t : State}
    (h : exec i s = .next t) : SameEnable s t := by
  cases i with
  | ei | di | reti | retn => cases hi
  | ldR | setR | resR | exhR => cases h; exact (ordinary_setReg s (ne_af_of_decide hF) _).sameEnable
  | ldM ss ea f =>
    cases f with
    | toMem src => cases h; exact (ordinary_store ..).sameEnable
    | toReg d => cases h; exact (ordinary_setReg s (ne_af_of_decide hF) _).sameEnable
  | setM ss ea f | resM ss ea f =>
    cases f with
    | onMem n => cases h; exact (ordinary_store ..).sameEnable
    | onReg d => cases h; exact (ordinary_setReg s (ne_af_of_decide hF) _).sameEnable
  | exR ss d r =>
    have hAF := not_and.mp (of_decide_eq_false hF)
    cases h
    exact ((ordinary_setReg s (fun hss hd => hAF hss (.inl hd)) _).trans
      (ordinary_setReg _ (fun hss hr => hAF hss (.inr hr)) _)).sameEnable
  | exM => cases h; exact ((ordinary_store ..).trans (ordinary_setReg _ (ne_af_of_decide hF) _)).sameEnable
  | pop =>
    have hdrop : SameEnable s s.dropStack := ⟨rfl, rfl, rfl⟩
    cases h
    exact hdrop.trans (ordinary_set32 _ (of_decide_eq_false hF) _).sameEnable
  | exAlt => exact execExAlt_sameEnable (ne_af_of_decide hF) h
  | exx | exi | halt | im1 | im2 | ldI | ldRA => cases h; exact ⟨rfl, rfl, rfl⟩
  | _ => exact (exec_ordinary rfl s t h).sameEnable

/-- Settles O12: an instruction that is none of EI, DI, RETI, RETN and writes no F as data leaves all three alone
(`exec_sameEnable`). -/
theorem interruptEnableHasListedWriters : Obligations.InterruptEnableHasListedWriters := by
  intro i s t h hchanged
  cases i with
  | ei => exact .inl rfl
  | di => exact .inr (.inl rfl)
  | reti cc => exact .inr (.inr (.inl ⟨cc, rfl⟩))
  | retn cc => exact .inr (.inr (.inr (.inl ⟨cc, rfl⟩)))
  | _ =>
    refine .inr (.inr (.inr (.inr ?_)))
    by_contra hF
    obtain ⟨hiff1, hiff2, hinhibit⟩ := exec_sameEnable rfl (Bool.eq_false_of_not_eq_true hF) h
    rcases hchanged with hne | hne | hne
    · exact hne hiff1
    · exact hne hiff2
    · exact hne hinhibit

/-! ## Every instruction completes -/

/-- The outcome is a next state: neither a fault nor a refusal. -/
def Completes (r : Result) : Prop := ∃ t, r = .next t

theorem completes_next (t : State) : Completes (.next t) := ⟨t, rfl⟩

theorem completes_writeBack {ss : Size} {d : RegField} (hd : ss = .dword → d ≠ .r0) (r : BitVec ss.bits × Flags)
    (s : State) : Completes (writeBack ss d r s) := by
  obtain ⟨t, hnext, -⟩ := writeBack_next r s hd
  exact ⟨t, hnext⟩

theorem completes_extR {z : WSize} {d : RegField} (hd : z = .dword → d ≠ .r0) (s : State) :
    Completes (execExtR z d s) := by
  have hAF : isAF z.size d = false := isAF_false (by cases z <;> simp_all)
  exact ⟨_, if_neg (by simp [hAF])⟩

theorem completes_repeatStep (stop : Bool) (final : Flags → Flags) (t : State) :
    Completes (repeatStep stop final t) := by
  cases stop <;> exact completes_next _

/-- The sizes that `MLTDIV_SS` lists have a target (R122, R123). -/
theorem exists_mltDivTarget {m : Config.MltDivSS} {ss : Size} (h : ss.mltDivLegal m = true) :
    ∃ z, mltDivTarget m ss = some z := by
  rw [← Option.isSome_iff_exists]
  revert h
  cases m <;> cases ss <;> decide

section MultiplyDivide
variable (op : (w : Nat) → Flags → Flags → BitVec w → BitVec w → BitVec w × Flags) {ss : Size} {s : State}
  (hwf : ss.mltDivLegal s.cfg.mltDivSS = true)
include hwf

theorem completes_mltDivR {d : RegField}
    (hAF : decide (mltDivTarget s.cfg.mltDivSS ss = some .dword ∧ d = .r0) = false) :
    Completes (mltDivR op ss d s) := by
  obtain ⟨z, htarget⟩ := exists_mltDivTarget hwf
  have hd : z = .dword → d ≠ .r0 := fun hz => ne_af_of_decide hAF (htarget.trans (congrArg some hz))
  obtain ⟨t, -, hnext, -⟩ := mltDivR_next op htarget hd
  exact ⟨t, hnext⟩

theorem completes_mltDivM (ea : Addr) : Completes (mltDivM op ss ea s) := by
  obtain ⟨z, htarget⟩ := exists_mltDivTarget hwf
  obtain ⟨t, -, hnext, -⟩ := mltDivM_next op htarget (ea := ea)
  exact ⟨t, hnext⟩

end MultiplyDivide

/-- An instruction can stop in three places: the refusal of AF in `writeBack` and in EXT, and a size of MLT, DIV, SDIV
without a target. The hypotheses close all three. -/
theorem exec_completes {i : Instr} {s : State} (hwf : i.wf s.cfg.mltDivSS = true)
    (hAF : writesAFByArithmetic s.cfg.mltDivSS i = false) : Completes (exec i s) := by
  cases i with
  | addR | adcR | subR | sbcR | andR | orR | xorR | incR | decR | negR | cplR =>
    exact completes_writeBack (ne_af_of_decide hAF) _ s
  | rlcR | rrcR | rlR | rrR | slaR | sraR | srlR => exact completes_writeBack (ne_af_of_decide hAF) _ s
  | addM ss ea f | adcM ss ea f | subM ss ea f | sbcM ss ea f | andM ss ea f | orM ss ea f | xorM ss ea f =>
    cases f with
    | toMem src => exact completes_next _
    | toReg d => exact completes_writeBack (ne_af_of_decide hAF) _ s
  | rlcM ss ea f | rrcM ss ea f | rlM ss ea f | rrM ss ea f | slaM ss ea f | sraM ss ea f | srlM ss ea f =>
    cases f with
    | onMem n => exact completes_next _
    | onReg d => exact completes_writeBack (ne_af_of_decide hAF) _ s
  | extR => exact completes_extR (ne_af_of_decide hAF) s
  | mltR | divR | sdivR => exact completes_mltDivR _ hwf hAF
  | mltM | divM | sdivM => exact completes_mltDivM _ hwf _
  | ldM ss ea f | cpM ss ea f | tstM ss ea f | bitM ss ea f | setM ss ea f | resM ss ea f =>
    cases f <;> exact completes_next _
  | exAlt z => cases z <;> exact completes_next _
  | ldirB | lddrB | ldirW | lddrW | cpirB | cpdrB | cpirW | cpdrW => exact completes_repeatStep ..
  | tsirB | tsdrB | tsirW | tsdrW => exact completes_repeatStep ..
  | inirB | indrB | inirW | indrW | otirB | otdrB | otirW | otdrW => exact completes_repeatStep ..
  | _ => exact completes_next _

/-- Settles O13. -/
theorem everyInstructionCompletes : Obligations.EveryInstructionCompletes := fun _ _ hwf hAF => exec_completes hwf hAF

end Sys2Proof.Machine
end

section
/-! PROOFS. The statement on the reset sequence (R360): PC is read in the state that the rest of the sequence leaves. -/

namespace Sys2Proof.Machine

/-- PC after the sequence is the dword at address 0 (R360); the load does not see PC itself (`State.load_congr`). -/
theorem State.resetSequence_pc (s : State) :
    s.resetSequence.pc = s.resetSequence.load .resetVector .dword 0#32 := by
  rw [State.resetSequence]
  exact State.load_congr rfl rfl rfl .resetVector .dword 0#32

/-- What memory lists after the sequence (R71, R361). -/
theorem State.resetSequence_mem (s : State) :
    s.resetSequence.mem = unresetMemory s.cfg.regions s.tick s.mem := rfl

/-- Settles O4: the listed registers take constants, the bytes of PC are those of the load at address 0, and the free
values that the rest of memory takes pass ROM by (`unresetMemory_read_rom`). -/
theorem resetSequenceLoadsVector : Obligations.ResetSequenceLoadsVector := by
  intro s
  refine ⟨rfl, rfl, rfl, rfl, rfl, rfl, rfl, rfl, rfl, (sameSetting_resetSequence s).cfg, ?vector, ?rom⟩
  case vector =>
    intro k hk
    rw [s.resetSequence_pc, State.byteOf_load _ _ .dword _ hk, BitVec.zero_add]
  case rom =>
    intro p hrom
    rw [s.resetSequence_mem]
    exact unresetMemory_read_rom s.cfg.regions s.tick s.mem hrom

end Sys2Proof.Machine
end
